-- ==== Sys2Proof/Word.lean ====
section
/-! DEFINITION. The two word types of the core (00_scope.md R12, R10): bytes of system memory and of the
record stream, and the 32-bit registers of the host's block and of the engines. -/

namespace Sys2Proof

/-- A byte (R12). -/
abbrev Byte := BitVec 8

/-- A host-visible register (`REG_W` = 32 bits) or an engine cursor (`LEN_W` = 32 bits, R10, R31), or a 32-bit chunk of input
(R65). -/
abbrev Word := BitVec 32

end Sys2Proof
end

