-- ==== Sys2Proof/Config.lean ====
section
/-! DEFINITION. The parameters of 00_scope.md R9, R10 and R11, by the spec's names, and the free values
the spec leaves open (93_implementation_defined.md I4, I5, I12, I17). A free value has no body: nothing can be
proved about which value it is. -/

namespace Sys2Proof.Config

/-- `HASH_BITS` (R9). -/
abbrev hashBits : Nat := 14
/-- `HASH_MULT` (R9). -/
abbrev hashMult : Word := 0x1824429D#32
/-- `HASH_SHIFT` (R9). -/
abbrev hashShift : Nat := 18
/-- `SEG_MAX` (R9). -/
abbrev segMax : Nat := 0xC000
/-- `BACKOFF_SHIFT` (R9). -/
abbrev backoffShift : Nat := 5
/-- `MIN_MATCH` (R9). -/
abbrev minMatch : Nat := 4
/-- `END_MARKER` (R9). -/
abbrev endMarker : List Byte := [0x11#8, 0x00#8, 0x00#8]
/-- The output capacity a host provides for compressing `n` bytes (R9, R66). -/
abbrev worstCase (n : Nat) : Nat := n + n / 16 + 64 + 3

/-- The size of system memory, `2^ADDR_W` bytes with `ADDR_W` = 32 (R10, R60). -/
abbrev addrSpace : Nat := 0x100000000
/-- `HT_EMPTY` (R10, R34). -/
abbrev htEmpty : BitVec 16 := 0#16
/-- `ACC_W` (R10, R238). -/
abbrev accWidth : Nat := 41

/-- `M2_MAX_LEN` (R11). -/
abbrev m2MaxLen : Nat := 8
/-- `M2_MAX_OFFSET` (R11). -/
abbrev m2MaxOffset : Nat := 0x0800
/-- `M3_MAX_LEN` (R11). -/
abbrev m3MaxLen : Nat := 33
/-- `M3_MAX_OFFSET` (R11). -/
abbrev m3MaxOffset : Nat := 0x4000
/-- `M4_MAX_LEN` (R11). -/
abbrev m4MaxLen : Nat := 9
/-- `M4_MAX_OFFSET` (R11). -/
abbrev m4MaxOffset : Nat := 0xBFFF
/-- `M4_BIAS` (R11). -/
abbrev m4Bias : Nat := 0x4000
/-- `M1B_BIAS` (R11). -/
abbrev m1bBias : Nat := 0x0800
/-- `LIT_INIT_BIAS` (R11). -/
abbrev litInitBias : Nat := 17
/-- `FIRST_LIT_MAX` (R11). -/
abbrev firstLitMax : Nat := 238

/-- The byte a host reads from the output window of a running job, or an output byte of a job whose
windows another agent disturbed (R74, R290, R291): any value. DESIGN CHOICE of form, log entry 5; safe. -/
opaque freeByte : Nat → Byte
/-- `OUT_LEN` and `IN_POS` of a disturbed job (I4, I17): any value. Log entry 5; safe. -/
opaque freeWord : Nat → Word
/-- `ERR` of such a job (I4): any of the seven codes that are ever written (R251). Log entry 5; safe. -/
opaque freeErr : Nat → Fin 7

end Sys2Proof.Config
end

