-- ==== Sys2Proof/Machine/Operands.lean ====
section
/-! DEFINITION. Operand assembly (30_encoding.md R106): the fields of tag, distance and continuation values as
unsigned numbers, zero-extended, with the scales and biases of the table. `t` is a tag byte, `b` the
distance byte of a two-byte match, `D` the 16-bit distance field, `C` a continuation value. -/

namespace Sys2Proof

/-- The field `v[hi:lo]` (R12). -/
def bits (v hi lo : Nat) : Nat := v / 2 ^ lo % 2 ^ (hi + 1 - lo)

/-- LIT_INIT `n = t - 17` (R94). -/
def litInitCount (t : Nat) : Nat := t - Config.litInitBias
/-- LIT_SHORT `n = t[3:0] + 3` (R95). -/
def litShortCount (t : Nat) : Nat := bits t 3 0 + 3
/-- LIT_LONG `n = 18 + C` (R96). -/
def litLongCount (C : Nat) : Nat := 18 + C
/-- The s-bits, bits `1:0` of the state byte (R97); of a 16-bit field they are bits `1:0` too. -/
def sBits (v : Nat) : Nat := bits v 1 0
/-- M1A `dist = 1 + t[3:2] + (b << 2)` (R98). -/
def m1aDist (t b : Nat) : Nat := 1 + bits t 3 2 + 4 * b
/-- M1B `dist = 0x801 + t[3:2] + (b << 2)` (R99). -/
def m1bDist (t b : Nat) : Nat := 1 + Config.m1bBias + bits t 3 2 + 4 * b
/-- M2 `len = t[7:5] + 1` (R100). -/
def m2Len (t : Nat) : Nat := bits t 7 5 + 1
/-- M2 `dist = 1 + t[4:2] + (b << 3)` (R100). -/
def m2Dist (t b : Nat) : Nat := 1 + bits t 4 2 + 8 * b
/-- The distance field `D`, first byte in bits `7:0` (R65, R101). -/
def distField (b0 b1 : Byte) : Nat := b0.toNat + 256 * b1.toNat
/-- M3 `len = t[4:0] + 2` (R101). -/
def m3Len (t : Nat) : Nat := bits t 4 0 + 2
/-- M3_LONG `len = 33 + C` (R101). -/
def m3LongLen (C : Nat) : Nat := Config.m3MaxLen + C
/-- M3 and M3_LONG `dist = 1 + D[15:2]` (R101). -/
def m3Dist (D : Nat) : Nat := 1 + bits D 15 2
/-- M4 `len = t[2:0] + 2` (R102). -/
def m4Len (t : Nat) : Nat := bits t 2 0 + 2
/-- M4_LONG `len = 9 + C` (R102). -/
def m4LongLen (C : Nat) : Nat := Config.m4MaxLen + C
/-- M4 and M4_LONG `dist = 0x4000 + (t[3] << 14) + D[15:2]` (R102). -/
def m4Dist (t D : Nat) : Nat := Config.m4Bias + 0x4000 * bits t 3 3 + bits D 15 2
/-- The M4 forms that end the stream: `H = 0` and `d = 0` (R103). -/
def isEof (t D : Nat) : Bool := decide (bits t 3 3 = 0) && decide (bits D 15 2 = 0)

end Sys2Proof
end

