-- ==== Sys2Proof/Syntax.lean ====
section
/-! DEFINITION. The records of the stream, which are the core's instructions (30_encoding.md R93): one
constructor for each row of spec/opcode_table.json, with its operands assembled as R106 says. The literal
bytes that belong to a record are data the copy unit reads when the record runs, not operands (log entry 11). -/

namespace Sys2Proof

/-- The decoder state `d_state` (10_state.md R37), the core's only condition code. -/
inductive DecState where
  /-- The next tag `0..15` is a literal run. -/
  | s0
  /-- The next tag `0..15` is an M1A match. -/
  | s1
  /-- The next tag `0..15` is an M1B match. -/
  | s4
deriving DecidableEq, Repr

/-- What a tag byte's meaning depends on (R91): the start rule, or the decoder state at a later tag. -/
inductive DecodeContext where
  /-- The first byte of the stream (`D_START`, R191). -/
  | start
  /-- A tag read in `D_FETCH` (R192). -/
  | fetch (d : DecState)
deriving DecidableEq, Repr

/-- One record. `n` is a count of literal bytes, `len` a match length, `dist` a match distance, `s` the
number of trailing literals (R106). -/
inductive Instr where
  /-- LIT_INIT (R94, R193). -/
  | litInit (n : Nat)
  /-- LIT_SHORT (R95, R194). -/
  | litShort (n : Nat)
  /-- LIT_LONG (R96, R195). -/
  | litLong (n : Nat)
  /-- M1A, length 2 (R98, R196). -/
  | m1a (dist s : Nat)
  /-- M1B, length 3 (R99, R197). -/
  | m1b (dist s : Nat)
  /-- M2 (R100, R198). -/
  | m2 (len dist s : Nat)
  /-- M3 (R101, R199). -/
  | m3 (len dist s : Nat)
  /-- M3_LONG (R101, R200). -/
  | m3Long (len dist s : Nat)
  /-- M4 (R102, R201). -/
  | m4 (len dist s : Nat)
  /-- M4_LONG (R102, R202). -/
  | m4Long (len dist s : Nat)
  /-- EOF (R103, R203): `l3` is the tag's ignored length field, `c` the ignored continuation value (0 when
  there is none), `s` the ignored s-bits. -/
  | eof (l3 c s : Nat)
deriving DecidableEq, Repr

/-- Why bytes hold no whole record header: the only way decoding fails, since no encoding is reserved (R108). -/
inductive DecodeError where
  /-- There is no tag byte. -/
  | missingTag
  /-- The bytes end inside a continuation (R105). -/
  | missingContinuation
  /-- The bytes end before the last distance byte. -/
  | missingDistance
deriving DecidableEq, Repr

/-- The decoder's answer: a record with the length of its header (tag, continuation, distance bytes), or
the reason there is none. -/
inductive Decoded where
  | ok (i : Instr) (headerLen : Nat)
  | error (e : DecodeError)
deriving DecidableEq, Repr

end Sys2Proof
end

