-- ==== Sys2Proof/WellFormed.lean ====
section
/-! DEFINITION. Which operands each record can carry (30_encoding.md R93 to R103). -/

namespace Sys2Proof

/-- The operand ranges of each record kind, as the table of R93 gives them. -/
def Instr.wf : Instr → Bool
  | .litInit n => decide (1 ≤ n) && decide (n ≤ Config.firstLitMax)
  | .litShort n => decide (4 ≤ n) && decide (n ≤ 18)
  | .litLong n => decide (19 ≤ n)
  | .m1a dist s => decide (1 ≤ dist) && decide (dist ≤ 1024) && decide (s ≤ 3)
  | .m1b dist s => decide (2049 ≤ dist) && decide (dist ≤ 3072) && decide (s ≤ 3)
  | .m2 len dist s =>
    decide (3 ≤ len) && decide (len ≤ Config.m2MaxLen) && decide (1 ≤ dist) &&
      decide (dist ≤ Config.m2MaxOffset) && decide (s ≤ 3)
  | .m3 len dist s =>
    decide (3 ≤ len) && decide (len ≤ Config.m3MaxLen) && decide (1 ≤ dist) &&
      decide (dist ≤ Config.m3MaxOffset) && decide (s ≤ 3)
  | .m3Long len dist s =>
    decide (Config.m3MaxLen < len) && decide (1 ≤ dist) && decide (dist ≤ Config.m3MaxOffset) && decide (s ≤ 3)
  | .m4 len dist s =>
    decide (3 ≤ len) && decide (len ≤ Config.m4MaxLen) && decide (Config.m4Bias < dist) &&
      decide (dist ≤ Config.m4MaxOffset) && decide (s ≤ 3)
  | .m4Long len dist s =>
    decide (Config.m4MaxLen < len) && decide (Config.m4Bias < dist) &&
      decide (dist ≤ Config.m4MaxOffset) && decide (s ≤ 3)
  | .eof l3 c s =>
    decide (l3 ≤ 7) && decide (s ≤ 3) && (if l3 = 0 then decide (1 ≤ c) else decide (c = 0))

/-- The literal bytes that follow the record's header and belong to it (R107). -/
def Instr.literals : Instr → Nat
  | .litInit n => n
  | .litShort n => n
  | .litLong n => n
  | .m1a _ s => s
  | .m1b _ s => s
  | .m2 _ _ s => s
  | .m3 _ _ s => s
  | .m3Long _ _ s => s
  | .m4 _ _ s => s
  | .m4Long _ _ s => s
  | .eof _ _ _ => 0

/-- The contexts in which a record kind is met, but for the start rule's bound on the first byte (R92). -/
def Instr.metIn : Instr → DecodeContext → Bool
  | .litInit _, c => decide (c = .start)
  | .litShort _, c => decide (c = .start) || decide (c = .fetch .s0)
  | .litLong _, c => decide (c = .start) || decide (c = .fetch .s0)
  | .m1a _ _, c => decide (c = .fetch .s1)
  | .m1b _ _, c => decide (c = .fetch .s4)
  | .m2 _ _ _, c => decide (c ≠ .start)
  | .m3 _ _ _, c => decide (c ≠ .start)
  | .m3Long _ _ _, c => decide (c ≠ .start)
  | .m4 len dist _, c => decide (c ≠ .start) || (decide (len = 3) && decide (dist < 0x8000))
  | .m4Long _ dist _, c => decide (c ≠ .start) || decide (dist < 0x8000)
  | .eof l3 _ _, c => decide (c ≠ .start) || decide (l3 ≤ 1)

end Sys2Proof
end

