-- ==== Sys2Proof/Decode.lean ====
section
/-! DEFINITION. The decoder (30_encoding.md R91 to R107; 42_decoder.md R191, R192), total on any bytes: it
fails only where the bytes end before a record header does (R108). After it the encoder, written from the same
format tables, and what the host asks of one word of the opcode table. The decoder reads its bytes one at a
time, in order, through `rd`: `rd k` is the `k`-th byte from the tag on, `none` past the last. -/

namespace Sys2Proof

/-- The continuation decoder (R105, 43_copy_unit.md R231): from position `p` with `acc` so far, its value
and the position after it. `fuel` is at least the number of bytes left. -/
def extDecode (rd : Nat → Option Byte) : Nat → Nat → Nat → Option (Nat × Nat)
  | 0, _, _ => none
  | fuel + 1, p, acc =>
    match rd p with
    | none => none
    | some b => if b = 0#8 then extDecode rd fuel (p + 1) (acc + 255) else some (acc + b.toNat, p + 1)

/-- The two distance bytes at position `p` as the field `D` (R101). -/
def readDistField (rd : Nat → Option Byte) (p : Nat) : Option Nat :=
  match rd p with
  | none => none
  | some b0 =>
    match rd (p + 1) with
    | none => none
    | some b1 => some (distField b0 b1)

/-- LIT_LONG after its tag (R96). -/
def decodeLitLong (rd : Nat → Option Byte) (fuel : Nat) : Decoded :=
  match extDecode rd fuel 1 0 with
  | none => .error .missingContinuation
  | some (C, p) => .ok (.litLong (litLongCount C)) p

/-- M1A after its tag `t` (R98). -/
def decodeM1a (rd : Nat → Option Byte) (t : Nat) : Decoded :=
  match rd 1 with
  | none => .error .missingDistance
  | some b => .ok (.m1a (m1aDist t b.toNat) (sBits t)) 2

/-- M1B after its tag `t` (R99). -/
def decodeM1b (rd : Nat → Option Byte) (t : Nat) : Decoded :=
  match rd 1 with
  | none => .error .missingDistance
  | some b => .ok (.m1b (m1bDist t b.toNat) (sBits t)) 2

/-- M2 after its tag `t` (R100). -/
def decodeM2 (rd : Nat → Option Byte) (t : Nat) : Decoded :=
  match rd 1 with
  | none => .error .missingDistance
  | some b => .ok (.m2 (m2Len t) (m2Dist t b.toNat) (sBits t)) 2

/-- M3 after its tag `t` (R101). -/
def decodeM3 (rd : Nat → Option Byte) (t : Nat) : Decoded :=
  match readDistField rd 1 with
  | none => .error .missingDistance
  | some D => .ok (.m3 (m3Len t) (m3Dist D) (sBits D)) 3

/-- M3_LONG after its tag (R101). -/
def decodeM3Long (rd : Nat → Option Byte) (fuel : Nat) : Decoded :=
  match extDecode rd fuel 1 0 with
  | none => .error .missingContinuation
  | some (C, p) =>
    match readDistField rd p with
    | none => .error .missingDistance
    | some D => .ok (.m3Long (m3LongLen C) (m3Dist D) (sBits D)) (p + 2)

/-- M4 or EOF after its tag `t`, `t[2:0]` nonzero (R102, R103). -/
def decodeM4 (rd : Nat → Option Byte) (t : Nat) : Decoded :=
  match readDistField rd 1 with
  | none => .error .missingDistance
  | some D =>
    if isEof t D then .ok (.eof (bits t 2 0) 0 (sBits D)) 3
    else .ok (.m4 (m4Len t) (m4Dist t D) (sBits D)) 3

/-- M4_LONG or EOF after its tag `t`, `t[2:0]` zero (R102, R103). -/
def decodeM4Long (rd : Nat → Option Byte) (fuel t : Nat) : Decoded :=
  match extDecode rd fuel 1 0 with
  | none => .error .missingContinuation
  | some (C, p) =>
    match readDistField rd p with
    | none => .error .missingDistance
    | some D =>
      if isEof t D then .ok (.eof 0 C (sBits D)) (p + 2)
      else .ok (.m4Long (m4LongLen C) (m4Dist t D) (sBits D)) (p + 2)

/-- A tag `t` read in `D_FETCH` with decoder state `d` (R92, R192). -/
def decodeTag (d : DecState) (rd : Nat → Option Byte) (fuel t : Nat) : Decoded :=
  if 64 ≤ t then decodeM2 rd t
  else if 32 ≤ t then (if t = 32 then decodeM3Long rd fuel else decodeM3 rd t)
  else if 16 ≤ t then (if bits t 2 0 = 0 then decodeM4Long rd fuel t else decodeM4 rd t)
  else
    match d with
    | .s0 => if t = 0 then decodeLitLong rd fuel else .ok (.litShort (litShortCount t)) 1
    | .s1 => decodeM1a rd t
    | .s4 => decodeM1b rd t

/-- The decoder: in the start context a first byte above 17 is LIT_INIT, any other first byte an ordinary tag
read in `S0` (R91, R191). -/
def decodeFrom (c : DecodeContext) (rd : Nat → Option Byte) (fuel : Nat) : Decoded :=
  match rd 0 with
  | none => .error .missingTag
  | some b =>
    match c with
    | .start =>
      if Config.litInitBias < b.toNat then .ok (.litInit (litInitCount b.toNat)) 1
      else decodeTag .s0 rd fuel b.toNat
    | .fetch d => decodeTag d rd fuel b.toNat

/-- The decoder on a list of bytes. -/
def decode (c : DecodeContext) (bytes : List Byte) : Decoded :=
  decodeFrom c (fun k => bytes[k]?) bytes.length

/-- The continuation of value `x >= 1`: `z = (x - 1) div 255` zeros, then `x - 255*z` (R105). -/
def extBytes (x : Nat) : List Byte :=
  List.replicate ((x - 1) / 255) 0#8 ++ [BitVec.ofNat 8 (x - 255 * ((x - 1) / 255))]

/-- How many bytes the continuation of value `x` has: `k = z + 1` (R96). -/
def extLen (x : Nat) : Nat := (x - 1) / 255 + 1

/-- The two distance bytes of M3 and M4 records: `d[5:0]` above the s-bits, then `d[13:6]` (R101, R102). -/
def distBytes (d s : Nat) : List Byte := [BitVec.ofNat 8 (4 * (d % 64) + s), BitVec.ofNat 8 (d / 64)]

/-- The encoder: the header bytes of a well-formed record (R94 to R103). -/
def encode : Instr → List Byte
  | .litInit n => [BitVec.ofNat 8 (Config.litInitBias + n)]
  | .litShort n => [BitVec.ofNat 8 (n - 3)]
  | .litLong n => 0#8 :: extBytes (n - 18)
  | .m1a dist s => [BitVec.ofNat 8 (4 * ((dist - 1) % 4) + s), BitVec.ofNat 8 ((dist - 1) / 4)]
  | .m1b dist s =>
    [BitVec.ofNat 8 (4 * ((dist - 1 - Config.m1bBias) % 4) + s), BitVec.ofNat 8 ((dist - 1 - Config.m1bBias) / 4)]
  | .m2 len dist s =>
    [BitVec.ofNat 8 (32 * (len - 1) + 4 * ((dist - 1) % 8) + s), BitVec.ofNat 8 ((dist - 1) / 8)]
  | .m3 len dist s => BitVec.ofNat 8 (32 + (len - 2)) :: distBytes (dist - 1) s
  | .m3Long len dist s => 32#8 :: (extBytes (len - Config.m3MaxLen) ++ distBytes (dist - 1) s)
  | .m4 len dist s =>
    BitVec.ofNat 8 (16 + 8 * ((dist - Config.m4Bias) / 0x4000) + (len - 2)) ::
      distBytes ((dist - Config.m4Bias) % 0x4000) s
  | .m4Long len dist s =>
    BitVec.ofNat 8 (16 + 8 * ((dist - Config.m4Bias) / 0x4000)) ::
      (extBytes (len - Config.m4MaxLen) ++ distBytes ((dist - Config.m4Bias) % 0x4000) s)
  | .eof l3 c s =>
    BitVec.ofNat 8 (16 + l3) :: ((if l3 = 0 then extBytes c else []) ++ distBytes 0 s)

/-- The bytes of a record's header, tag to last distance byte (R107). -/
def headerLen : Instr → Nat
  | .litInit _ => 1
  | .litShort _ => 1
  | .litLong n => 1 + extLen (n - 18)
  | .m1a _ _ => 2
  | .m1b _ _ => 2
  | .m2 _ _ _ => 2
  | .m3 _ _ _ => 3
  | .m3Long len _ _ => 3 + extLen (len - Config.m3MaxLen)
  | .m4 _ _ _ => 3
  | .m4Long len _ _ => 3 + extLen (len - Config.m4MaxLen)
  | .eof l3 c _ => if l3 = 0 then 3 + extLen c else 3

/-! A word of the opcode table, for the host's question. The table gives each row its tag byte only, and the
meaning of a tag depends on the decoder's context (R91): log entry 10 says which context a word is read in
and how its operand bytes are completed. -/

/-- DESIGN CHOICE (log entry 10), safe: LIT_INIT's own word is read at the stream start, every other word in
`D_FETCH` with `d_state` = S0. -/
def tableContext (w : Nat) : DecodeContext :=
  if w % 256 = 0x12 then .start else .fetch .s0

/-- Whether the bytes end inside a continuation: an escape tag (R107), then zeros only. -/
def openContinuation : List Byte → Bool
  | [] => false
  | t :: rest => (decide (t = 0x00#8) || decide (t = 0x20#8) || decide (t = 0x10#8) || decide (t = 0x18#8)) &&
      rest.all (fun b => decide (b = 0#8))

/-- The bytes of the table word, the first lowest, then zeros for the operand bytes above `nbits`; an escape
form's continuation cannot be zeros only (R105), so one left open is closed by its least value, `01`. -/
def tableBytes (nbits w : Nat) : List Byte :=
  let given := (List.range ((nbits + 7) / 8)).map (fun k => BitVec.ofNat 8 (w / 256 ^ k))
  given ++ (if openContinuation given then [1#8] else []) ++ [0#8, 0#8, 0#8]

/-- The record, if any, that the decoder reads from a word of the opcode table. -/
def decodeTableWord (nbits w : Nat) : Option Instr :=
  match decode (tableContext w) (tableBytes nbits w) with
  | .ok i _ => some i
  | .error _ => none

/-- The whole record of a table word as it lies in the stream: its header, then zeros for its literal bytes. -/
def tableRecord (nbits w : Nat) : List Byte :=
  match decode (tableContext w) (tableBytes nbits w) with
  | .ok i len => (tableBytes nbits w).take len ++ List.replicate i.literals 0#8
  | .error _ => tableBytes nbits w

end Sys2Proof
end

