-- ==== Sys2Proof/Machine/State.lean ====
section
/-! DEFINITION. The state of the core (10_state.md R20 to R39), of the system memory it reaches (20_memory.md
R60), and of its environment as the model drives it; the reasons a step can stop; the state after reset (R39).
Engine cursors are registers of 32 bits (R31, R36); the rules compute with their values exactly (00_scope.md R12; log
entry 1). -/

namespace Sys2Proof.Machine

/-- `CTRL.MODE` (R21): which engine a job runs. -/
inductive Mode where
  /-- 0, compress. -/
  | comp
  /-- 1, decompress. -/
  | dec
deriving DecidableEq, Repr

/-- The codes of `STATUS.ERR` that are ever written (60_exceptions.md R251); 7 to 15 never are. -/
inductive ErrCode where
  | ok
  | truncatedInput
  | trailingData
  | bufferOverflow
  | lookbehindOverrun
  | lengthMismatch
  | configError
deriving DecidableEq, Repr

/-- The compressor's phases (40_match_finder.md R130). -/
inductive CPhase where
  | idle
  | seg
  | advance
  | probe
  | matched
  | flush
  | finish
deriving DecidableEq, Repr

/-- The decompressor's phases (10_state.md R36). -/
inductive DPhase where
  | idle
  | start
  | fetch
  | halt
deriving DecidableEq, Repr

/-- A range of system addresses, `base` to `base + size - 1`. -/
structure AddrRange where
  base : Nat
  size : Nat
deriving DecidableEq, Repr

/-- The windows of a job of another core instance, as its registers give them (60_exceptions.md R272,
70_reset_and_hazards.md R291). -/
structure Windows where
  inBase : Word
  inLen : Word
  outBase : Word
  outCap : Word
deriving DecidableEq, Repr

/-- What the world outside the core does at a step (log entry 4): accesses to the register block at an offset
from `CORE_BASE` (`width` in bytes), accesses to system memory by the host or another bus master (R75), a job of
another core instance that begins or ends (R291), the reset signal (R280); or nothing, and the engine moves. -/
inductive HostAction where
  | engineTurn
  | regRead (width offset : Nat)
  | regWrite (width offset : Nat) (value : Word)
  | memRead (addr : Word)
  | memWrite (addr : Word) (value : Byte)
  | otherStart (w : Windows)
  | otherEnd (w : Windows)
  | resetSignal
deriving DecidableEq, Repr

/-- The whole state. CTRL and STATUS are held as their fields; reserved bits have no storage (R29; log entry 13). -/
@[ext]
structure State where
  /-- `CTRL.MODE` (R21). -/
  ctrlMode : Mode
  /-- `CTRL.IE` (R21). -/
  ctrlIe : Bool
  /-- `STATUS.BUSY` (R22). -/
  statusBusy : Bool
  /-- `STATUS.DONE` (R22). -/
  statusDone : Bool
  /-- `STATUS.ERR` (R22). -/
  statusErr : ErrCode
  /-- `IN_BASE` (R23). -/
  inBase : Word
  /-- `IN_LEN` (R24). -/
  inLen : Word
  /-- `OUT_BASE` (R25). -/
  outBase : Word
  /-- `OUT_CAP` (R26). -/
  outCap : Word
  /-- `OUT_LEN` (R27). -/
  outLen : Word
  /-- `IN_POS` (R28). -/
  inPos : Word
  /-- `c_phase` (R31, R130). -/
  cPhase : CPhase
  /-- `c_pos` (R31). -/
  cPos : Word
  /-- `c_rem` (R31). -/
  cRem : Word
  /-- `c_ll` (R31). -/
  cLl : Word
  /-- `c_t` (R31). -/
  cT : Word
  /-- `c_ip` (R31). -/
  cIp : Word
  /-- `c_ii` (R31). -/
  cIi : Word
  /-- `c_ipend` (R31). -/
  cIpend : Word
  /-- `c_op` (R31). -/
  cOp : Word
  /-- `c_cand` (R31). -/
  cCand : Word
  /-- `c_mlen` (R31). -/
  cMlen : Word
  /-- `c_moff` (R31). -/
  cMoff : Word
  /-- `HT` (R33): the entries that are not `HT_EMPTY`, in canonical form. -/
  ht : List (Nat × BitVec 16)
  /-- `d_phase` (R36). -/
  dPhase : DPhase
  /-- `d_ip` (R36), the program counter. -/
  dIp : Word
  /-- `d_op` (R36). -/
  dOp : Word
  /-- `d_state` (R36, R37). -/
  dState : DecState
  /-- System memory (R60): the bytes that are not 0, in canonical form (log entry 3). -/
  mem : List Host.Cell
  /-- The model's own: what the outside does next (log entry 4). -/
  host : List HostAction
  /-- The model's own: what the last host read returned (log entry 4). -/
  hostData : Word
  /-- The model's own: another agent wrote a window of the running job (R290), or another instance's job shared a byte with
  it (R291; log entry 5). -/
  hazard : Bool
  /-- The model's own: which free value comes next (log entry 6). -/
  freeCount : Nat
  /-- The platform's address ranges whose reads have side effects (R70; log entry 7). -/
  devices : List AddrRange
  /-- The jobs that other core instances are running now (R272, R291; log entry 18). -/
  others : List Windows
deriving DecidableEq, Repr

/-- Why the machine stops. Each is raised only in a state no job reaches (log entry 12). -/
inductive Fault where
  /-- An engine runs although its windows fail the placement check of R261, which START makes. Raised by the
  engines' shared entry. Safe: the hardware never gets there. -/
  | windowsNotPlaced
  /-- The compressor would read the input outside the segment or the window (R64, R67; I14 refuses it). Raised by
  the compressor's phases. Safe. -/
  | readOutsideInput
  /-- The s-bit patch of R163 would touch a byte outside the output written so far. Safe. -/
  | patchOutsideOutput
  /-- BUSY is 1 but the engine's phase is idle or halted (R252 clears both at once). Raised by the engines. Safe. -/
  | busyEngineIdle
deriving DecidableEq, Repr

/-- What the model does not give a meaning. -/
inductive Refusal where
  /-- An instruction without a meaning yet. Raised by `exec` only. Safe. -/
  | notModelled (mnemonic : String)
  /-- A host access to the register block that is not a naturally aligned 32-bit one (R30; I3 refuses it).
  Raised by the host port. Safe. -/
  | registerAccessForm
  /-- A host access at an offset outside the block's 64-byte window (R71): not an access to this core.
  Raised by the host port. Safe. -/
  | outsideRegisterBlock
  /-- START with a window on addresses whose reads have side effects (R70; I7 refuses it). Raised by START. Safe. -/
  | windowOnDevice
  /-- A host access to an address whose reads have side effects: the spec gives no device's behaviour (R70).
  Raised by the host's memory accesses. Safe. -/
  | deviceAccess
deriving DecidableEq, Repr

/-- What one step answers. -/
abbrev Result := Host.Outcome State Fault Refusal

/-- How an engine rule ends: it goes on, it raises an error (00_scope.md R14) in the state at the failing check,
or it meets a state no job reaches. -/
inductive Flow where
  | ok (s : State)
  | raise (e : ErrCode) (s : State)
  | fault (f : Fault)
deriving DecidableEq, Repr

/-- The state after reset (R39): every host register 0, both engines idle. The engine registers and the hash table,
which R39 leaves unspecified, hold 0 and `S0` (DESIGN CHOICE, log entry 2); no memory byte is written (log entry 3);
the model's own fields are empty (log entries 4 to 7, 18). -/
def State.reset : State where
  ctrlMode := .comp
  ctrlIe := false
  statusBusy := false
  statusDone := false
  statusErr := .ok
  inBase := 0#32
  inLen := 0#32
  outBase := 0#32
  outCap := 0#32
  outLen := 0#32
  inPos := 0#32
  cPhase := .idle
  cPos := 0#32
  cRem := 0#32
  cLl := 0#32
  cT := 0#32
  cIp := 0#32
  cIi := 0#32
  cIpend := 0#32
  cOp := 0#32
  cCand := 0#32
  cMlen := 0#32
  cMoff := 0#32
  ht := []
  dPhase := .idle
  dIp := 0#32
  dOp := 0#32
  dState := .s0
  mem := []
  host := []
  hostData := 0#32
  hazard := false
  freeCount := 0
  devices := []
  others := []

end Sys2Proof.Machine
end

