-- ==== Sys2Proof/Machine/Flags.lean ====
section
/-! DEFINITION. The decoder state after each kind of record (10_state.md R37), which is the core's only condition
code, and the bits of CTRL, STATUS and irq as the host sees them (R21, R22, 60_exceptions.md R251, R265). -/

namespace Sys2Proof.Machine

/-- `d_state` after LIT_INIT of `n` bytes (R193). -/
def stateAfterLitInit (n : Nat) : DecState := if n ≤ 3 then .s1 else .s4

/-- `d_state` after LIT_SHORT and LIT_LONG (R194, R195). -/
def stateAfterLiteralRun : DecState := .s4

/-- `d_state` after a match with `s` trailing literals (R204). -/
def stateAfterMatch (s : Nat) : DecState := if s = 0 then .s0 else .s1

/-- The code of an error in `STATUS.ERR` (R251). -/
def ErrCode.code : ErrCode → Nat
  | .ok => 0
  | .truncatedInput => 1
  | .trailingData => 2
  | .bufferOverflow => 3
  | .lookbehindOverrun => 4
  | .lengthMismatch => 5
  | .configError => 6

/-- The error of a code, for the free `ERR` of log entry 5 (R251). -/
def errOfCode (c : Fin 7) : ErrCode :=
  match c.val with
  | 0 => .ok
  | 1 => .truncatedInput
  | 2 => .trailingData
  | 3 => .bufferOverflow
  | 4 => .lookbehindOverrun
  | 5 => .lengthMismatch
  | _ => .configError

/-- `CTRL.MODE` of a bit (R21). -/
def modeOfBit (b : Bool) : Mode := if b then .dec else .comp

/-- `CTRL` as the host reads it: START reads 0, MODE in bit 1, IE in bit 2, the rest 0 (R21, R29). -/
def ctrlWord (s : State) : Word :=
  BitVec.ofNat 32 (2 * (decide (s.ctrlMode = .dec)).toNat + 4 * s.ctrlIe.toNat)

/-- `STATUS` as the host reads it: BUSY in bit 0, DONE in bit 1, ERR in bits `7:4`, the rest 0 (R22, R29). -/
def statusWord (s : State) : Word :=
  BitVec.ofNat 32 (s.statusBusy.toNat + 2 * s.statusDone.toNat + 16 * s.statusErr.code)

/-- The interrupt output (R265). -/
def irq (s : State) : Bool := s.statusDone && s.ctrlIe

end Sys2Proof.Machine
end

