-- ==== Sys2Proof/Machine/Ops.lean ====
section
/-! DEFINITION. The named operations the engine rules are written over: memory and hash table, the windows and
their placement, the order in which a rule's parts run, the end of a job (60_exceptions.md R252, the one thing the
core does on an error; R258: there is no return from one), the decompressor's fetch and copy unit (43_copy_unit.md)
and the compressor's output primitive (41_encoder.md R160). -/

namespace Sys2Proof.Machine

/-! ### Sparse tables: keys strictly rising, no entry equal to 0, which is what an unlisted key reads as -/

/-- The entry at key `k`. -/
def sparseGet {w : Nat} : List (Nat × BitVec w) → Nat → BitVec w
  | [], _ => 0#w
  | (a, v) :: rest, k => if a = k then v else sparseGet rest k

/-- The table with `v` at key `k`. -/
def sparseSet {w : Nat} : List (Nat × BitVec w) → Nat → BitVec w → List (Nat × BitVec w)
  | [], k, v => if v = 0#w then [] else [(k, v)]
  | (a, x) :: rest, k, v =>
    if k < a then (if v = 0#w then (a, x) :: rest else (k, v) :: (a, x) :: rest)
    else if a = k then (if v = 0#w then rest else (k, v) :: rest)
    else (a, x) :: sparseSet rest k v

/-- The canonical form: keys strictly rising and below `bound`, no entry 0. -/
def sparseWf {w : Nat} (bound : Nat) : List (Nat × BitVec w) → Bool
  | [] => true
  | (a, v) :: rest =>
    decide (a < bound) && decide (v ≠ 0#w) && rest.all (fun e => decide (a < e.1)) && sparseWf bound rest

/-- System memory is in canonical form (R60; log entry 3). -/
def Memory.wf (m : List Host.Cell) : Bool := sparseWf Config.addrSpace m

/-- The hash table is in canonical form (R33). -/
def HashTable.wf (h : List (Nat × BitVec 16)) : Bool := sparseWf (2 ^ Config.hashBits) h

/-- `MemRead(addr, 1)` (R13). -/
def memRead (m : List Host.Cell) (addr : Nat) : Byte := sparseGet m addr

/-- `MemWrite(addr, 1, v)` (R13). -/
def memWrite (m : List Host.Cell) (addr : Nat) (v : Byte) : List Host.Cell := sparseSet m addr v

/-- `n` bytes from `src` on, copied to `dst` on strictly one at a time in rising order, so that a byte read may be one
written before (R73, R235). -/
def copyBytes (m : List Host.Cell) (src dst : Nat) : Nat → List Host.Cell
  | 0 => m
  | n + 1 => copyBytes (memWrite m dst (memRead m src)) (src + 1) (dst + 1) n

/-! ### One update a field -/

/-- A cursor register holding the number `v`: 32 bits (R31, R36). A number of 33 bits or more leaves the register at its
largest value, since no cursor wraps (R32); the step of C_ADVANCE alone can come to one, and then only tells C_PROBE that
the segment is at its end (R137, R139). DEDUCED, log entry 1. -/
def cursor (v : Nat) : Word := BitVec.ofNat 32 (min v 0xFFFFFFFF)

/-- `d_ip <- v`. -/
def State.setDIp (s : State) (v : Nat) : State := { s with dIp := cursor v }
/-- `d_op <- v`. -/
def State.setDOp (s : State) (v : Nat) : State := { s with dOp := cursor v }
/-- `d_state <- v`. -/
def State.setDState (s : State) (v : DecState) : State := { s with dState := v }
/-- `d_phase <- v`. -/
def State.setDPhase (s : State) (v : DPhase) : State := { s with dPhase := v }
/-- `c_op <- v`. -/
def State.setCOp (s : State) (v : Nat) : State := { s with cOp := cursor v }
/-- `c_phase <- v`. -/
def State.setCPhase (s : State) (v : CPhase) : State := { s with cPhase := v }
/-- System memory becomes `v`. -/
def State.setMem (s : State) (v : List Host.Cell) : State := { s with mem := v }

/-! ### Windows (R61, R261) -/

/-- `InByte(i)` (R13). -/
def inByte (s : State) (i : Nat) : Byte := memRead s.mem (s.inBase.toNat + i)

/-- `OutByte(j)` (R13). -/
def outByte (s : State) (j : Nat) : Byte := memRead s.mem (s.outBase.toNat + j)

/-- `OutWrite(j, v)` (R13). -/
def outWrite (s : State) (j : Nat) (v : Byte) : State := s.setMem (memWrite s.mem (s.outBase.toNat + j) v)

/-- `LE32(i)` (R13, R65). -/
def le32 (s : State) (i : Nat) : Word :=
  BitVec.ofNat 32 ((inByte s i).toNat + 0x100 * (inByte s (i + 1)).toNat +
    0x10000 * (inByte s (i + 2)).toNat + 0x1000000 * (inByte s (i + 3)).toNat)

/-- `placement_ok()` (R261), in exact arithmetic. -/
def placementOk (s : State) : Bool :=
  decide (s.inBase.toNat + s.inLen.toNat ≤ Config.addrSpace) &&
  decide (s.outBase.toNat + s.outCap.toNat ≤ Config.addrSpace) &&
  (decide (s.inLen.toNat = 0) || decide (s.outCap.toNat = 0) ||
    decide (s.inBase.toNat + s.inLen.toNat ≤ s.outBase.toNat) ||
    decide (s.outBase.toNat + s.outCap.toNat ≤ s.inBase.toNat))

/-- Whether `a` lies in the range of `size` addresses from `base` on. -/
def inRange (base size a : Nat) : Bool := decide (base ≤ a) && decide (a < base + size)

/-- Whether a system address lies in the input window (R61). -/
def inInputWindow (s : State) (a : Nat) : Bool := inRange s.inBase.toNat s.inLen.toNat a

/-- Whether a system address lies in the output window (R61). -/
def inOutputWindow (s : State) (a : Nat) : Bool := inRange s.outBase.toNat s.outCap.toNat a

/-- Whether two ranges share an address. -/
def rangesMeet (b1 n1 b2 n2 : Nat) : Bool :=
  decide (n1 ≠ 0) && decide (n2 ≠ 0) && decide (b1 < b2 + n2) && decide (b2 < b1 + n1)

/-- Whether a window lies on addresses whose reads have side effects (R70; log entry 7). A window over the register block's own
addresses is none: DESIGN CHOICE, log entry 21. -/
def windowOnDevice (s : State) : Bool :=
  s.devices.any (fun r => rangesMeet s.inBase.toNat s.inLen.toNat r.base r.size ||
    rangesMeet s.outBase.toNat s.outCap.toNat r.base r.size)

/-- Whether this instance's windows and another job's share a byte, any window of the one with any of the other's (R291). -/
def sharesByte (s : State) (w : Windows) : Bool :=
  rangesMeet s.inBase.toNat s.inLen.toNat w.inBase.toNat w.inLen.toNat ||
    rangesMeet s.inBase.toNat s.inLen.toNat w.outBase.toNat w.outCap.toNat ||
    rangesMeet s.outBase.toNat s.outCap.toNat w.inBase.toNat w.inLen.toNat ||
    rangesMeet s.outBase.toNat s.outCap.toNat w.outBase.toNat w.outCap.toNat

/-- Whether this instance's windows share a byte with those of a job another instance is running (R291). -/
def overlapsOther (s : State) : Bool := s.others.any (sharesByte s)

/-! ### Job end (R252) -/

/-- The bytes of `n` addresses from `a` on become free values, the first of them value `c` (log entry 5). -/
def freeBytes (m : List Host.Cell) (a c : Nat) : Nat → List Host.Cell
  | 0 => m
  | n + 1 => freeBytes (memWrite m a (Config.freeByte c)) (a + 1) (c + 1) n

/-- The output window of a disturbed job (R290, R291) holds free values (I12; log entry 5). -/
def freeOutput (s : State) : State :=
  { s with
    mem := freeBytes s.mem s.outBase.toNat s.freeCount s.outCap.toNat
    freeCount := s.freeCount + s.outCap.toNat }

/-- The result of a disturbed job: every part of it is a free value (R290, R291, I4, I17; log entry 5). -/
def freeResult (s : State) : State :=
  let t := freeOutput s
  { t with
    statusErr := errOfCode (Config.freeErr t.freeCount)
    outLen := Config.freeWord t.freeCount
    inPos := Config.freeWord (t.freeCount + 1)
    hazard := false
    freeCount := t.freeCount + 2 }

/-- `OUT_LEN` and `IN_POS` at the end of a job: on OK the ending rule has written them; ConfigError writes 0; any other
error writes the cursors of the engine that ran (R252, R27, R28). -/
def writeCursors (e : ErrCode) (s : State) : State :=
  match e with
  | .ok => s
  | .configError => { s with outLen := 0#32, inPos := 0#32 }
  | .truncatedInput | .trailingData | .bufferOverflow | .lookbehindOverrun | .lengthMismatch =>
    match s.ctrlMode with
    | .comp => { s with outLen := s.cOp, inPos := s.cPos }
    | .dec => { s with outLen := s.dOp, inPos := s.dIp }

/-- The end of a job with OK or an error, one indivisible step (R252); the result is free where another agent
disturbed the job (R290, R291; log entry 5). -/
def endJob (e : ErrCode) (s : State) : State :=
  let t := writeCursors e s
  let u := { t with
    statusErr := e
    statusBusy := false
    statusDone := true
    cPhase := .idle
    dPhase := .idle }
  if u.hazard then freeResult u else u

/-! ### How an engine rule runs -/

/-- First one part of a rule, then the next; nothing after a `raise` runs (R14). -/
def Flow.andThen (f : Flow) (g : State → Flow) : Flow :=
  match f with
  | .ok s => g s
  | .raise e s => .raise e s
  | .fault r => .fault r

/-- The answer of a step whose rule ends so: an error ends the job (R14, R252). -/
def Flow.answer : Flow → Result
  | .ok s => .next s
  | .raise e s => .next (endJob e s)
  | .fault r => .fault r

/-- An engine rule runs only with its windows placed, which START has checked (R261; log entry 12). -/
def runRule (rule : State → Flow) (s : State) : Result :=
  if placementOk s then (rule s).answer else .fault .windowsNotPlaced

/-! ### The decompressor's input and copy unit (43_copy_unit.md) -/

/-- Consume the `k` bytes of a record's header, byte by byte: a fetch at `IN_LEN` raises TruncatedInput with `d_ip` there
(R230). -/
def fetchBytes (k : Nat) (s : State) : Flow :=
  if s.dIp.toNat + k ≤ s.inLen.toNat then .ok (s.setDIp (s.dIp.toNat + k))
  else .raise .truncatedInput (s.setDIp (max s.dIp.toNat s.inLen.toNat))

/-- `lit_copy(n)` (R232). -/
def litCopy (n : Nat) (s : State) : Flow :=
  if s.outCap.toNat < s.dOp.toNat + n then .raise .bufferOverflow s
  else if s.inLen.toNat < s.dIp.toNat + n then .raise .truncatedInput s
  else .ok (((s.setMem (copyBytes s.mem (s.inBase.toNat + s.dIp.toNat) (s.outBase.toNat + s.dOp.toNat) n)).setDIp
    (s.dIp.toNat + n)).setDOp (s.dOp.toNat + n))

/-- `match_copy(dist, len)` (R235). -/
def matchCopy (dist len : Nat) (s : State) : Flow :=
  if s.dOp.toNat < dist then .raise .lookbehindOverrun s
  else if s.outCap.toNat < s.dOp.toNat + len then .raise .bufferOverflow s
  else .ok ((s.setMem (copyBytes s.mem (s.outBase.toNat + (s.dOp.toNat - dist)) (s.outBase.toNat + s.dOp.toNat) len)).setDOp
    (s.dOp.toNat + len))

/-- `match_tail(dist, len, s)` with `k` trailing literals (R204). -/
def matchTail (dist len k : Nat) (s : State) : Flow :=
  (matchCopy dist len s).andThen fun t =>
    if k = 0 then .ok (t.setDState (stateAfterMatch k))
    else (litCopy k t).andThen fun u => .ok (u.setDState (stateAfterMatch k))

/-- A match record: its header of `h` bytes, then the match tail (R196 to R202). -/
def matchRecord (h len dist k : Nat) (s : State) : Flow :=
  (fetchBytes h s).andThen (matchTail dist len k)

/-- A literal record: its header of `h` bytes, then `n` literal bytes, then the decoder state `d` (R193 to R195). -/
def literalRecord (h n : Nat) (d : DecState) (s : State) : Flow :=
  (fetchBytes h s).andThen fun t => (litCopy n t).andThen fun u => .ok (u.setDState d)

/-! ### The compressor's output (41_encoder.md) -/

/-- `put(v)` (R160). -/
def put (v : Byte) (s : State) : Flow :=
  if s.outCap.toNat ≤ s.cOp.toNat then .raise .bufferOverflow s
  else .ok ((outWrite s s.cOp.toNat v).setCOp (s.cOp.toNat + 1))

/-- `put` of each byte in turn. -/
def putAll : List Byte → State → Flow
  | [], s => .ok s
  | v :: rest, s => (put v s).andThen (putAll rest)

/-- `for k in 0 .. n-1: put(InByte(start + k))` (R162, R170). -/
def putInput (start : Nat) : Nat → State → Flow
  | 0, s => .ok s
  | n + 1, s => (put (inByte s start) s).andThen (putInput (start + 1) n)

end Sys2Proof.Machine
end

