-- ==== Sys2Proof/Machine/EndOfStream.lean ====
section
/-! DEFINITION. The EOF record (42_decoder.md R203). -/

namespace Sys2Proof.Machine

/-- The termination check: TrailingData before LengthMismatch, else OUT_LEN and IN_POS are written and the job ends
OK. D_HALT is passed within the step (R203, R252; log entry 14). -/
def endOfStream (s : State) : Flow :=
  if s.dIp.toNat < s.inLen.toNat then .raise .trailingData s
  else if s.dOp.toNat ≠ s.outCap.toNat then .raise .lengthMismatch s
  else .ok (endJob .ok
    { s with outLen := s.dOp, inPos := s.dIp, dPhase := .halt })

/-- EOF (R203): the header, whose length field, continuation and s-bits are ignored, then the check. -/
def execEof (l3 c k : Nat) (s : State) : Result :=
  runRule (fun t => (fetchBytes (headerLen (.eof l3 c k)) t).andThen endOfStream) s

end Sys2Proof.Machine
end

