-- ==== Sys2Proof/Machine/Literal.lean ====
section
/-! DEFINITION. The literal records (42_decoder.md, section 2). -/

namespace Sys2Proof.Machine

/-- LIT_INIT (R193). -/
def execLitInit (n : Nat) (s : State) : Result :=
  runRule (fun t => (literalRecord 1 n (stateAfterLitInit n) t).andThen fun u => .ok (u.setDPhase .fetch)) s

/-- LIT_SHORT (R194). -/
def execLitShort (n : Nat) (s : State) : Result :=
  runRule (literalRecord 1 n stateAfterLiteralRun) s

/-- LIT_LONG (R195): the header has the continuation of `n - 18`. -/
def execLitLong (n : Nat) (s : State) : Result :=
  runRule (literalRecord (1 + extLen (n - 18)) n stateAfterLiteralRun) s

end Sys2Proof.Machine
end

