-- ==== Sys2Proof/Machine/Match.lean ====
section
/-! DEFINITION. The match records (42_decoder.md, section 3). `k` is the record's count of trailing literals. -/

namespace Sys2Proof.Machine

/-- M1A (R196): length 2. -/
def execM1a (dist k : Nat) (s : State) : Result := runRule (matchRecord 2 2 dist k) s

/-- M1B (R197): length 3. -/
def execM1b (dist k : Nat) (s : State) : Result := runRule (matchRecord 2 3 dist k) s

/-- M2 (R198). -/
def execM2 (len dist k : Nat) (s : State) : Result := runRule (matchRecord 2 len dist k) s

/-- M3 (R199). -/
def execM3 (len dist k : Nat) (s : State) : Result := runRule (matchRecord 3 len dist k) s

/-- M3_LONG (R200): the header has the continuation of `len - 33`. -/
def execM3Long (len dist k : Nat) (s : State) : Result :=
  runRule (matchRecord (3 + extLen (len - Config.m3MaxLen)) len dist k) s

/-- M4 (R201). -/
def execM4 (len dist k : Nat) (s : State) : Result := runRule (matchRecord 3 len dist k) s

/-- M4_LONG (R202): the header has the continuation of `len - 9`. -/
def execM4Long (len dist k : Nat) (s : State) : Result :=
  runRule (matchRecord (3 + extLen (len - Config.m4MaxLen)) len dist k) s

end Sys2Proof.Machine
end

