-- ==== Sys2Proof/Machine/Dispatch.lean ====
section
/-! DEFINITION. One arm for each record kind. -/

namespace Sys2Proof.Machine

def exec (i : Instr) (s : State) : Host.Outcome State Fault Refusal :=
  match i with
  | .litInit n => Sys2Proof.Machine.execLitInit n s
  | .litShort n => Sys2Proof.Machine.execLitShort n s
  | .litLong n => Sys2Proof.Machine.execLitLong n s
  | .m1a dist k => Sys2Proof.Machine.execM1a dist k s
  | .m1b dist k => Sys2Proof.Machine.execM1b dist k s
  | .m2 len dist k => Sys2Proof.Machine.execM2 len dist k s
  | .m3 len dist k => Sys2Proof.Machine.execM3 len dist k s
  | .m3Long len dist k => Sys2Proof.Machine.execM3Long len dist k s
  | .m4 len dist k => Sys2Proof.Machine.execM4 len dist k s
  | .m4Long len dist k => Sys2Proof.Machine.execM4Long len dist k s
  | .eof l3 c k => Sys2Proof.Machine.execEof l3 c k s

end Sys2Proof.Machine
end

