-- ==== Sys2Proof/Machine/Encoder.lean ====
section
/-! DEFINITION. The compressor's bitstream encoder and its last phases (41_encoder.md). The bytes of a record are
listed as the rules compute them, and put one by one. -/

namespace Sys2Proof.Machine

/-- A byte from the low 8 bits of a number. -/
def lowByte (v : Nat) : Byte := BitVec.ofNat 8 v

/-- `emit_ext(x)` for `x >= 1` (R161); each pass of the loop takes 255 off, so `x` passes are never used up. -/
def emitExtLoop : Nat → Nat → List Byte
  | 0, _ => []
  | fuel + 1, x => if 255 < x then 0#8 :: emitExtLoop fuel (x - 255) else [lowByte x]

/-- `emit_ext(x)` (R161). -/
def emitExt (x : Nat) : List Byte := emitExtLoop x x

/-- `emit_m2(len, dist)` (R165). -/
def emitM2 (len dist : Nat) : List Byte :=
  [lowByte (((len - 1) <<< 5) ||| (((dist - 1) &&& 7) <<< 2)), lowByte ((dist - 1) >>> 3)]

/-- `emit_m3(len, dist)` (R166). -/
def emitM3 (len dist : Nat) : List Byte :=
  (if len ≤ Config.m3MaxLen then [lowByte (0x20 ||| (len - 2))] else 0x20#8 :: emitExt (len - Config.m3MaxLen)) ++
    [lowByte (((dist - 1) <<< 2) &&& 0xFF), lowByte ((dist - 1) >>> 6)]

/-- `emit_m4(len, dist)` (R167); the marker is 0x10 as implemented (R168). -/
def emitM4 (len dist : Nat) : List Byte :=
  let d := dist - Config.m4Bias
  let H := (d >>> 11) &&& 8
  (if len ≤ Config.m4MaxLen then [lowByte (0x10 ||| H ||| (len - 2))]
    else lowByte (0x10 ||| H) :: emitExt (len - Config.m4MaxLen)) ++
    [lowByte ((d <<< 2) &&& 0xFF), lowByte ((d >>> 6) &&& 0xFF)]

/-- The classifier's record bytes (R164). -/
def matchBytes (len dist : Nat) : List Byte :=
  if len ≤ Config.m2MaxLen ∧ dist ≤ Config.m2MaxOffset then emitM2 len dist
  else if dist ≤ Config.m3MaxOffset then emitM3 len dist
  else emitM4 len dist

/-- `emit_match(len, dist)` (R164). -/
def emitMatch (len dist : Nat) (s : State) : Flow := putAll (matchBytes len dist) s

/-- `s_patch(t)` (R163). -/
def sPatch (t : Nat) (s : State) : Flow :=
  if 2 ≤ s.cOp.toNat ∧ s.cOp.toNat ≤ s.outCap.toNat then
    .ok (outWrite s (s.cOp.toNat - 2) (outByte s (s.cOp.toNat - 2) ||| lowByte t))
  else .fault .patchOutsideOutput

/-- The tag of a literal run of `t >= 4` bytes, LIT_SHORT or LIT_LONG (R162, R170). -/
def literalTag (t : Nat) : List Byte :=
  if t ≤ 18 then [lowByte (t - 3)] else 0x00#8 :: emitExt (t - 18)

/-- `emit_literals(start, t)` (R162). -/
def emitLiterals (start t : Nat) (s : State) : Flow :=
  if t = 0 then .ok s
  else (if t ≤ 3 then sPatch t s else putAll (literalTag t) s).andThen (putInput start t)

/-- The header of the final literal run of `t` bytes (R170). -/
def finalRunHeader (t : Nat) (s : State) : Flow :=
  if s.cOp.toNat = 0 ∧ t ≤ Config.firstLitMax then put (lowByte (Config.litInitBias + t)) s
  else if t ≤ 3 then sPatch t s
  else putAll (literalTag t) s

/-- C_FLUSH (R170). The run is the last `c_t` input bytes. -/
def phaseFlush (s : State) : Flow :=
  let n := s.cT.toNat + s.cRem.toNat
  let t := { s with cT := cursor n }
  if s.inLen.toNat < n then .fault .readOutsideInput
  else
    (if 0 < n then (finalRunHeader n t).andThen (putInput (s.inLen.toNat - n) n) else .ok t).andThen fun u =>
      .ok (u.setCPhase .finish)

/-- C_END (R171). -/
def phaseEnd (s : State) : Flow :=
  (putAll Config.endMarker s).andThen fun t =>
    .ok (endJob .ok { t with outLen := t.cOp, inPos := t.inLen })

end Sys2Proof.Machine
end

