-- ==== Sys2Proof/Machine/MatchFinder.lean ====
section
/-! DEFINITION. The compressor's phases up to a match (40_match_finder.md). Each phase that reads the input first
checks that the segment lies in the input window, as every job keeps it (R67, R141; log entry 12). -/

namespace Sys2Proof.Machine

/-- The hash of a 32-bit value, in `0 .. 16383` (R135). -/
def hashIndex (v : Word) : Nat := ((Config.hashMult * v) >>> Config.hashShift).toNat

/-- Trailing zero bits of the number `v`, at most `fuel` of them. -/
def trailingZeros : Nat → Nat → Nat
  | 0, _ => 0
  | fuel + 1, v => if v % 2 = 1 then 0 else 1 + trailingZeros fuel (v / 2)

/-- `ctz32(v)` of a nonzero `v` (R12). -/
def ctz32 (v : Word) : Nat := trailingZeros 32 v.toNat

/-- `X(m)`: the difference of the two chunks at distance `m` (R140). -/
def chunkXor (s : State) (m : Nat) : Word := le32 s (s.cIp.toNat + m) ^^^ le32 s (s.cCand.toNat + m)

/-- The loop of R140 over pairs of chunks, from match length `m` with `X(m) = 0` on: the final match length. After the
second chunk of a pair the clamp at `c_ipend` comes before the chunk's own difference. -/
def extendLoop (s : State) : Nat → Nat → Nat
  | 0, m => m
  | fuel + 1, m =>
    if chunkXor s (m + 4) ≠ 0#32 then m + 4 + ctz32 (chunkXor s (m + 4)) / 8
    else if s.cIpend.toNat ≤ s.cIp.toNat + (m + 8) then m + 8
    else if chunkXor s (m + 8) ≠ 0#32 then m + 8 + ctz32 (chunkXor s (m + 8)) / 8
    else extendLoop s fuel (m + 8)

/-- `extend()`: the match length (R140). Each pass of the loop adds 8 and ends the loop at `c_ipend`, so `c_ipend`
passes are never used up. -/
def extend (s : State) : Nat :=
  if chunkXor s Config.minMatch ≠ 0#32 then Config.minMatch + ctz32 (chunkXor s Config.minMatch) / 8
  else extendLoop s s.cIpend.toNat Config.minMatch

/-- The segment lies in the input window, with `c_ipend` 20 bytes before its end (R134). -/
def segmentOk (s : State) : Bool :=
  decide (s.cPos.toNat + s.cLl.toNat ≤ s.inLen.toNat) && decide (s.cIpend.toNat + 20 = s.cPos.toNat + s.cLl.toNat)

/-- Segment set-up (R134), `c_ll` being set. -/
def segmentSetUp (s : State) : State :=
  { s with
    ht := []
    cIpend := cursor (s.cPos.toNat + s.cLl.toNat - 20)
    cIp := cursor (s.cPos.toNat + (if s.cT.toNat < 4 then 4 - s.cT.toNat else 0))
    cIi := s.cPos
    cPhase := .advance }

/-- C_SEG (R132, R133). -/
def phaseSeg (s : State) : Flow :=
  if s.cRem.toNat ≤ 20 then .ok (s.setCPhase .flush)
  else
    let t := { s with cLl := cursor (min s.cRem.toNat Config.segMax) }
    if (t.cT.toNat + t.cLl.toNat) / 32 = 0 then .ok (t.setCPhase .flush) else .ok (segmentSetUp t)

/-- C_ADVANCE (R137): the formula as it stands, which can pass the bounds of R32 and R297 on c_ip (DESIGN CHOICE, log entry
22); a sum of 33 bits leaves c_ip at its largest value (log entry 1). -/
def phaseAdvance (s : State) : Flow :=
  .ok { s with
    cIp := cursor (s.cIp.toNat + 1 + (s.cIp.toNat - s.cIi.toNat) / 2 ^ Config.backoffShift)
    cPhase := .probe }

/-- Segment end (R139). -/
def segmentEnd (s : State) : State :=
  { s with
    cT := cursor ((s.cPos.toNat + s.cLl.toNat) - (s.cIi.toNat - s.cT.toNat))
    cPos := cursor (s.cPos.toNat + s.cLl.toNat)
    cRem := cursor (s.cRem.toNat - s.cLl.toNat)
    cPhase := .seg }

/-- A probe of the 4 bytes at `c_ip` (R136): the entry gives the candidate and then records `c_ip`. -/
def probeAt (s : State) : Flow :=
  let h := hashIndex (le32 s s.cIp.toNat)
  let cand := s.cPos.toNat + (sparseGet s.ht h).toNat
  let t := { s with cCand := cursor cand, ht := sparseSet s.ht h (BitVec.ofNat 16 (s.cIp.toNat - s.cPos.toNat)) }
  if cand < s.cIp.toNat then
    .ok (t.setCPhase (if le32 s cand = le32 s s.cIp.toNat then .matched else .advance))
  else .fault .readOutsideInput

/-- C_PROBE (R136, R139). -/
def phaseProbe (s : State) : Flow :=
  if segmentOk s then
    (if s.cIpend.toNat ≤ s.cIp.toNat then .ok (segmentEnd s) else probeAt s)
  else .fault .readOutsideInput

/-- C_MATCH (R138): flush the pending literals, extend, emit. -/
def phaseMatch (s : State) : Flow :=
  if segmentOk s && decide (s.cCand.toNat < s.cIp.toNat) && decide (s.cIp.toNat < s.cIpend.toNat) &&
      decide (s.cT.toNat ≤ s.cIi.toNat) && decide (s.cIi.toNat ≤ s.cIp.toNat) then
    let start := s.cIi.toNat - s.cT.toNat
    (emitLiterals start (s.cIp.toNat - start) { s with cIi := cursor start, cT := 0#32 }).andThen fun t =>
      let n := extend t
      (emitMatch n (t.cIp.toNat - t.cCand.toNat)
        { t with
          cMlen := cursor n, cMoff := cursor (t.cIp.toNat - t.cCand.toNat)
          cIp := cursor (t.cIp.toNat + n), cIi := cursor (t.cIp.toNat + n) }).andThen fun u =>
          .ok (u.setCPhase .probe)
  else .fault .readOutsideInput

end Sys2Proof.Machine
end

