-- ==== Sys2Proof/Machine/Engine.lean ====
section
/-! DEFINITION. One engine step (60_exceptions.md R264): one phase action of the compressor (R130) or one record of the
decompressor (R191, R192). -/

namespace Sys2Proof.Machine

/-- The `k`-th stream byte from `d_ip` on, `none` at `IN_LEN` (R230). -/
def streamByte (s : State) (k : Nat) : Option Byte :=
  if s.dIp.toNat + k < s.inLen.toNat then some (inByte s (s.dIp.toNat + k)) else none

/-- The record the decoder reads at `d_ip` (R91, R92). -/
def fetchRecord (c : DecodeContext) (s : State) : Decoded :=
  decodeFrom c (streamByte s) (s.inLen.toNat - s.dIp.toNat)

/-- Fetch and execute one record; where the stream ends inside its header, the fetch at `IN_LEN` raises TruncatedInput
(R192, R230). -/
def runRecord (c : DecodeContext) (s : State) : Result :=
  match fetchRecord c s with
  | .ok i _ => exec i s
  | .error _ => (Flow.raise .truncatedInput (s.setDIp (max s.dIp.toNat s.inLen.toNat))).answer

/-- Whether the first byte starts a LIT_INIT (R191). -/
def startsLitInit (s : State) : Bool :=
  match streamByte s 0 with
  | some b => decide (Config.litInitBias < b.toNat)
  | none => false

/-- One step of the decompressor: D_START (R191), D_FETCH (R192). -/
def decompressorStep (s : State) : Result :=
  if placementOk s then
    match s.dPhase with
    | .start => if startsLitInit s then runRecord .start s else .next (s.setDPhase .fetch)
    | .fetch => runRecord (.fetch s.dState) s
    | .idle => .fault .busyEngineIdle
    | .halt => .fault .busyEngineIdle
  else .fault .windowsNotPlaced

/-- The rule of the compressor's current phase (R130). -/
def compressorRule (s : State) : Flow :=
  match s.cPhase with
  | .seg => phaseSeg s
  | .advance => phaseAdvance s
  | .probe => phaseProbe s
  | .matched => phaseMatch s
  | .flush => phaseFlush s
  | .finish => phaseEnd s
  | .idle => .fault .busyEngineIdle

/-- One step of the compressor (R130). -/
def compressorStep (s : State) : Result := runRule compressorRule s

/-- The engine's turn: the active engine takes one step while BUSY is 1 (R264); with no job the core keeps all its
values (R275, R281). -/
def engineStep (s : State) : Result :=
  if s.statusBusy then
    match s.ctrlMode with
    | .comp => compressorStep s
    | .dec => decompressorStep s
  else .next s

end Sys2Proof.Machine
end

