-- ==== Sys2Proof/Machine/HostPort.lean ====
section
/-! DEFINITION. What the world outside the core does to it: register reads and writes (10_state.md R21 to R30), START
(60_exceptions.md R260) and the DONE clear (R262), byte accesses to system memory (20_memory.md R74, R75), the
jobs of other core instances (70_reset_and_hazards.md R291), the reset signal (R280). -/

namespace Sys2Proof.Machine

/-- The start of a compress job (40_match_finder.md R131). -/
def startCompress (s : State) : State :=
  { s with cPos := 0#32, cRem := s.inLen, cT := 0#32, cOp := 0#32, cPhase := .seg }

/-- The start of a decompress job (42_decoder.md R190). -/
def startDecompress (s : State) : State :=
  { s with dIp := 0#32, dOp := 0#32, dState := .s0, dPhase := .start }

/-- START (R260), `mode` and `ie` being the written bits. A job whose windows share a byte with another
instance's is disturbed from its start (R291). -/
def startJob (mode : Mode) (ie : Bool) (s : State) : Result :=
  let t := { s with
    ctrlMode := mode
    ctrlIe := ie
    statusErr := .ok
    statusDone := false
    statusBusy := true
    hazard := false }
  if placementOk t then
    if windowOnDevice t then .refused .windowOnDevice
    else
      match mode with
      | .comp => .next { startCompress t with hazard := overlapsOther t }
      | .dec => .next { startDecompress t with hazard := overlapsOther t }
  else (Flow.raise .configError t).answer

/-- A write of `CTRL` (R21, R30, R260). -/
def writeCtrl (v : Word) (s : State) : Result :=
  if s.statusBusy then .next { s with ctrlIe := v.getLsbD 2 }
  else if v.getLsbD 0 then startJob (modeOfBit (v.getLsbD 1)) (v.getLsbD 2) s
  else .next { s with ctrlMode := modeOfBit (v.getLsbD 1), ctrlIe := v.getLsbD 2 }

/-- A write of `STATUS`: bit 1 clears DONE, unless a job runs (R22, R30, R262). -/
def writeStatus (v : Word) (s : State) : State :=
  if v.getLsbD 1 && !s.statusBusy then { s with statusDone := false } else s

/-- A naturally aligned 32-bit write at an offset of the block (R21 to R30): the argument registers ignore it while a job
runs; OUT_LEN, IN_POS and the unused offsets always do. -/
def writeRegister (offset : Nat) (v : Word) (s : State) : Result :=
  match offset with
  | 0x00 => writeCtrl v s
  | 0x04 => .next (writeStatus v s)
  | 0x08 => .next (if s.statusBusy then s else { s with inBase := v })
  | 0x0C => .next (if s.statusBusy then s else { s with inLen := v })
  | 0x10 => .next (if s.statusBusy then s else { s with outBase := v })
  | 0x14 => .next (if s.statusBusy then s else { s with outCap := v })
  | _ => .next s

/-- The value of the register at an offset of the block; unused offsets read 0 (R21 to R29). -/
def readRegister (offset : Nat) (s : State) : Word :=
  match offset with
  | 0x00 => ctrlWord s
  | 0x04 => statusWord s
  | 0x08 => s.inBase
  | 0x0C => s.inLen
  | 0x10 => s.outBase
  | 0x14 => s.outCap
  | 0x18 => s.outLen
  | 0x1C => s.inPos
  | _ => 0#32

/-- Which host accesses to the block have a meaning: 4 bytes wide, naturally aligned, inside its 64-byte window (R30). -/
def registerAccess (width offset : Nat) (r : Result) : Result :=
  if 0x40 ≤ offset then .refused .outsideRegisterBlock
  else if width = 4 ∧ offset % 4 = 0 then r
  else .refused .registerAccessForm

/-- Which memory accesses of other agents have a meaning: those to ordinary memory (R70; log entry 7). The addresses the platform
gives to the register block are no exception, as the block is a space of its own: DESIGN CHOICE, log entry 21. -/
def memoryAccess (addr : Word) (s : State) (r : Result) : Result :=
  if s.devices.any (fun d => inRange d.base d.size addr.toNat) then .refused .deviceAccess else r

/-- A read of system memory by an agent other than the engine: of the output window of a running job it returns a free
value (R74, R290; log entry 5). -/
def hostMemRead (addr : Word) (s : State) : State :=
  if s.statusBusy && inOutputWindow s addr.toNat then
    { s with hostData := (Config.freeByte s.freeCount).setWidth 32, freeCount := s.freeCount + 1 }
  else { s with hostData := (memRead s.mem addr.toNat).setWidth 32 }

/-- A write of system memory by an agent other than the engine; into a window of a running job it makes the job's result
unspecified (R74, R75, R290; log entry 5). -/
def hostMemWrite (addr : Word) (v : Byte) (s : State) : State :=
  { s with
    mem := memWrite s.mem addr.toNat v
    hazard := s.hazard || (s.statusBusy && (inInputWindow s addr.toNat || inOutputWindow s addr.toNat)) }

/-- Another core instance begins a job with the windows `w`; where they share a byte with those of this instance's running
job, that job is disturbed (R291; log entry 18). -/
def otherStarts (w : Windows) (s : State) : State :=
  { s with others := w :: s.others, hazard := s.hazard || (s.statusBusy && sharesByte s w) }

/-- Another core instance's job with the windows `w` ends (R291). -/
def otherEnds (w : Windows) (s : State) : State := { s with others := s.others.erase w }

/-- The reset signal (R280, R39): every piece of core state takes its reset value, a running job is abandoned without
DONE, system memory stays (after a hazard the output window's bytes are free, log entry 5). -/
def resetCore (s : State) : State :=
  let t := if s.statusBusy && s.hazard then freeOutput s else s
  { State.reset with
    mem := t.mem
    host := t.host
    hostData := t.hostData
    freeCount := t.freeCount
    devices := t.devices
    others := t.others }

/-- One access or event of the world outside (log entry 4). -/
def hostStep (a : HostAction) (s : State) : Result :=
  match a with
  | .engineTurn => engineStep s
  | .regRead width offset => registerAccess width offset (.next { s with hostData := readRegister offset s })
  | .regWrite width offset v => registerAccess width offset (writeRegister offset v s)
  | .memRead addr => memoryAccess addr s (.next (hostMemRead addr s))
  | .memWrite addr v => memoryAccess addr s (.next (hostMemWrite addr v s))
  | .otherStart w => .next (otherStarts w s)
  | .otherEnd w => .next (otherEnds w s)
  | .resetSignal => .next (resetCore s)

/-- One step of the whole: the next access in `host`, or, with none waiting, the engine's turn (R264, R296; log entry 4). -/
def machineStep (s : State) : Result :=
  match s.host with
  | [] => engineStep s
  | a :: rest => hostStep a { s with host := rest }

/-- Bytes written at `a` and on. -/
def memWriteAll (m : List Host.Cell) (a : Nat) : List Byte → List Host.Cell
  | [] => m
  | v :: rest => memWriteAll (memWrite m a v) (a + 1) rest

/-- A decompress job about to fetch its first record from a stream of the given bytes in context `c` (R190, R283; log
entry 10): the stream at IN_BASE, or at address 0 with an empty output window where it would not be placed there. -/
def placeStream (c : DecodeContext) (bytes : List Byte) (s : State) : State :=
  let t := { s with
    ctrlMode := .dec
    statusBusy := true
    statusDone := false
    inLen := BitVec.ofNat 32 bytes.length
    dIp := 0#32
    dPhase := (match c with | .start => .start | .fetch _ => .fetch)
    dState := (match c with | .start => .s0 | .fetch d => d)
    host := [] }
  let u := if placementOk t then t else { t with inBase := 0#32, outBase := 0#32, outCap := 0#32 }
  { u with mem := memWriteAll u.mem u.inBase.toNat bytes }

end Sys2Proof.Machine
end

