-- ==== Sys2Proof/Machine/Step.lean ====
section
/-! DEFINITION. The step of the machine, and how a word of the opcode table comes to be the next thing it runs. -/

namespace Sys2Proof.Machine

/-- One step. -/
def step (s : State) : Host.Outcome State Fault Refusal := machineStep s

/-- `s` with the record of a table word as the stream that the very next step fetches (log entry 10). -/
def State.withFetchWord (s : State) (nbits w : Nat) : State :=
  placeStream (tableContext w) (tableRecord nbits w) s

end Sys2Proof.Machine
end

