-- ==== Sys2Proof/Safety.lean ====
section
/-! DEFINITION. What a safe run is: the state keeps `State.inv`, the conjunction of what the rules say of every state a
run reaches, and then no step stops with a fault. -/

namespace Sys2Proof.Machine

/-- Memory and hash table are in canonical form. -/
def tablesInv (s : State) : Bool := Memory.wf s.mem && HashTable.wf s.ht

/-- BUSY and DONE never hold together (R22); with no job both engines are idle (R39, R252); a hazard is noted for a
running job only (log entry 5). -/
def statusInv (s : State) : Bool :=
  !(s.statusBusy && s.statusDone) &&
  (s.statusBusy || (decide (s.cPhase = .idle) && decide (s.dPhase = .idle))) &&
  (!s.hazard || s.statusBusy)

/-- A running job has its windows placed (R261), and the one engine that MODE names is at work (R272). -/
def jobInv (s : State) : Bool :=
  !s.statusBusy ||
    (placementOk s &&
      match s.ctrlMode with
      | .comp => decide (s.cPhase ≠ .idle) && decide (s.dPhase = .idle)
      | .dec => decide (s.cPhase = .idle) && (decide (s.dPhase = .start) || decide (s.dPhase = .fetch)))

/-- The decompressor's cursors stay in their windows (R36, R230, R233). -/
def decoderInv (s : State) : Bool :=
  !s.statusBusy || decide (s.ctrlMode = .comp) ||
    (decide (s.dIp.toNat ≤ s.inLen.toNat) && decide (s.dOp.toNat ≤ s.outCap.toNat) &&
      (decide (s.dPhase ≠ .start) || (decide (s.dIp.toNat = 0) && decide (s.dOp.toNat = 0))))

/-- Every hash-table entry is an offset of at most `bound` (R136). -/
def entriesUpTo (bound : Nat) (s : State) : Bool := s.ht.all (fun e => decide (e.2.toNat ≤ bound))

/-- What holds while a segment is compressed: it lies in the input (R67), has 21 to `SEG_MAX` bytes (R132, R133), and the
pending run starts at or after input index 0 and at or before the probe position (R138, R139, R141). -/
def segmentInv (s : State) : Bool :=
  segmentOk s && decide (21 ≤ s.cLl.toNat) && decide (s.cLl.toNat ≤ Config.segMax) &&
  decide (s.cLl.toNat ≤ s.cRem.toNat) && decide (s.cT.toNat ≤ s.cPos.toNat) && decide (s.cPos.toNat ≤ s.cIi.toNat) &&
  decide (s.cIi.toNat ≤ s.cIp.toNat) && decide (s.cIi.toNat ≤ s.cIpend.toNat + 11) &&
  (decide (s.cOp.toNat ≠ 0) || decide (s.cIi.toNat = s.cT.toNat))

/-- What holds in each phase of the compressor. `c_ip` is below `c_ipend` wherever a rule reads input through it; the
back-off step into C_PROBE can pass `c_ipend` by at most `(SEG_MAX - 21) >> 5` = 1535 (R137; log entry 22), and then C_PROBE
reads nothing (R139). With nothing written yet, every input byte so far is pending, so no run of fewer than 4 bytes is
flushed before a match is written (R163); the candidate lies before the probe (R136). -/
def phaseInv (s : State) : Bool :=
  match s.cPhase with
  | .idle => true
  | .seg => decide (s.cT.toNat ≤ s.cPos.toNat) && (decide (s.cOp.toNat ≠ 0) || decide (s.cT.toNat = s.cPos.toNat))
  | .flush => decide (s.cT.toNat ≤ s.cPos.toNat) && (decide (s.cOp.toNat ≠ 0) || decide (s.cT.toNat = s.cPos.toNat))
  | .finish => true
  | .advance =>
    segmentInv s && decide (s.cIp.toNat < s.cIpend.toNat) && entriesUpTo (s.cIp.toNat - s.cPos.toNat) s &&
      (decide (s.cOp.toNat ≠ 0) || decide (4 ≤ s.cIp.toNat))
  | .probe =>
    segmentInv s && decide (s.cPos.toNat < s.cIp.toNat) && decide (s.cIp.toNat ≤ s.cIpend.toNat + 1535) &&
      entriesUpTo (s.cIp.toNat - s.cPos.toNat - 1) s &&
      (decide (s.cOp.toNat ≠ 0) || decide (5 ≤ s.cIp.toNat))
  | .matched =>
    segmentInv s && decide (s.cPos.toNat ≤ s.cCand.toNat) && decide (s.cCand.toNat < s.cIp.toNat) &&
      decide (s.cIp.toNat < s.cIpend.toNat) && entriesUpTo (s.cIp.toNat - s.cPos.toNat) s &&
      (decide (s.cOp.toNat ≠ 0) || decide (5 ≤ s.cIp.toNat))

/-- The compressor's cursors (R32, R62) and phases: `c_op` within OUT_CAP and the others, in the phases that read them,
within IN_LEN, but for `c_ip` in C_PROBE; a back-off step can leave it past IN_LEN from there to the next segment's set-up
(log entry 22). -/
def compressorInv (s : State) : Bool :=
  !s.statusBusy || decide (s.ctrlMode = .dec) ||
    (decide (s.cOp.toNat ≤ s.outCap.toNat) && decide (s.cOp.toNat ≠ 1) &&
      decide (s.cPos.toNat + s.cRem.toNat = s.inLen.toNat) && phaseInv s)

/-- What every step keeps. -/
def State.inv (s : State) : Bool :=
  tablesInv s && statusInv s && jobInv s && decoderInv s && compressorInv s

end Sys2Proof.Machine
end

