-- ==== Sys2Proof/Certificates/Slice0/Obligations.lean ====
section
/-! DEFINITION. The statements for the provers, from the numbered rules of spec/. -/

open Sys2Proof Sys2Proof.Machine

namespace Sys2Proof.Statements

/-- A job of mode `m` runs with its windows placed, and no host access waits: the next step is the engine's. -/
abbrev running (m : Mode) (s : State) : Prop :=
  s.host = [] ∧ s.statusBusy = true ∧ s.ctrlMode = m ∧ placementOk s = true

/-- The bytes of the stream from `d_ip` to its end. -/
def streamLeft (s : State) : List Byte :=
  (List.range (s.inLen.toNat - s.dIp.toNat)).map (fun k => inByte s (s.dIp.toNat + k))

/-- `n` bytes of the output window from byte `j` on. -/
def outBytes (s : State) (j n : Nat) : List Byte := (List.range n).map (fun k => outByte s (j + k))

/-- `n` bytes of the input window from byte `i` on. -/
def inBytes (s : State) (i n : Nat) : List Byte := (List.range n).map (fun k => inByte s (i + k))

/-- A literal record with a header of `h` bytes and `n` literals fits the stream and the output window (R230, R232). -/
abbrev literalFits (h n : Nat) (s : State) : Prop :=
  placementOk s = true ∧ s.dIp.toNat + h + n ≤ s.inLen.toNat ∧ s.dOp.toNat + n ≤ s.outCap.toNat

/-- The state after a literal record (R193 to R195), but for `d_state` and `d_phase`. -/
def afterLiteral (h n : Nat) (s : State) : State :=
  { s with
    mem := copyBytes s.mem (s.inBase.toNat + (s.dIp.toNat + h)) (s.outBase.toNat + s.dOp.toNat) n
    dIp := cursor (s.dIp.toNat + h + n)
    dOp := cursor (s.dOp.toNat + n) }

/-- A match record with a header of `h` bytes and `k` trailing literals fits the stream, the output so far and the output
window (R230, R232, R235). -/
abbrev matchFits (h len dist k : Nat) (s : State) : Prop :=
  placementOk s = true ∧ s.dIp.toNat + h + k ≤ s.inLen.toNat ∧ dist ≤ s.dOp.toNat ∧ s.dOp.toNat + len + k ≤ s.outCap.toNat

/-- The state after a match record (R204). -/
def afterMatch (h len dist k : Nat) (s : State) : State :=
  { s with
    mem := copyBytes
      (copyBytes s.mem (s.outBase.toNat + (s.dOp.toNat - dist)) (s.outBase.toNat + s.dOp.toNat) len)
      (s.inBase.toNat + (s.dIp.toNat + h)) (s.outBase.toNat + (s.dOp.toNat + len)) k
    dIp := cursor (s.dIp.toNat + h + k)
    dOp := cursor (s.dOp.toNat + len + k)
    dState := if k = 0 then .s0 else .s1 }

/-- The operands of a match record: length, distance, trailing literals. -/
def matchOperands : Instr → Option (Nat × Nat × Nat)
  | .litInit _ => none
  | .litShort _ => none
  | .litLong _ => none
  | .m1a dist k => some (2, dist, k)
  | .m1b dist k => some (3, dist, k)
  | .m2 len dist k => some (len, dist, k)
  | .m3 len dist k => some (len, dist, k)
  | .m3Long len dist k => some (len, dist, k)
  | .m4 len dist k => some (len, dist, k)
  | .m4Long len dist k => some (len, dist, k)
  | .eof _ _ _ => none

/-- The literal count of a literal record. -/
def literalOperand : Instr → Option Nat
  | .litInit n => some n
  | .litShort n => some n
  | .litLong n => some n
  | .m1a _ _ => none
  | .m1b _ _ => none
  | .m2 _ _ _ => none
  | .m3 _ _ _ => none
  | .m3Long _ _ _ => none
  | .m4 _ _ _ => none
  | .m4Long _ _ _ => none
  | .eof _ _ _ => none

/-- The state after a decompress job ended with error `e` in state `s` (R252, R27, R28). -/
def failed (e : ErrCode) (s : State) : State :=
  { s with
    outLen := s.dOp
    inPos := s.dIp
    statusErr := e
    statusBusy := false
    statusDone := true
    cPhase := .idle
    dPhase := .idle }

/-- Every byte of memory but those from `OUT_BASE + a` up to `OUT_BASE + b` reads as before. -/
def memoryKept (s t : State) (a b : Nat) : Prop :=
  ∀ x, x < s.outBase.toNat + a ∨ s.outBase.toNat + b ≤ x → memRead t.mem x = memRead s.mem x

/-- All but the decoder's cursors and state, and memory, is as in `s`; `d_phase` is `p`. -/
def onlyDecoderMoved (s t : State) (p : DPhase) : Prop :=
  t = { s with mem := t.mem, dIp := t.dIp, dOp := t.dOp, dState := t.dState, dPhase := p }

/-- The job ended: all but what a job end writes (R252), the decoder's cursors and memory is as in `s`. -/
def onlyJobEnded (s t : State) : Prop :=
  t = { s with
    mem := t.mem, dIp := t.dIp, dOp := t.dOp, outLen := t.outLen, inPos := t.inPos, statusErr := t.statusErr
    statusBusy := false, statusDone := true, cPhase := .idle, dPhase := .idle }

/-- The record the classifier's bytes stand for (R164), with `k` trailing literals. -/
def classified (len dist k : Nat) : Instr :=
  if len ≤ 8 ∧ dist ≤ 0x800 then .m2 len dist k
  else if dist ≤ 0x4000 then (if len ≤ 33 then .m3 len dist k else .m3Long len dist k)
  else if len ≤ 9 then .m4 len dist k else .m4Long len dist k

/-- What the host and other agents can tell of a state: everything but the two engines' registers and the hash table. -/
def outsideView (s : State) : State :=
  { State.reset with
    ctrlMode := s.ctrlMode, ctrlIe := s.ctrlIe, statusBusy := s.statusBusy, statusDone := s.statusDone
    statusErr := s.statusErr, inBase := s.inBase, inLen := s.inLen, outBase := s.outBase, outCap := s.outCap
    outLen := s.outLen, inPos := s.inPos, mem := s.mem, host := s.host, hostData := s.hostData, hazard := s.hazard
    freeCount := s.freeCount, devices := s.devices, others := s.others }

/-- The outside view of a step's answer. -/
def outsideAnswer : Host.Outcome State Fault Refusal → Host.Outcome State Fault Refusal
  | .next s => .next (outsideView s)
  | .fault r => .fault r
  | .refused r => .refused r

/-- A step's answer with `rest` waiting for the steps after it. -/
def withWaiting (rest : List HostAction) : Host.Outcome State Fault Refusal → Host.Outcome State Fault Refusal
  | .next s => .next { s with host := rest }
  | .fault r => .fault r
  | .refused r => .refused r

/-- The bytes that a run of `n` pending literals from input byte `start` on adds to the output (R162): the literals, after a
tag where there are 4 or more. -/
def runBytes (s : State) (start n : Nat) : List Byte :=
  if n ≤ 3 then inBytes s start n else literalTag n ++ inBytes s start n

/-- The bytes that the final run of `n` literals adds to the output (R170): as a run within a segment, or as a LIT_INIT. -/
def finalRunBytes (s : State) (n : Nat) : List Byte :=
  if n = 0 then []
  else if s.cOp.toNat = 0 ∧ n ≤ 238 then encode (.litInit n) ++ inBytes s (s.inLen.toNat - n) n
  else runBytes s (s.inLen.toNat - n) n

/-- The state after a compress job ended with BufferOverflow, its registers as in `s` (R160, R252, R257). -/
def overflowed (m : List Host.Cell) (s : State) : State :=
  { s with
    mem := m
    cOp := s.outCap
    outLen := s.outCap
    inPos := s.cPos
    statusErr := .bufferOverflow
    statusBusy := false
    statusDone := true
    cPhase := .idle
    dPhase := .idle }

/-- The output window is full: of `bytes` those that fit follow the old output, after the s-bit patch of `p` literals where
`p` is not 0 (R163); no other byte of memory changed (R253, R257). -/
def windowFilled (p : Nat) (bytes : List Byte) (s t : State) : Prop :=
  outBytes t s.cOp.toNat (s.outCap.toNat - s.cOp.toNat) = bytes.take (s.outCap.toNat - s.cOp.toNat) ∧
  (p = 0 → memoryKept s t s.cOp.toNat s.outCap.toNat) ∧
  (p ≠ 0 → 2 ≤ s.cOp.toNat ∧
    outByte t (s.cOp.toNat - 2) = outByte s (s.cOp.toNat - 2) ||| lowByte p ∧
    outByte t (s.cOp.toNat - 1) = outByte s (s.cOp.toNat - 1) ∧ memoryKept s t (s.cOp.toNat - 2) s.outCap.toNat)

/-- A copy in groups of the sizes listed: each group is read whole, then written, in rising order (R237). -/
def copyGroups (m : List Host.Cell) (src dst : Nat) : List Nat → List Host.Cell
  | [] => m
  | w :: sizes =>
    copyGroups (memWriteAll m dst ((List.range w).map (fun k => memRead m (src + k)))) (src + w) (dst + w) sizes

end Sys2Proof.Statements

open Sys2Proof.Statements

/-! ### Encoding -/

/-- Words of the spec's own examples decode to the records they stand for (95_test_vectors.md P3, P4, P5, 2.4, 2.7). -/
def Obligations.ExampleWordsDecode : Prop :=
  decode .start [0x13#8, 0x41#8, 0x42#8] = .ok (.litInit 2) 1 ∧
  decode (.fetch .s1) [0x05#8, 0x00#8, 0x43#8] = .ok (.m1a 2 1) 2 ∧
  decode (.fetch .s1) [0x8A#8, 0x00#8] = .ok (.m2 5 3 2) 2 ∧
  decode (.fetch .s1) [0x22#8, 0x24#8, 0x00#8] = .ok (.m3 4 10 0) 3 ∧
  decode (.fetch .s0) [0x01#8, 0x57#8] = .ok (.litShort 4) 1 ∧
  decode (.fetch .s0) [0x00#8, 0x01#8] = .ok (.litLong 19) 2 ∧
  decode (.fetch .s4) [0x06#8, 0x00#8] = .ok (.m1b 2050 2) 2 ∧
  decode (.fetch .s0) [0x20#8, 0x00#8, 0x00#8, 0x00#8, 0xB6#8, 0x10#8, 0x00#8] = .ok (.m3Long 980 5 0) 7 ∧
  decode (.fetch .s0) [0x12#8, 0x05#8, 0x00#8] = .ok (.m4 4 16385 1) 3 ∧
  decode (.fetch .s0) [0x10#8, 0x37#8, 0x80#8, 0x06#8] = .ok (.m4Long 64 16800 0) 4 ∧
  decode .start [0x11#8, 0x00#8, 0x00#8] = .ok (.eof 1 0 0) 3

/-- Decoding the encoding of a well-formed record, in any context the record is met in and whatever follows it, gives it
back with its header's length (R94 to R107). -/
def Obligations.DecodeInvertsEncode : Prop :=
  ∀ (i : Instr) (c : DecodeContext) (rest : List Byte), i.wf = true → i.metIn c = true →
    decode c (encode i ++ rest) = .ok i (headerLen i)

/-- What the decoder reads is well formed, is met in its context, and its encoding is exactly the bytes read: no byte
string of a header has two meanings and no bit of it is dropped (R94 to R107). -/
def Obligations.EncodeInvertsDecode : Prop :=
  ∀ (c : DecodeContext) (bytes : List Byte) (i : Instr) (n : Nat), decode c bytes = .ok i n →
    i.wf = true ∧ i.metIn c = true ∧ n = headerLen i ∧ encode i = bytes.take n

/-- No tag is reserved (R108): a byte string the decoder does not read can be continued to one it reads. -/
def Obligations.OnlyShortInputFailsToDecode : Prop :=
  ∀ (c : DecodeContext) (bytes : List Byte) (e : DecodeError), decode c bytes = .error e →
    ∃ (more : List Byte) (i : Instr) (n : Nat), decode c (bytes ++ more) = .ok i n ∧ bytes.length < n

/-- A continuation of `z` zero bytes and a byte `b` of 1 to 255 has the value `255*z + b` (R105): as the run length of
LIT_LONG (R96). -/
def Obligations.ContinuationAddsUp : Prop :=
  ∀ (z : Nat) (b : Byte) (rest : List Byte), b ≠ 0#8 →
    decode (.fetch .s0) (0x00#8 :: (List.replicate z 0x00#8 ++ b :: rest)) =
      .ok (.litLong (18 + (255 * z + b.toNat))) (z + 2)

/-- No length the decoder forms from a stream of fewer than 2^32 bytes reaches 2^41 (R238). -/
def Obligations.LengthsFitAccumulator : Prop :=
  ∀ (c : DecodeContext) (bytes : List Byte) (i : Instr) (n : Nat), bytes.length < 2 ^ 32 → decode c bytes = .ok i n →
    (∀ len dist k, matchOperands i = some (len, dist, k) → len < 2 ^ Config.accWidth) ∧
    (∀ m, literalOperand i = some m → m < 2 ^ Config.accWidth)

/-- The bytes the compressor emits for a match are the encoding of the classified record (R164 to R167 against R100 to
R102), and after the s-bit patch of `k` trailing literals (R163) that of the record with those s-bits; the tag bytes it
emits for a run of 4 or more literals are the encoding of LIT_SHORT or LIT_LONG (R162 against R95, R96, with R161 against
R105). -/
def Obligations.EmittedBytesAreTheirRecords : Prop :=
  (∀ (len dist : Nat), 4 ≤ len → 1 ≤ dist → dist ≤ 0xBFFF →
    matchBytes len dist = encode (classified len dist 0) ∧
    ∀ (k : Nat) (front : List Byte) (st last : Byte), k ≤ 3 → matchBytes len dist = front ++ [st, last] →
      front ++ [st ||| lowByte k, last] = encode (classified len dist k)) ∧
  ∀ t : Nat, 4 ≤ t → literalTag t = encode (if t ≤ 18 then .litShort t else .litLong t)

/-! ### Fetching and running a record -/

/-- Where the bytes at `d_ip` decode to a record, a step of the decompressor is that record's `exec`; `exec` itself moves
`d_ip` past the header (R192); at the start, LIT_INIT alone runs and any other first byte only passes to D_FETCH (R191). An
engine turn between accesses of the outside gives the engine, of either mode, the very step it takes with none waiting, and
leaves the rest waiting (R264, R296; log entry 4). -/
def Obligations.StepRunsTheDecodedRecord : Prop :=
  (∀ (s : State) (rest : List HostAction), s.host = .engineTurn :: rest →
    step s = withWaiting rest (step { s with host := [] })) ∧
  ∀ (s : State), running .dec s →
    (∀ i n, s.dPhase = .fetch → decode (.fetch s.dState) (streamLeft s) = .ok i n → step s = exec i s) ∧
    (∀ m n, s.dPhase = .start → decode .start (streamLeft s) = .ok (.litInit m) n → step s = exec (.litInit m) s) ∧
    (s.dPhase = .start → (∀ m n, decode .start (streamLeft s) ≠ .ok (.litInit m) n) →
      step s = .next { s with dPhase := .fetch })

/-- Where the stream ends inside a record's header, the fetch at IN_LEN raises TruncatedInput and the job ends with IN_POS =
IN_LEN, no byte written (R230, R252, R28). -/
def Obligations.ShortHeaderIsTruncatedInput : Prop :=
  ∀ (s : State) (e : DecodeError), running .dec s → s.hazard = false → s.dPhase = .fetch → s.dIp.toNat ≤ s.inLen.toNat →
    decode (.fetch s.dState) (streamLeft s) = .error e →
    step s = .next (failed .truncatedInput { s with dIp := s.inLen })

/-- LIT_INIT that fits runs: `n` bytes copied, `d_state` S1 for 1 to 3 bytes and S4 for more, `d_phase` D_FETCH (R193). -/
def Obligations.LitInitCompletes : Prop :=
  ∀ (n : Nat) (s : State), literalFits 1 n s →
    exec (.litInit n) s =
      .next { afterLiteral 1 n s with dState := (if n ≤ 3 then .s1 else .s4), dPhase := .fetch }

/-- LIT_SHORT and LIT_LONG that fit run: `n` bytes copied, `d_state` S4 (R194, R195). -/
def Obligations.LiteralRunsComplete : Prop :=
  (∀ (n : Nat) (s : State), literalFits 1 n s →
    exec (.litShort n) s = .next { afterLiteral 1 n s with dState := .s4 }) ∧
  (∀ (n : Nat) (s : State), literalFits (1 + extLen (n - 18)) n s →
    exec (.litLong n) s = .next { afterLiteral (1 + extLen (n - 18)) n s with dState := .s4 })

/-- M1A copies 2 bytes and M1B 3 bytes from `dist` behind, then the trailing literals (R196, R197, R204). -/
def Obligations.ShortMatchesComplete : Prop :=
  (∀ (dist k : Nat) (s : State), matchFits 2 2 dist k s →
    exec (.m1a dist k) s = .next (afterMatch 2 2 dist k s)) ∧
  (∀ (dist k : Nat) (s : State), matchFits 2 3 dist k s →
    exec (.m1b dist k) s = .next (afterMatch 2 3 dist k s))

/-- M2 that fits runs (R198, R204). -/
def Obligations.M2Completes : Prop :=
  ∀ (len dist k : Nat) (s : State), matchFits 2 len dist k s →
    exec (.m2 len dist k) s = .next (afterMatch 2 len dist k s)

/-- M3 and M3_LONG that fit run (R199, R200, R204). -/
def Obligations.M3MatchesComplete : Prop :=
  (∀ (len dist k : Nat) (s : State), matchFits 3 len dist k s →
    exec (.m3 len dist k) s = .next (afterMatch 3 len dist k s)) ∧
  (∀ (len dist k : Nat) (s : State), matchFits (3 + extLen (len - 33)) len dist k s →
    exec (.m3Long len dist k) s = .next (afterMatch (3 + extLen (len - 33)) len dist k s))

/-- M4 and M4_LONG that fit run (R201, R202, R204). -/
def Obligations.M4MatchesComplete : Prop :=
  (∀ (len dist k : Nat) (s : State), matchFits 3 len dist k s →
    exec (.m4 len dist k) s = .next (afterMatch 3 len dist k s)) ∧
  (∀ (len dist k : Nat) (s : State), matchFits (3 + extLen (len - 9)) len dist k s →
    exec (.m4Long len dist k) s = .next (afterMatch (3 + extLen (len - 9)) len dist k s))

/-- EOF at the stream's end with the declared length written ends the job OK, OUT_LEN = OUT_CAP and IN_POS = IN_LEN
(R203, R252). -/
def Obligations.EofCompletes : Prop :=
  ∀ (l3 c k : Nat) (s : State), s.hazard = false → placementOk s = true →
    s.dIp.toNat + headerLen (.eof l3 c k) = s.inLen.toNat → s.dOp.toNat = s.outCap.toNat →
    exec (.eof l3 c k) s = .next
      { s with
        dIp := s.inLen, outLen := s.outCap, inPos := s.inLen, statusErr := .ok, statusBusy := false
        statusDone := true, cPhase := .idle, dPhase := .idle }

/-- EOF's errors: a byte after it is TrailingData, whatever the output; else output short of OUT_CAP is LengthMismatch; a
header cut off by the stream's end is TruncatedInput (R203, R256). -/
def Obligations.EofErrors : Prop :=
  ∀ (l3 c k : Nat) (s : State), s.hazard = false → placementOk s = true → s.ctrlMode = .dec →
    let h := headerLen (.eof l3 c k)
    (s.dIp.toNat + h < s.inLen.toNat →
      exec (.eof l3 c k) s = .next (failed .trailingData { s with dIp := cursor (s.dIp.toNat + h) })) ∧
    (s.dIp.toNat + h = s.inLen.toNat → s.dOp.toNat ≠ s.outCap.toNat →
      exec (.eof l3 c k) s = .next (failed .lengthMismatch { s with dIp := cursor (s.dIp.toNat + h) })) ∧
    (s.inLen.toNat < s.dIp.toNat + h →
      exec (.eof l3 c k) s = .next (failed .truncatedInput { s with dIp := cursor (max s.dIp.toNat s.inLen.toNat) }))

/-- The literal records' errors, in this order: a short header, then BufferOverflow, then TruncatedInput, with no literal
byte copied (R232, R256, R257). -/
def Obligations.LiteralErrors : Prop :=
  ∀ (i : Instr) (n : Nat) (s : State), literalOperand i = some n → s.hazard = false → placementOk s = true →
    s.ctrlMode = .dec →
    (s.inLen.toNat < s.dIp.toNat + headerLen i →
      exec i s = .next (failed .truncatedInput { s with dIp := cursor (max s.dIp.toNat s.inLen.toNat) })) ∧
    (s.dIp.toNat + headerLen i ≤ s.inLen.toNat → s.outCap.toNat < s.dOp.toNat + n →
      exec i s = .next (failed .bufferOverflow { s with dIp := cursor (s.dIp.toNat + headerLen i) })) ∧
    (s.dIp.toNat + headerLen i ≤ s.inLen.toNat → s.dOp.toNat + n ≤ s.outCap.toNat →
      s.inLen.toNat < s.dIp.toNat + headerLen i + n →
      exec i s = .next (failed .truncatedInput { s with dIp := cursor (s.dIp.toNat + headerLen i) }))

/-- The match records' errors before a byte is copied, in this order: a short header, then LookbehindOverrun, then
BufferOverflow (R235, R256, R257). -/
def Obligations.MatchErrors : Prop :=
  ∀ (i : Instr) (len dist k : Nat) (s : State), matchOperands i = some (len, dist, k) → s.hazard = false →
    placementOk s = true → s.ctrlMode = .dec →
    (s.inLen.toNat < s.dIp.toNat + headerLen i →
      exec i s = .next (failed .truncatedInput { s with dIp := cursor (max s.dIp.toNat s.inLen.toNat) })) ∧
    (s.dIp.toNat + headerLen i ≤ s.inLen.toNat → s.dOp.toNat < dist →
      exec i s = .next (failed .lookbehindOverrun { s with dIp := cursor (s.dIp.toNat + headerLen i) })) ∧
    (s.dIp.toNat + headerLen i ≤ s.inLen.toNat → dist ≤ s.dOp.toNat → s.outCap.toNat < s.dOp.toNat + len →
      exec i s = .next (failed .bufferOverflow { s with dIp := cursor (s.dIp.toNat + headerLen i) }))

/-- The errors of a match's trailing literals come after its copy: BufferOverflow, then TruncatedInput, with the match's
bytes written and the literals not (R204, R256, R257). -/
def Obligations.TrailingLiteralErrors : Prop :=
  ∀ (i : Instr) (len dist k : Nat) (s : State), matchOperands i = some (len, dist, k) → s.hazard = false →
    placementOk s = true → s.ctrlMode = .dec → 1 ≤ k → s.dIp.toNat + headerLen i ≤ s.inLen.toNat → dist ≤ s.dOp.toNat →
    s.dOp.toNat + len ≤ s.outCap.toNat →
    let t := { s with
      mem := copyBytes s.mem (s.outBase.toNat + (s.dOp.toNat - dist)) (s.outBase.toNat + s.dOp.toNat) len
      dIp := cursor (s.dIp.toNat + headerLen i)
      dOp := cursor (s.dOp.toNat + len) }
    (s.outCap.toNat < s.dOp.toNat + len + k → exec i s = .next (failed .bufferOverflow t)) ∧
    (s.dOp.toNat + len + k ≤ s.outCap.toNat → s.inLen.toNat < s.dIp.toNat + headerLen i + k →
      exec i s = .next (failed .truncatedInput t))

/-- `lit_copy(n)` (R232): BufferOverflow, then TruncatedInput, before any byte moves; else the next `n` input bytes follow
the output, both cursors advance by `n`, and no other byte of memory changes. -/
def Obligations.LiteralCopyCopiesInput : Prop :=
  ∀ (n : Nat) (s : State), Memory.wf s.mem = true → placementOk s = true → 1 ≤ n →
    (s.outCap.toNat < s.dOp.toNat + n → litCopy n s = .raise .bufferOverflow s) ∧
    (s.dOp.toNat + n ≤ s.outCap.toNat → s.inLen.toNat < s.dIp.toNat + n → litCopy n s = .raise .truncatedInput s) ∧
    (s.dOp.toNat + n ≤ s.outCap.toNat → s.dIp.toNat + n ≤ s.inLen.toNat →
      ∃ t, litCopy n s = .ok t ∧
        t = { s with mem := t.mem, dIp := cursor (s.dIp.toNat + n), dOp := cursor (s.dOp.toNat + n) } ∧
        outBytes t s.dOp.toNat n = inBytes s s.dIp.toNat n ∧ memoryKept s t s.dOp.toNat (s.dOp.toNat + n))

/-- `match_copy(dist, len)` (R235): LookbehindOverrun, then BufferOverflow, before any byte moves; else each of the `len`
new output bytes is the one `dist` before it, as the copy leaves it, and no other byte of memory changes. -/
def Obligations.MatchCopyOverlaps : Prop :=
  ∀ (dist len : Nat) (s : State), Memory.wf s.mem = true → placementOk s = true → 1 ≤ dist → 2 ≤ len →
    (s.dOp.toNat < dist → matchCopy dist len s = .raise .lookbehindOverrun s) ∧
    (dist ≤ s.dOp.toNat → s.outCap.toNat < s.dOp.toNat + len → matchCopy dist len s = .raise .bufferOverflow s) ∧
    (dist ≤ s.dOp.toNat → s.dOp.toNat + len ≤ s.outCap.toNat →
      ∃ t, matchCopy dist len s = .ok t ∧ t = { s with mem := t.mem, dOp := cursor (s.dOp.toNat + len) } ∧
        (∀ k, k < len → outByte t (s.dOp.toNat + k) = outByte t (s.dOp.toNat + k - dist)) ∧
        memoryKept s t s.dOp.toNat (s.dOp.toNat + len))

/-- The closed form of the overlapping copy (R236). -/
def Obligations.MatchCopyIsPeriodic : Prop :=
  ∀ (dist len : Nat) (s t : State), Memory.wf s.mem = true → placementOk s = true → 1 ≤ dist →
    matchCopy dist len s = .ok t →
    ∀ k, k < len → outByte t (s.dOp.toNat + k) = outByte s (s.dOp.toNat - dist + k % dist)

/-- Moving the bytes in `g` groups of `w`, and the `r` bytes left over in a last group, gives the byte-by-byte result
whenever `w <= dist` (R237). -/
def Obligations.GroupCopyEquivalent : Prop :=
  ∀ (w g r dist dst : Nat) (m : List Host.Cell), Memory.wf m = true → w ≤ dist → r ≤ w → dist ≤ dst →
    dst + (g * w + r) ≤ Config.addrSpace →
    ∀ a, memRead (copyGroups m (dst - dist) dst (List.replicate g w ++ [r])) a =
      memRead (copyBytes m (dst - dist) dst (g * w + r)) a

/-- The frame of the literal records: besides memory, `d_ip`, `d_op`, `d_state` (and `d_phase` for LIT_INIT), or what a job
end writes, nothing changes; `d_op` moves up by at most `n`, and no byte changes outside the output bytes from the old to
the new `d_op` (R63, R193 to R195, R252). -/
def Obligations.LiteralFrame : Prop :=
  ∀ (i : Instr) (n : Nat) (s t : State), literalOperand i = some n → s.hazard = false → exec i s = .next t →
    (onlyDecoderMoved s t (if i = .litInit n then .fetch else s.dPhase) ∨ onlyJobEnded s t) ∧
    s.dOp.toNat ≤ t.dOp.toNat ∧ t.dOp.toNat ≤ s.dOp.toNat + n ∧ memoryKept s t s.dOp.toNat t.dOp.toNat

/-- The frame of the match records: besides memory, `d_ip`, `d_op`, `d_state`, or what a job end writes, nothing changes;
`d_op` moves up by at most `len + k`, and no byte changes outside the output bytes from the old to the new `d_op` (R63, R196
to R204, R252). -/
def Obligations.MatchFrame : Prop :=
  ∀ (i : Instr) (len dist k : Nat) (s t : State), matchOperands i = some (len, dist, k) → s.hazard = false →
    exec i s = .next t →
    (onlyDecoderMoved s t s.dPhase ∨ onlyJobEnded s t) ∧
    s.dOp.toNat ≤ t.dOp.toNat ∧ t.dOp.toNat ≤ s.dOp.toNat + len + k ∧ memoryKept s t s.dOp.toNat t.dOp.toNat

/-- The frame of EOF: it only moves `d_ip` and ends the job; memory is untouched (R203, R252). -/
def Obligations.EofFrame : Prop :=
  ∀ (l3 c k : Nat) (s t : State), s.hazard = false → exec (.eof l3 c k) s = .next t →
    onlyJobEnded s t ∧ t.dOp.toNat = s.dOp.toNat ∧ ∀ a, memRead t.mem a = memRead s.mem a

/-! ### Job control and the host's registers -/

/-- The end of a job (R252): STATUS, the phases, and OUT_LEN and IN_POS by error and engine. -/
def Obligations.JobEndWritesStatus : Prop :=
  ∀ (e : ErrCode) (s : State), s.hazard = false →
    let t := endJob e s
    t.statusErr = e ∧ t.statusBusy = false ∧ t.statusDone = true ∧ t.cPhase = .idle ∧ t.dPhase = .idle ∧
    t.mem = s.mem ∧
    (e = .ok → t.outLen = s.outLen ∧ t.inPos = s.inPos) ∧
    (e = .configError → t.outLen = 0#32 ∧ t.inPos = 0#32) ∧
    (e ≠ .ok → e ≠ .configError → s.ctrlMode = .comp →
      t.outLen = s.cOp ∧ t.inPos = s.cPos) ∧
    (e ≠ .ok → e ≠ .configError → s.ctrlMode = .dec →
      t.outLen = s.dOp ∧ t.inPos = s.dIp)

/-- The end of a job whose windows another agent wrote, or shared (R290, R291: its result and end status are unspecified;
the form is the model's, log entry 5): DONE and BUSY as at any job end, ERR, OUT_LEN, IN_POS and the output window free, and
nothing else changed but the model's own fields. -/
def Obligations.DisturbedJobEndStaysInItsWindow : Prop :=
  ∀ (e : ErrCode) (s : State), s.hazard = true →
    let t := endJob e s
    t = { s with
      mem := t.mem, statusErr := t.statusErr, outLen := t.outLen, inPos := t.inPos, statusBusy := false
      statusDone := true, cPhase := .idle, dPhase := .idle, hazard := false
      freeCount := s.freeCount + s.outCap.toNat + 2 } ∧
    memoryKept s t 0 s.outCap.toNat

/-- The placement check holds exactly when every byte of both windows has a 32-bit address and no byte is in both (R61,
R261). -/
def Obligations.PlacementMeansDisjointWindows : Prop :=
  ∀ s : State, placementOk s = true ↔
    (∀ i, i < s.inLen.toNat → s.inBase.toNat + i < 2 ^ 32) ∧
    (∀ j, j < s.outCap.toNat → s.outBase.toNat + j < 2 ^ 32) ∧
    (∀ i j, i < s.inLen.toNat → j < s.outCap.toNat → s.inBase.toNat + i ≠ s.outBase.toNat + j)

/-- A write of CTRL with START while idle, the windows placed on ordinary memory: the job starts, compress as R131 and
decompress as R190 say (R260). That windows on devices are left to a refusal, and the model's own `hazard`, which notes from
the start a window shared with another instance's job (R291), are the model's choices (log entries 7 and 5). -/
def Obligations.StartBeginsJob : Prop :=
  ∀ (s : State) (v : Word) (rest : List HostAction), s.host = .regWrite 4 0 v :: rest → s.statusBusy = false →
    v.getLsbD 0 = true → placementOk s = true → windowOnDevice s = false →
    (v.getLsbD 1 = false → step s = .next
      { s with
        host := rest, ctrlMode := .comp, ctrlIe := v.getLsbD 2, statusErr := .ok, statusDone := false
        statusBusy := true, hazard := overlapsOther s, cPos := 0#32, cRem := s.inLen, cT := 0#32, cOp := 0#32
        cPhase := .seg }) ∧
    (v.getLsbD 1 = true → step s = .next
      { s with
        host := rest, ctrlMode := .dec, ctrlIe := v.getLsbD 2, statusErr := .ok, statusDone := false
        statusBusy := true, hazard := overlapsOther s, dIp := 0#32, dOp := 0#32, dState := .s0, dPhase := .start })

/-- START with windows that fail the placement check ends the job at once with ConfigError, OUT_LEN = IN_POS = 0, and no
memory access (R260, R261, R252). -/
def Obligations.StartRefusesBadWindows : Prop :=
  ∀ (s : State) (v : Word) (rest : List HostAction), s.host = .regWrite 4 0 v :: rest → s.statusBusy = false →
    v.getLsbD 0 = true → placementOk s = false →
    step s = .next
      { s with
        host := rest, ctrlMode := modeOfBit (v.getLsbD 1), ctrlIe := v.getLsbD 2, statusErr := .configError
        statusDone := true, statusBusy := false, hazard := false, outLen := 0#32, inPos := 0#32
        cPhase := .idle, dPhase := .idle }

/-- While a job runs, an aligned 32-bit write at any offset of the block changes nothing but CTRL.IE (R30, R292). -/
def Obligations.BusyIgnoresRegisterWrites : Prop :=
  ∀ (s : State) (offset : Nat) (v : Word) (rest : List HostAction), s.host = .regWrite 4 offset v :: rest →
    s.statusBusy = true → offset < 0x40 → offset % 4 = 0 →
    step s = .next { s with host := rest, ctrlIe := (if offset = 0 then v.getLsbD 2 else s.ctrlIe) }

/-- With no job, a host write of IN_BASE, IN_LEN, OUT_BASE or OUT_CAP sets that register alone, and a read of it then
returns the value; a write at any offset from 0x18 on changes nothing (R23 to R29). -/
def Obligations.ArgumentRegistersHoldWrites : Prop :=
  ∀ (s : State) (offset : Nat) (v : Word) (rest : List HostAction), s.host = .regWrite 4 offset v :: rest →
    s.statusBusy = false →
    (offset = 0x08 → step s = .next { s with host := rest, inBase := v }) ∧
    (offset = 0x0C → step s = .next { s with host := rest, inLen := v }) ∧
    (offset = 0x10 → step s = .next { s with host := rest, outBase := v }) ∧
    (offset = 0x14 → step s = .next { s with host := rest, outCap := v }) ∧
    (offset = 0x08 ∨ offset = 0x0C ∨ offset = 0x10 ∨ offset = 0x14 →
      ∃ t, step s = .next t ∧ readRegister offset t = v) ∧
    (0x18 ≤ offset → offset < 0x40 → offset % 4 = 0 → step s = .next { s with host := rest })

/-- A register read returns the register's value and has no side effect (R30). CTRL and STATUS as read: START reads 0, MODE
bit 1, IE bit 2; BUSY bit 0, DONE bit 1, ERR bits 7:4 with the codes of R251; every reserved bit 0 (R21, R22, R29). The
other registers, OUT_LEN at 0x18 and IN_POS at 0x1C among them, read as they are (R23 to R28), the offsets from 0x20 on as 0
(R29). -/
def Obligations.RegisterReadsReturnTheirFields : Prop :=
  (∀ (s : State) (offset : Nat) (rest : List HostAction), s.host = .regRead 4 offset :: rest → offset < 0x40 →
    offset % 4 = 0 → step s = .next { s with host := rest, hostData := readRegister offset s }) ∧
  (∀ (s : State) (n : Nat),
    (readRegister 0x00 s).getLsbD n =
      ((decide (n = 1) && decide (s.ctrlMode = .dec)) || (decide (n = 2) && s.ctrlIe)) ∧
    (readRegister 0x04 s).getLsbD n =
      ((decide (n = 0) && s.statusBusy) || (decide (n = 1) && s.statusDone) ||
        (decide (4 ≤ n) && decide (n < 8) && s.statusErr.code.testBit (n - 4)))) ∧
  (ErrCode.ok.code = 0 ∧ ErrCode.truncatedInput.code = 1 ∧ ErrCode.trailingData.code = 2 ∧
    ErrCode.bufferOverflow.code = 3 ∧ ErrCode.lookbehindOverrun.code = 4 ∧ ErrCode.lengthMismatch.code = 5 ∧
    ErrCode.configError.code = 6) ∧
  ∀ s : State,
    readRegister 0x08 s = s.inBase ∧ readRegister 0x0C s = s.inLen ∧ readRegister 0x10 s = s.outBase ∧
    readRegister 0x14 s = s.outCap ∧ readRegister 0x18 s = s.outLen ∧ readRegister 0x1C s = s.inPos ∧
    ∀ offset, 0x20 ≤ offset → readRegister offset s = 0#32

/-- irq is high exactly when DONE and IE are 1 (R265); writing 1 to STATUS.DONE while no job runs clears DONE, and with it
irq, and changes nothing else, so ERR, OUT_LEN and IN_POS stay; writing 0 there does nothing (R22, R262). A write of CTRL
with bit 0 = 0 while no job runs sets MODE and IE and nothing else (R21, R260), and with IE = 0 irq is low (R265). -/
def Obligations.DoneIsWriteOneToClear : Prop :=
  (∀ s : State, irq s = true ↔ s.statusDone = true ∧ s.ctrlIe = true) ∧
  (∀ (s : State) (v : Word) (rest : List HostAction), s.host = .regWrite 4 0x04 v :: rest → s.statusBusy = false →
    ∃ t, step s = .next t ∧ t = { s with host := rest, statusDone := (s.statusDone && !v.getLsbD 1) } ∧
      irq t = (s.statusDone && s.ctrlIe && !v.getLsbD 1)) ∧
  ∀ (s : State) (v : Word) (rest : List HostAction), s.host = .regWrite 4 0x00 v :: rest → s.statusBusy = false →
    v.getLsbD 0 = false →
    ∃ t, step s = .next t ∧
      t = { s with
        host := rest, ctrlMode := (if v.getLsbD 1 then .dec else .comp), ctrlIe := v.getLsbD 2 } ∧
      irq t = (s.statusDone && v.getLsbD 2)

/-- A register access of another width or alignment has no meaning and is refused (R30, I3). -/
def Obligations.OddRegisterAccessRefused : Prop :=
  ∀ (s : State) (width offset : Nat) (v : Word) (rest : List HostAction), offset < 0x40 →
    ¬(width = 4 ∧ offset % 4 = 0) →
    (s.host = .regWrite width offset v :: rest → step s = .refused .registerAccessForm) ∧
    (s.host = .regRead width offset :: rest → step s = .refused .registerAccessForm)

/-- A byte access to system memory by another agent (R74, R75): a write sets that byte alone, and notes a hazard when it
falls into a window of a running job (R290; the note is the model's, log entry 5); a read changes no state of the core and
returns the byte, except in the output window of a running job, where R290 lets it return any value. -/
def Obligations.OtherAgentsAccessMemory : Prop :=
  ∀ (s : State) (a : Word) (rest : List HostAction), Memory.wf s.mem = true →
    s.devices.any (fun d => inRange d.base d.size a.toNat) = false →
    (∀ v : Byte, s.host = .memWrite a v :: rest →
      ∃ t, step s = .next t ∧ t = { s with host := rest, mem := t.mem, hazard := t.hazard } ∧
        (∀ x, memRead t.mem x = if x = a.toNat then v else memRead s.mem x) ∧
        (t.hazard = true ↔ s.hazard = true ∨
          (s.statusBusy = true ∧ (inInputWindow s a.toNat = true ∨ inOutputWindow s a.toNat = true)))) ∧
    (s.host = .memRead a :: rest →
      ∃ t, step s = .next t ∧ t = { s with host := rest, hostData := t.hostData, freeCount := t.freeCount } ∧
        (s.statusBusy = false ∨ inOutputWindow s a.toNat = false →
          t.hostData = (memRead s.mem a.toNat).setWidth 32))

/-- A job whose windows share a byte with those of a job that another core instance is running is disturbed, whichever of
the two began first (R291; the note `hazard` is the model's, log entries 5 and 18): nothing else of this instance changes
when another's job begins or ends, and START notes it as well. The windows meet where an address lies in one of each. -/
def Obligations.OverlappingJobsAreDisturbed : Prop :=
  (∀ (s : State) (w : Windows), sharesByte s w = true ↔
    ∃ a, (inInputWindow s a = true ∨ inOutputWindow s a = true) ∧
      (inRange w.inBase.toNat w.inLen.toNat a = true ∨ inRange w.outBase.toNat w.outCap.toNat a = true)) ∧
  (∀ (s : State) (w : Windows) (rest : List HostAction), s.host = .otherStart w :: rest →
    ∃ t, step s = .next t ∧ t = { s with host := rest, others := w :: s.others, hazard := t.hazard } ∧
      (t.hazard = true ↔ s.hazard = true ∨ (s.statusBusy = true ∧ sharesByte s w = true))) ∧
  (∀ (s : State) (w : Windows) (rest : List HostAction), s.host = .otherEnd w :: rest →
    step s = .next { s with host := rest, others := s.others.erase w }) ∧
  ∀ (s : State) (v : Word) (rest : List HostAction), s.host = .regWrite 4 0 v :: rest → s.statusBusy = false →
    v.getLsbD 0 = true → placementOk s = true → windowOnDevice s = false →
    ∃ t, step s = .next t ∧ t.statusBusy = true ∧
      (t.hazard = true ↔ ∃ w, w ∈ s.others ∧ sharesByte s w = true)

/-- With no job and no host access the core keeps every value (R275, R281). -/
def Obligations.IdleCoreKeepsState : Prop :=
  ∀ s : State, s.host = [] → s.statusBusy = false → step s = .next s

/-- After reset every host register reads 0, both engines are idle and irq is low (R39). The reset signal brings that about
also in a running job, disturbed by others or not: no DONE and no irq is produced for it, and system memory is not affected
(R280); only the output window of a job that others disturbed is left open there, the model's choice (log entry 5). -/
def Obligations.ResetSignalAbandonsJob : Prop :=
  ((∀ offset, readRegister offset State.reset = 0#32) ∧ State.reset.cPhase = .idle ∧ State.reset.dPhase = .idle ∧
    irq State.reset = false) ∧
  ∀ (s : State) (rest : List HostAction), s.host = .resetSignal :: rest →
    ∃ t, step s = .next t ∧ (∀ offset, readRegister offset t = 0#32) ∧ t.cPhase = .idle ∧ t.dPhase = .idle ∧
      irq t = false ∧ t.host = rest ∧ (s.hazard = false → t.mem = s.mem) ∧
      memoryKept s t 0 s.outCap.toNat

/-! ### The compressor -/

/-- The hash of R135: the product modulo 2^32, shifted right by 18, an index of the table. -/
def Obligations.HashIsAnIndex : Prop :=
  ∀ v : Word, hashIndex v = 0x1824429D * v.toNat % 2 ^ 32 / 2 ^ 18 ∧ hashIndex v < 2 ^ 14

/-- C_SEG (R132, R133, R134): at most 20 bytes left, or fewer than 32 with the carried literals, pass to C_FLUSH; else the
segment is set up with a cleared hash table. (`cursor` is a register holding a number; no run forms one of 33 bits here, log
entry 1.) -/
def Obligations.SegmentPhase : Prop :=
  ∀ s : State, running .comp s → s.cPhase = .seg →
    (s.cRem.toNat ≤ 20 → step s = .next { s with cPhase := .flush }) ∧
    (20 < s.cRem.toNat → s.cT.toNat + min s.cRem.toNat 49152 < 32 →
      step s = .next { s with cLl := cursor (min s.cRem.toNat 49152), cPhase := .flush }) ∧
    (20 < s.cRem.toNat → 32 ≤ s.cT.toNat + min s.cRem.toNat 49152 →
      ∃ t, step s = .next t ∧ (∀ h, sparseGet t.ht h = 0#16) ∧
        t = { s with
          ht := t.ht, cLl := cursor (min s.cRem.toNat 49152), cIpend := cursor (s.cPos.toNat + min s.cRem.toNat 49152 - 20)
          cIp := cursor (s.cPos.toNat + (if s.cT.toNat < 4 then 4 - s.cT.toNat else 0)), cIi := s.cPos
          cPhase := .advance })

/-- C_ADVANCE (R137): the probe position moves by 1 + (gap >> 5) and the phase is C_PROBE; nothing else changes. Two points
are the model's choice. R137's formula is followed unclamped also where it passes the bounds that R32 and R297 put on c_ip:
past IN_LEN, or at or past c_ipend + 12 (DESIGN CHOICE, log entry 22). And as the register c_ip has 32 bits (R31), a sum of
33 bits leaves it at 2^32 - 1 (log entry 1). -/
def Obligations.AdvancePhase : Prop :=
  ∀ s : State, running .comp s → s.cPhase = .advance →
    ∃ t, step s = .next t ∧ t = { s with cIp := t.cIp, cPhase := .probe } ∧
      t.cIp.toNat = min (s.cIp.toNat + 1 + (s.cIp.toNat - s.cIi.toNat) / 32) (2 ^ 32 - 1)

/-- C_PROBE: at the probe limit the segment ends (R139); below it the entry of the hash gives the candidate and then records
the probe's offset, and equal 4 bytes lead to C_MATCH, others to C_ADVANCE (R136). -/
def Obligations.ProbePhase : Prop :=
  ∀ s : State, running .comp s → s.cPhase = .probe → segmentOk s = true → HashTable.wf s.ht = true →
    let h := hashIndex (le32 s s.cIp.toNat)
    let cand := s.cPos.toNat + (sparseGet s.ht h).toNat
    (s.cIpend.toNat ≤ s.cIp.toNat → step s = .next
      { s with
        cT := cursor ((s.cPos.toNat + s.cLl.toNat) - (s.cIi.toNat - s.cT.toNat))
        cPos := cursor (s.cPos.toNat + s.cLl.toNat), cRem := cursor (s.cRem.toNat - s.cLl.toNat), cPhase := .seg }) ∧
    (s.cIp.toNat < s.cIpend.toNat → cand < s.cIp.toNat →
      ∃ t, step s = .next t ∧
        (∀ a, sparseGet t.ht a = if a = h then BitVec.ofNat 16 (s.cIp.toNat - s.cPos.toNat) else sparseGet s.ht a) ∧
        t = { s with
          ht := t.ht, cCand := cursor cand, cPhase := (if le32 s cand = le32 s s.cIp.toNat then .matched else .advance) })

/-- Match extension (R140, R141): at least 4 bytes, all equal to those at the candidate; it ends at the first differing byte,
unless it ends before at the clamp, which is tested after the second chunk of each pair alone, at 12, 20, 28 ... bytes, and
ends it at the first of these at or past `c_ipend`; so it ends at most 11 bytes past the probe limit, inside the segment. -/
def Obligations.ExtensionFindsEqualBytes : Prop :=
  ∀ s : State,
    (le32 s s.cCand.toNat = le32 s s.cIp.toNat →
      4 ≤ extend s ∧ ∀ k, k < extend s → inByte s (s.cIp.toNat + k) = inByte s (s.cCand.toNat + k)) ∧
    (s.cIp.toNat < s.cIpend.toNat →
      (inByte s (s.cIp.toNat + extend s) ≠ inByte s (s.cCand.toNat + extend s) ∨
        ∃ j, 1 ≤ j ∧ extend s = 4 + 8 * j ∧ s.cIpend.toNat ≤ s.cIp.toNat + extend s) ∧
      (∀ j, 1 ≤ j → 4 + 8 * j < extend s → s.cIp.toNat + (4 + 8 * j) < s.cIpend.toNat) ∧
      s.cIp.toNat + extend s ≤ s.cIpend.toNat + 11)

/-- C_MATCH with no pending literal or 4 and more, and room for what it writes: the run's record and the match's record
follow the output, and the cursors stand at the match's end (R138, R162, R164). -/
def Obligations.MatchPhaseEmitsRecords : Prop :=
  ∀ s : State, running .comp s → s.cPhase = .matched → s.inv = true →
    let start := s.cIi.toNat - s.cT.toNat
    let n := s.cIp.toNat - start
    let len := extend s
    let dist := s.cIp.toNat - s.cCand.toNat
    let bytes := (if n = 0 then [] else literalTag n ++ inBytes s start n) ++ matchBytes len dist
    (n = 0 ∨ 4 ≤ n) → s.cOp.toNat + bytes.length ≤ s.outCap.toNat →
    ∃ t, step s = .next t ∧
      t = { s with
        mem := t.mem, cOp := cursor (s.cOp.toNat + bytes.length), cT := 0#32, cMlen := cursor len, cMoff := cursor dist
        cIp := cursor (s.cIp.toNat + len), cIi := cursor (s.cIp.toNat + len), cPhase := .probe } ∧
      outBytes t s.cOp.toNat bytes.length = bytes ∧ memoryKept s t s.cOp.toNat (s.cOp.toNat + bytes.length)

/-- C_MATCH, and C_FLUSH after a match, with 1 to 3 pending literals and room: their count goes into the s-bits of the
record before, at `c_op - 2`, with no tag byte, and the literals follow (R138, R162, R163, R170); in C_MATCH the match's
record follows them and the cursors stand at the match's end, as without pending literals. -/
def Obligations.PendingLiteralsPatchStateByte : Prop :=
  ∀ s : State, s.inv = true →
    (running .comp s → s.cPhase = .matched →
      let start := s.cIi.toNat - s.cT.toNat
      let n := s.cIp.toNat - start
      let len := extend s
      let dist := s.cIp.toNat - s.cCand.toNat
      let bytes := inBytes s start n ++ matchBytes len dist
      1 ≤ n → n ≤ 3 → s.cOp.toNat + bytes.length ≤ s.outCap.toNat →
      2 ≤ s.cOp.toNat ∧
      ∃ t, step s = .next t ∧
        t = { s with
          mem := t.mem, cOp := cursor (s.cOp.toNat + bytes.length), cT := 0#32, cMlen := cursor len
          cMoff := cursor dist, cIp := cursor (s.cIp.toNat + len), cIi := cursor (s.cIp.toNat + len)
          cPhase := .probe } ∧
        outByte t (s.cOp.toNat - 2) = outByte s (s.cOp.toNat - 2) ||| lowByte n ∧
        outByte t (s.cOp.toNat - 1) = outByte s (s.cOp.toNat - 1) ∧
        outBytes t s.cOp.toNat bytes.length = bytes ∧
        memoryKept s t (s.cOp.toNat - 2) (s.cOp.toNat + bytes.length)) ∧
    (running .comp s → s.cPhase = .flush → s.cOp.toNat ≠ 0 →
      let n := s.cT.toNat + s.cRem.toNat
      1 ≤ n → n ≤ 3 → s.cOp.toNat + n ≤ s.outCap.toNat →
      2 ≤ s.cOp.toNat ∧
      ∃ t, step s = .next t ∧
        t = { s with mem := t.mem, cOp := cursor (s.cOp.toNat + n), cT := cursor n, cPhase := .finish } ∧
        outByte t (s.cOp.toNat - 2) = outByte s (s.cOp.toNat - 2) ||| lowByte n ∧
        outByte t (s.cOp.toNat - 1) = outByte s (s.cOp.toNat - 1) ∧
        outBytes t s.cOp.toNat n = inBytes s (s.inLen.toNat - n) n ∧
        memoryKept s t (s.cOp.toNat - 2) (s.cOp.toNat + n))

/-- C_FLUSH with a LIT_INIT, LIT_SHORT or LIT_LONG tag, or with nothing left, and room: the last `c_t + c_rem` input bytes
become the final run (R170). -/
def Obligations.FlushPhaseEmitsFinalRun : Prop :=
  ∀ s : State, running .comp s → s.cPhase = .flush → s.inv = true →
    let n := s.cT.toNat + s.cRem.toNat
    let tag := if s.cOp.toNat = 0 ∧ n ≤ 238 then encode (.litInit n) else encode (if n ≤ 18 then .litShort n else .litLong n)
    let bytes := if n = 0 then [] else tag ++ inBytes s (s.inLen.toNat - n) n
    (n = 0 ∨ s.cOp.toNat = 0 ∨ 4 ≤ n) → s.cOp.toNat + bytes.length ≤ s.outCap.toNat →
    ∃ t, step s = .next t ∧
      t = { s with mem := t.mem, cOp := cursor (s.cOp.toNat + bytes.length), cT := cursor n, cPhase := .finish } ∧
      outBytes t s.cOp.toNat bytes.length = bytes ∧ memoryKept s t s.cOp.toNat (s.cOp.toNat + bytes.length)

/-- C_END with room: the end marker `11 00 00` follows the output and the job ends OK with OUT_LEN the compressed length and
IN_POS = IN_LEN (R171, R252). -/
def Obligations.EndPhaseWritesMarker : Prop :=
  ∀ s : State, running .comp s → s.cPhase = .finish → s.hazard = false → Memory.wf s.mem = true →
    s.cOp.toNat + 3 ≤ s.outCap.toNat →
    ∃ t, step s = .next t ∧ outBytes t s.cOp.toNat 3 = [0x11#8, 0x00#8, 0x00#8] ∧
      memoryKept s t s.cOp.toNat (s.cOp.toNat + 3) ∧
      t = { s with
        mem := t.mem, cOp := cursor (s.cOp.toNat + 3), outLen := cursor (s.cOp.toNat + 3), inPos := s.inLen, statusErr := .ok
        statusBusy := false, statusDone := true, cPhase := .idle, dPhase := .idle }

/-- `put(v)` (R160): at OUT_CAP it raises BufferOverflow and writes nothing; below it the byte goes to `c_op`. -/
def Obligations.PutChecksCapacity : Prop :=
  ∀ (v : Byte) (s : State), Memory.wf s.mem = true →
    (s.outCap.toNat ≤ s.cOp.toNat → put v s = .raise .bufferOverflow s) ∧
    (s.cOp.toNat < s.outCap.toNat →
      ∃ t, put v s = .ok t ∧ outByte t s.cOp.toNat = v ∧ t = { s with mem := t.mem, cOp := cursor (s.cOp.toNat + 1) } ∧
        memoryKept s t s.cOp.toNat (s.cOp.toNat + 1))

/-- A compress job that ends in a step ends OK, or with BufferOverflow, the output window full: OUT_LEN = OUT_CAP and IN_POS
the segment base (R254, R160, R252, R28). Where C_MATCH, C_FLUSH or C_END has no room for what it writes, the bytes that fit
stand in the window, the s-bit patch of 1 to 3 literals before them; the cursors stand as at the failing check, in C_MATCH
before the extension where the literals do not fit and after it where the match's record does not; and nothing else changed
(R138, R162, R163, R164, R170, R171, R253, R257). -/
def Obligations.CompressorFailsOnlyWhenFull : Prop :=
  (∀ s t : State, running .comp s → s.inv = true → s.hazard = false → step s = .next t → t.statusBusy = false →
    t.statusDone = true ∧
    (t.statusErr = .ok ∨
      (t.statusErr = .bufferOverflow ∧ t.outLen = s.outCap ∧ t.inPos = s.cPos))) ∧
  ∀ s : State, running .comp s → s.inv = true → s.hazard = false →
    (s.cPhase = .matched →
      let start := s.cIi.toNat - s.cT.toNat
      let n := s.cIp.toNat - start
      let len := extend s
      let dist := s.cIp.toNat - s.cCand.toNat
      let run := runBytes s start n
      s.outCap.toNat < s.cOp.toNat + (run ++ matchBytes len dist).length →
      ∃ t, step s = .next t ∧
        t = overflowed t.mem
          (if s.outCap.toNat < s.cOp.toNat + run.length then { s with cIi := cursor start, cT := 0#32 }
            else { s with
              cT := 0#32, cMlen := cursor len, cMoff := cursor dist, cIp := cursor (s.cIp.toNat + len)
              cIi := cursor (s.cIp.toNat + len) }) ∧
        windowFilled (if n ≤ 3 then n else 0) (run ++ matchBytes len dist) s t) ∧
    (s.cPhase = .flush →
      let n := s.cT.toNat + s.cRem.toNat
      s.outCap.toNat < s.cOp.toNat + (finalRunBytes s n).length →
      ∃ t, step s = .next t ∧ t = overflowed t.mem { s with cT := cursor n } ∧
        windowFilled (if s.cOp.toNat ≠ 0 ∧ n ≤ 3 then n else 0) (finalRunBytes s n) s t) ∧
    (s.cPhase = .finish → s.outCap.toNat < s.cOp.toNat + 3 →
      ∃ t, step s = .next t ∧ t = overflowed t.mem s ∧ windowFilled 0 [0x11#8, 0x00#8, 0x00#8] s t)

/-! ### The whole machine -/

/-- The state after reset satisfies the invariant. -/
def Obligations.ResetSatisfiesInvariant : Prop := State.reset.inv = true

/-- Every step, the engines' and the outside's, keeps the invariant: canonical tables, BUSY and DONE exclusive (R22), one
engine at work with its windows placed (R261, R272), `c_op` and `d_op` within OUT_CAP and the other cursors, in the
phases that read them, within IN_LEN and the segment (R36, R62, R67, R136, R141, R230, R233), with one exception: in C_PROBE
`c_ip` can stand past `c_ipend`, by at most 1535, where R137's back-off step put it and no byte is read (log entry 22). -/
def Obligations.EveryStepKeepsInvariant : Prop :=
  ∀ s t : State, s.inv = true → step s = .next t → t.inv = true

/-- From a state with the invariant no step stops with a fault: no access outside the windows, no over-read, no patch
outside the output (R64, R67, R163, R295). -/
def Obligations.NoStepFaults : Prop :=
  ∀ (s : State) (f : Fault), s.inv = true → step s ≠ .fault f

/-- An engine step writes no byte outside the output window, so never the input (R62, R63, R64, R77). -/
def Obligations.EnginesWriteOnlyOutputWindow : Prop :=
  ∀ s t : State, s.inv = true → s.host = [] → step s = .next t →
    ∀ a, inOutputWindow s a = false → memRead t.mem a = memRead s.mem a

/-- The decompressor's cursors never decrease, and output bytes written before stay (R36, R63, R233). -/
def Obligations.DecoderOutputOnlyGrows : Prop :=
  ∀ s t : State, running .dec s → s.inv = true → s.hazard = false → step s = .next t →
    s.dIp.toNat ≤ t.dIp.toNat ∧ s.dOp.toNat ≤ t.dOp.toNat ∧ ∀ j, j < s.dOp.toNat → outByte t j = outByte s j

/-- Every record step consumes an input byte or ends the job, so a decompress job in D_FETCH ends within IN_LEN - d_ip + 1
steps, and one in D_START, whose own step may only pass to D_FETCH (log entry 16), within one step more (R207, R297). -/
def Obligations.DecompressJobEnds : Prop :=
  ∀ s : State, running .dec s → s.inv = true →
    ∃ k t, k ≤ s.inLen.toNat - s.dIp.toNat + 1 + (if s.dPhase = .start then 1 else 0) ∧
      Host.Core.run core k s = .next t ∧ t.statusBusy = false

/-- Every job ends (R297): from any state a run can reach, engine steps alone bring the core to a state with BUSY = 0. -/
def Obligations.EveryJobEnds : Prop :=
  ∀ s : State, s.inv = true → s.host = [] → ∃ k t, Host.Core.run core k s = .next t ∧ t.statusBusy = false

/-- What the outside sees of any run from a state with no job depends on nothing an earlier job or reset left in the
engines' registers or the hash table (R282, R143, R39). -/
def Obligations.JobsDoNotSeeEarlierJobs : Prop :=
  ∀ (s t : State) (k : Nat), s.statusBusy = false → t.statusBusy = false → outsideView s = outsideView t →
    outsideAnswer (Host.Core.run core k s) = outsideAnswer (Host.Core.run core k t)
end

