-- ==== Sys2Proof/Laws/State.lean ====
section
/-! SUPPORT. One lemma for each field and each single-field update of State (Machine/Ops.lean), so that no later proof
unfolds a record update. -/

namespace Sys2Proof.Machine

/-! ### Cursor registers (R31, R36): what is written reads back, up to the largest value -/

@[simp] theorem cursor_toNat (v : Nat) : (cursor v).toNat = min v 0xFFFFFFFF := by
  simp only [cursor, BitVec.toNat_ofNat]
  omega

/-- A number of 32 bits is held exactly. -/
theorem cursor_toNat_of_lt {v : Nat} (h : v < 2 ^ 32) : (cursor v).toNat = v := by
  rw [cursor_toNat]
  omega

@[simp] theorem cursor_of_toNat (x : Word) : cursor x.toNat = x := by
  apply BitVec.eq_of_toNat_eq
  rw [cursor_toNat]
  omega

/-- Holding a number and holding what a register makes of it are the same, also with more added. -/
@[simp] theorem cursor_min_add (v n : Nat) : cursor (min v 0xFFFFFFFF + n) = cursor (v + n) := by
  apply BitVec.eq_of_toNat_eq
  rw [cursor_toNat, cursor_toNat]
  omega

@[simp] theorem cursor_min (v : Nat) : cursor (min v 0xFFFFFFFF) = cursor v := cursor_min_add v 0

/-- What a cursor holds of a number of 32 bits is that number as a word. -/
theorem cursor_eq_ofNat {v : Nat} (h : v < 2 ^ 32) : cursor v = BitVec.ofNat 32 v := by
  apply BitVec.eq_of_toNat_eq
  rw [cursor_toNat, BitVec.toNat_ofNat]
  omega

@[simp] theorem State.setDIp_ctrlMode (s : State) (v : Nat) : (s.setDIp v).ctrlMode = s.ctrlMode := rfl
@[simp] theorem State.setDIp_ctrlIe (s : State) (v : Nat) : (s.setDIp v).ctrlIe = s.ctrlIe := rfl
@[simp] theorem State.setDIp_statusBusy (s : State) (v : Nat) : (s.setDIp v).statusBusy = s.statusBusy := rfl
@[simp] theorem State.setDIp_statusDone (s : State) (v : Nat) : (s.setDIp v).statusDone = s.statusDone := rfl
@[simp] theorem State.setDIp_statusErr (s : State) (v : Nat) : (s.setDIp v).statusErr = s.statusErr := rfl
@[simp] theorem State.setDIp_inBase (s : State) (v : Nat) : (s.setDIp v).inBase = s.inBase := rfl
@[simp] theorem State.setDIp_inLen (s : State) (v : Nat) : (s.setDIp v).inLen = s.inLen := rfl
@[simp] theorem State.setDIp_outBase (s : State) (v : Nat) : (s.setDIp v).outBase = s.outBase := rfl
@[simp] theorem State.setDIp_outCap (s : State) (v : Nat) : (s.setDIp v).outCap = s.outCap := rfl
@[simp] theorem State.setDIp_outLen (s : State) (v : Nat) : (s.setDIp v).outLen = s.outLen := rfl
@[simp] theorem State.setDIp_inPos (s : State) (v : Nat) : (s.setDIp v).inPos = s.inPos := rfl
@[simp] theorem State.setDIp_cPhase (s : State) (v : Nat) : (s.setDIp v).cPhase = s.cPhase := rfl
@[simp] theorem State.setDIp_cPos (s : State) (v : Nat) : (s.setDIp v).cPos = s.cPos := rfl
@[simp] theorem State.setDIp_cRem (s : State) (v : Nat) : (s.setDIp v).cRem = s.cRem := rfl
@[simp] theorem State.setDIp_cLl (s : State) (v : Nat) : (s.setDIp v).cLl = s.cLl := rfl
@[simp] theorem State.setDIp_cT (s : State) (v : Nat) : (s.setDIp v).cT = s.cT := rfl
@[simp] theorem State.setDIp_cIp (s : State) (v : Nat) : (s.setDIp v).cIp = s.cIp := rfl
@[simp] theorem State.setDIp_cIi (s : State) (v : Nat) : (s.setDIp v).cIi = s.cIi := rfl
@[simp] theorem State.setDIp_cIpend (s : State) (v : Nat) : (s.setDIp v).cIpend = s.cIpend := rfl
@[simp] theorem State.setDIp_cOp (s : State) (v : Nat) : (s.setDIp v).cOp = s.cOp := rfl
@[simp] theorem State.setDIp_cCand (s : State) (v : Nat) : (s.setDIp v).cCand = s.cCand := rfl
@[simp] theorem State.setDIp_cMlen (s : State) (v : Nat) : (s.setDIp v).cMlen = s.cMlen := rfl
@[simp] theorem State.setDIp_cMoff (s : State) (v : Nat) : (s.setDIp v).cMoff = s.cMoff := rfl
@[simp] theorem State.setDIp_ht (s : State) (v : Nat) : (s.setDIp v).ht = s.ht := rfl
@[simp] theorem State.setDIp_dPhase (s : State) (v : Nat) : (s.setDIp v).dPhase = s.dPhase := rfl
@[simp] theorem State.setDIp_dIp (s : State) (v : Nat) : (s.setDIp v).dIp = cursor v := rfl
@[simp] theorem State.setDIp_dOp (s : State) (v : Nat) : (s.setDIp v).dOp = s.dOp := rfl
@[simp] theorem State.setDIp_dState (s : State) (v : Nat) : (s.setDIp v).dState = s.dState := rfl
@[simp] theorem State.setDIp_mem (s : State) (v : Nat) : (s.setDIp v).mem = s.mem := rfl
@[simp] theorem State.setDIp_host (s : State) (v : Nat) : (s.setDIp v).host = s.host := rfl
@[simp] theorem State.setDIp_hostData (s : State) (v : Nat) : (s.setDIp v).hostData = s.hostData := rfl
@[simp] theorem State.setDIp_hazard (s : State) (v : Nat) : (s.setDIp v).hazard = s.hazard := rfl
@[simp] theorem State.setDIp_freeCount (s : State) (v : Nat) : (s.setDIp v).freeCount = s.freeCount := rfl
@[simp] theorem State.setDIp_devices (s : State) (v : Nat) : (s.setDIp v).devices = s.devices := rfl
@[simp] theorem State.setDIp_others (s : State) (v : Nat) : (s.setDIp v).others = s.others := rfl

@[simp] theorem State.setDOp_ctrlMode (s : State) (v : Nat) : (s.setDOp v).ctrlMode = s.ctrlMode := rfl
@[simp] theorem State.setDOp_ctrlIe (s : State) (v : Nat) : (s.setDOp v).ctrlIe = s.ctrlIe := rfl
@[simp] theorem State.setDOp_statusBusy (s : State) (v : Nat) : (s.setDOp v).statusBusy = s.statusBusy := rfl
@[simp] theorem State.setDOp_statusDone (s : State) (v : Nat) : (s.setDOp v).statusDone = s.statusDone := rfl
@[simp] theorem State.setDOp_statusErr (s : State) (v : Nat) : (s.setDOp v).statusErr = s.statusErr := rfl
@[simp] theorem State.setDOp_inBase (s : State) (v : Nat) : (s.setDOp v).inBase = s.inBase := rfl
@[simp] theorem State.setDOp_inLen (s : State) (v : Nat) : (s.setDOp v).inLen = s.inLen := rfl
@[simp] theorem State.setDOp_outBase (s : State) (v : Nat) : (s.setDOp v).outBase = s.outBase := rfl
@[simp] theorem State.setDOp_outCap (s : State) (v : Nat) : (s.setDOp v).outCap = s.outCap := rfl
@[simp] theorem State.setDOp_outLen (s : State) (v : Nat) : (s.setDOp v).outLen = s.outLen := rfl
@[simp] theorem State.setDOp_inPos (s : State) (v : Nat) : (s.setDOp v).inPos = s.inPos := rfl
@[simp] theorem State.setDOp_cPhase (s : State) (v : Nat) : (s.setDOp v).cPhase = s.cPhase := rfl
@[simp] theorem State.setDOp_cPos (s : State) (v : Nat) : (s.setDOp v).cPos = s.cPos := rfl
@[simp] theorem State.setDOp_cRem (s : State) (v : Nat) : (s.setDOp v).cRem = s.cRem := rfl
@[simp] theorem State.setDOp_cLl (s : State) (v : Nat) : (s.setDOp v).cLl = s.cLl := rfl
@[simp] theorem State.setDOp_cT (s : State) (v : Nat) : (s.setDOp v).cT = s.cT := rfl
@[simp] theorem State.setDOp_cIp (s : State) (v : Nat) : (s.setDOp v).cIp = s.cIp := rfl
@[simp] theorem State.setDOp_cIi (s : State) (v : Nat) : (s.setDOp v).cIi = s.cIi := rfl
@[simp] theorem State.setDOp_cIpend (s : State) (v : Nat) : (s.setDOp v).cIpend = s.cIpend := rfl
@[simp] theorem State.setDOp_cOp (s : State) (v : Nat) : (s.setDOp v).cOp = s.cOp := rfl
@[simp] theorem State.setDOp_cCand (s : State) (v : Nat) : (s.setDOp v).cCand = s.cCand := rfl
@[simp] theorem State.setDOp_cMlen (s : State) (v : Nat) : (s.setDOp v).cMlen = s.cMlen := rfl
@[simp] theorem State.setDOp_cMoff (s : State) (v : Nat) : (s.setDOp v).cMoff = s.cMoff := rfl
@[simp] theorem State.setDOp_ht (s : State) (v : Nat) : (s.setDOp v).ht = s.ht := rfl
@[simp] theorem State.setDOp_dPhase (s : State) (v : Nat) : (s.setDOp v).dPhase = s.dPhase := rfl
@[simp] theorem State.setDOp_dIp (s : State) (v : Nat) : (s.setDOp v).dIp = s.dIp := rfl
@[simp] theorem State.setDOp_dOp (s : State) (v : Nat) : (s.setDOp v).dOp = cursor v := rfl
@[simp] theorem State.setDOp_dState (s : State) (v : Nat) : (s.setDOp v).dState = s.dState := rfl
@[simp] theorem State.setDOp_mem (s : State) (v : Nat) : (s.setDOp v).mem = s.mem := rfl
@[simp] theorem State.setDOp_host (s : State) (v : Nat) : (s.setDOp v).host = s.host := rfl
@[simp] theorem State.setDOp_hostData (s : State) (v : Nat) : (s.setDOp v).hostData = s.hostData := rfl
@[simp] theorem State.setDOp_hazard (s : State) (v : Nat) : (s.setDOp v).hazard = s.hazard := rfl
@[simp] theorem State.setDOp_freeCount (s : State) (v : Nat) : (s.setDOp v).freeCount = s.freeCount := rfl
@[simp] theorem State.setDOp_devices (s : State) (v : Nat) : (s.setDOp v).devices = s.devices := rfl
@[simp] theorem State.setDOp_others (s : State) (v : Nat) : (s.setDOp v).others = s.others := rfl

@[simp] theorem State.setDState_ctrlMode (s : State) (v : DecState) : (s.setDState v).ctrlMode = s.ctrlMode := rfl
@[simp] theorem State.setDState_ctrlIe (s : State) (v : DecState) : (s.setDState v).ctrlIe = s.ctrlIe := rfl
@[simp] theorem State.setDState_statusBusy (s : State) (v : DecState) : (s.setDState v).statusBusy = s.statusBusy := rfl
@[simp] theorem State.setDState_statusDone (s : State) (v : DecState) : (s.setDState v).statusDone = s.statusDone := rfl
@[simp] theorem State.setDState_statusErr (s : State) (v : DecState) : (s.setDState v).statusErr = s.statusErr := rfl
@[simp] theorem State.setDState_inBase (s : State) (v : DecState) : (s.setDState v).inBase = s.inBase := rfl
@[simp] theorem State.setDState_inLen (s : State) (v : DecState) : (s.setDState v).inLen = s.inLen := rfl
@[simp] theorem State.setDState_outBase (s : State) (v : DecState) : (s.setDState v).outBase = s.outBase := rfl
@[simp] theorem State.setDState_outCap (s : State) (v : DecState) : (s.setDState v).outCap = s.outCap := rfl
@[simp] theorem State.setDState_outLen (s : State) (v : DecState) : (s.setDState v).outLen = s.outLen := rfl
@[simp] theorem State.setDState_inPos (s : State) (v : DecState) : (s.setDState v).inPos = s.inPos := rfl
@[simp] theorem State.setDState_cPhase (s : State) (v : DecState) : (s.setDState v).cPhase = s.cPhase := rfl
@[simp] theorem State.setDState_cPos (s : State) (v : DecState) : (s.setDState v).cPos = s.cPos := rfl
@[simp] theorem State.setDState_cRem (s : State) (v : DecState) : (s.setDState v).cRem = s.cRem := rfl
@[simp] theorem State.setDState_cLl (s : State) (v : DecState) : (s.setDState v).cLl = s.cLl := rfl
@[simp] theorem State.setDState_cT (s : State) (v : DecState) : (s.setDState v).cT = s.cT := rfl
@[simp] theorem State.setDState_cIp (s : State) (v : DecState) : (s.setDState v).cIp = s.cIp := rfl
@[simp] theorem State.setDState_cIi (s : State) (v : DecState) : (s.setDState v).cIi = s.cIi := rfl
@[simp] theorem State.setDState_cIpend (s : State) (v : DecState) : (s.setDState v).cIpend = s.cIpend := rfl
@[simp] theorem State.setDState_cOp (s : State) (v : DecState) : (s.setDState v).cOp = s.cOp := rfl
@[simp] theorem State.setDState_cCand (s : State) (v : DecState) : (s.setDState v).cCand = s.cCand := rfl
@[simp] theorem State.setDState_cMlen (s : State) (v : DecState) : (s.setDState v).cMlen = s.cMlen := rfl
@[simp] theorem State.setDState_cMoff (s : State) (v : DecState) : (s.setDState v).cMoff = s.cMoff := rfl
@[simp] theorem State.setDState_ht (s : State) (v : DecState) : (s.setDState v).ht = s.ht := rfl
@[simp] theorem State.setDState_dPhase (s : State) (v : DecState) : (s.setDState v).dPhase = s.dPhase := rfl
@[simp] theorem State.setDState_dIp (s : State) (v : DecState) : (s.setDState v).dIp = s.dIp := rfl
@[simp] theorem State.setDState_dOp (s : State) (v : DecState) : (s.setDState v).dOp = s.dOp := rfl
@[simp] theorem State.setDState_dState (s : State) (v : DecState) : (s.setDState v).dState = v := rfl
@[simp] theorem State.setDState_mem (s : State) (v : DecState) : (s.setDState v).mem = s.mem := rfl
@[simp] theorem State.setDState_host (s : State) (v : DecState) : (s.setDState v).host = s.host := rfl
@[simp] theorem State.setDState_hostData (s : State) (v : DecState) : (s.setDState v).hostData = s.hostData := rfl
@[simp] theorem State.setDState_hazard (s : State) (v : DecState) : (s.setDState v).hazard = s.hazard := rfl
@[simp] theorem State.setDState_freeCount (s : State) (v : DecState) : (s.setDState v).freeCount = s.freeCount := rfl
@[simp] theorem State.setDState_devices (s : State) (v : DecState) : (s.setDState v).devices = s.devices := rfl
@[simp] theorem State.setDState_others (s : State) (v : DecState) : (s.setDState v).others = s.others := rfl

@[simp] theorem State.setDPhase_ctrlMode (s : State) (v : DPhase) : (s.setDPhase v).ctrlMode = s.ctrlMode := rfl
@[simp] theorem State.setDPhase_ctrlIe (s : State) (v : DPhase) : (s.setDPhase v).ctrlIe = s.ctrlIe := rfl
@[simp] theorem State.setDPhase_statusBusy (s : State) (v : DPhase) : (s.setDPhase v).statusBusy = s.statusBusy := rfl
@[simp] theorem State.setDPhase_statusDone (s : State) (v : DPhase) : (s.setDPhase v).statusDone = s.statusDone := rfl
@[simp] theorem State.setDPhase_statusErr (s : State) (v : DPhase) : (s.setDPhase v).statusErr = s.statusErr := rfl
@[simp] theorem State.setDPhase_inBase (s : State) (v : DPhase) : (s.setDPhase v).inBase = s.inBase := rfl
@[simp] theorem State.setDPhase_inLen (s : State) (v : DPhase) : (s.setDPhase v).inLen = s.inLen := rfl
@[simp] theorem State.setDPhase_outBase (s : State) (v : DPhase) : (s.setDPhase v).outBase = s.outBase := rfl
@[simp] theorem State.setDPhase_outCap (s : State) (v : DPhase) : (s.setDPhase v).outCap = s.outCap := rfl
@[simp] theorem State.setDPhase_outLen (s : State) (v : DPhase) : (s.setDPhase v).outLen = s.outLen := rfl
@[simp] theorem State.setDPhase_inPos (s : State) (v : DPhase) : (s.setDPhase v).inPos = s.inPos := rfl
@[simp] theorem State.setDPhase_cPhase (s : State) (v : DPhase) : (s.setDPhase v).cPhase = s.cPhase := rfl
@[simp] theorem State.setDPhase_cPos (s : State) (v : DPhase) : (s.setDPhase v).cPos = s.cPos := rfl
@[simp] theorem State.setDPhase_cRem (s : State) (v : DPhase) : (s.setDPhase v).cRem = s.cRem := rfl
@[simp] theorem State.setDPhase_cLl (s : State) (v : DPhase) : (s.setDPhase v).cLl = s.cLl := rfl
@[simp] theorem State.setDPhase_cT (s : State) (v : DPhase) : (s.setDPhase v).cT = s.cT := rfl
@[simp] theorem State.setDPhase_cIp (s : State) (v : DPhase) : (s.setDPhase v).cIp = s.cIp := rfl
@[simp] theorem State.setDPhase_cIi (s : State) (v : DPhase) : (s.setDPhase v).cIi = s.cIi := rfl
@[simp] theorem State.setDPhase_cIpend (s : State) (v : DPhase) : (s.setDPhase v).cIpend = s.cIpend := rfl
@[simp] theorem State.setDPhase_cOp (s : State) (v : DPhase) : (s.setDPhase v).cOp = s.cOp := rfl
@[simp] theorem State.setDPhase_cCand (s : State) (v : DPhase) : (s.setDPhase v).cCand = s.cCand := rfl
@[simp] theorem State.setDPhase_cMlen (s : State) (v : DPhase) : (s.setDPhase v).cMlen = s.cMlen := rfl
@[simp] theorem State.setDPhase_cMoff (s : State) (v : DPhase) : (s.setDPhase v).cMoff = s.cMoff := rfl
@[simp] theorem State.setDPhase_ht (s : State) (v : DPhase) : (s.setDPhase v).ht = s.ht := rfl
@[simp] theorem State.setDPhase_dPhase (s : State) (v : DPhase) : (s.setDPhase v).dPhase = v := rfl
@[simp] theorem State.setDPhase_dIp (s : State) (v : DPhase) : (s.setDPhase v).dIp = s.dIp := rfl
@[simp] theorem State.setDPhase_dOp (s : State) (v : DPhase) : (s.setDPhase v).dOp = s.dOp := rfl
@[simp] theorem State.setDPhase_dState (s : State) (v : DPhase) : (s.setDPhase v).dState = s.dState := rfl
@[simp] theorem State.setDPhase_mem (s : State) (v : DPhase) : (s.setDPhase v).mem = s.mem := rfl
@[simp] theorem State.setDPhase_host (s : State) (v : DPhase) : (s.setDPhase v).host = s.host := rfl
@[simp] theorem State.setDPhase_hostData (s : State) (v : DPhase) : (s.setDPhase v).hostData = s.hostData := rfl
@[simp] theorem State.setDPhase_hazard (s : State) (v : DPhase) : (s.setDPhase v).hazard = s.hazard := rfl
@[simp] theorem State.setDPhase_freeCount (s : State) (v : DPhase) : (s.setDPhase v).freeCount = s.freeCount := rfl
@[simp] theorem State.setDPhase_devices (s : State) (v : DPhase) : (s.setDPhase v).devices = s.devices := rfl
@[simp] theorem State.setDPhase_others (s : State) (v : DPhase) : (s.setDPhase v).others = s.others := rfl

@[simp] theorem State.setCOp_ctrlMode (s : State) (v : Nat) : (s.setCOp v).ctrlMode = s.ctrlMode := rfl
@[simp] theorem State.setCOp_ctrlIe (s : State) (v : Nat) : (s.setCOp v).ctrlIe = s.ctrlIe := rfl
@[simp] theorem State.setCOp_statusBusy (s : State) (v : Nat) : (s.setCOp v).statusBusy = s.statusBusy := rfl
@[simp] theorem State.setCOp_statusDone (s : State) (v : Nat) : (s.setCOp v).statusDone = s.statusDone := rfl
@[simp] theorem State.setCOp_statusErr (s : State) (v : Nat) : (s.setCOp v).statusErr = s.statusErr := rfl
@[simp] theorem State.setCOp_inBase (s : State) (v : Nat) : (s.setCOp v).inBase = s.inBase := rfl
@[simp] theorem State.setCOp_inLen (s : State) (v : Nat) : (s.setCOp v).inLen = s.inLen := rfl
@[simp] theorem State.setCOp_outBase (s : State) (v : Nat) : (s.setCOp v).outBase = s.outBase := rfl
@[simp] theorem State.setCOp_outCap (s : State) (v : Nat) : (s.setCOp v).outCap = s.outCap := rfl
@[simp] theorem State.setCOp_outLen (s : State) (v : Nat) : (s.setCOp v).outLen = s.outLen := rfl
@[simp] theorem State.setCOp_inPos (s : State) (v : Nat) : (s.setCOp v).inPos = s.inPos := rfl
@[simp] theorem State.setCOp_cPhase (s : State) (v : Nat) : (s.setCOp v).cPhase = s.cPhase := rfl
@[simp] theorem State.setCOp_cPos (s : State) (v : Nat) : (s.setCOp v).cPos = s.cPos := rfl
@[simp] theorem State.setCOp_cRem (s : State) (v : Nat) : (s.setCOp v).cRem = s.cRem := rfl
@[simp] theorem State.setCOp_cLl (s : State) (v : Nat) : (s.setCOp v).cLl = s.cLl := rfl
@[simp] theorem State.setCOp_cT (s : State) (v : Nat) : (s.setCOp v).cT = s.cT := rfl
@[simp] theorem State.setCOp_cIp (s : State) (v : Nat) : (s.setCOp v).cIp = s.cIp := rfl
@[simp] theorem State.setCOp_cIi (s : State) (v : Nat) : (s.setCOp v).cIi = s.cIi := rfl
@[simp] theorem State.setCOp_cIpend (s : State) (v : Nat) : (s.setCOp v).cIpend = s.cIpend := rfl
@[simp] theorem State.setCOp_cOp (s : State) (v : Nat) : (s.setCOp v).cOp = cursor v := rfl
@[simp] theorem State.setCOp_cCand (s : State) (v : Nat) : (s.setCOp v).cCand = s.cCand := rfl
@[simp] theorem State.setCOp_cMlen (s : State) (v : Nat) : (s.setCOp v).cMlen = s.cMlen := rfl
@[simp] theorem State.setCOp_cMoff (s : State) (v : Nat) : (s.setCOp v).cMoff = s.cMoff := rfl
@[simp] theorem State.setCOp_ht (s : State) (v : Nat) : (s.setCOp v).ht = s.ht := rfl
@[simp] theorem State.setCOp_dPhase (s : State) (v : Nat) : (s.setCOp v).dPhase = s.dPhase := rfl
@[simp] theorem State.setCOp_dIp (s : State) (v : Nat) : (s.setCOp v).dIp = s.dIp := rfl
@[simp] theorem State.setCOp_dOp (s : State) (v : Nat) : (s.setCOp v).dOp = s.dOp := rfl
@[simp] theorem State.setCOp_dState (s : State) (v : Nat) : (s.setCOp v).dState = s.dState := rfl
@[simp] theorem State.setCOp_mem (s : State) (v : Nat) : (s.setCOp v).mem = s.mem := rfl
@[simp] theorem State.setCOp_host (s : State) (v : Nat) : (s.setCOp v).host = s.host := rfl
@[simp] theorem State.setCOp_hostData (s : State) (v : Nat) : (s.setCOp v).hostData = s.hostData := rfl
@[simp] theorem State.setCOp_hazard (s : State) (v : Nat) : (s.setCOp v).hazard = s.hazard := rfl
@[simp] theorem State.setCOp_freeCount (s : State) (v : Nat) : (s.setCOp v).freeCount = s.freeCount := rfl
@[simp] theorem State.setCOp_devices (s : State) (v : Nat) : (s.setCOp v).devices = s.devices := rfl
@[simp] theorem State.setCOp_others (s : State) (v : Nat) : (s.setCOp v).others = s.others := rfl

@[simp] theorem State.setCPhase_ctrlMode (s : State) (v : CPhase) : (s.setCPhase v).ctrlMode = s.ctrlMode := rfl
@[simp] theorem State.setCPhase_ctrlIe (s : State) (v : CPhase) : (s.setCPhase v).ctrlIe = s.ctrlIe := rfl
@[simp] theorem State.setCPhase_statusBusy (s : State) (v : CPhase) : (s.setCPhase v).statusBusy = s.statusBusy := rfl
@[simp] theorem State.setCPhase_statusDone (s : State) (v : CPhase) : (s.setCPhase v).statusDone = s.statusDone := rfl
@[simp] theorem State.setCPhase_statusErr (s : State) (v : CPhase) : (s.setCPhase v).statusErr = s.statusErr := rfl
@[simp] theorem State.setCPhase_inBase (s : State) (v : CPhase) : (s.setCPhase v).inBase = s.inBase := rfl
@[simp] theorem State.setCPhase_inLen (s : State) (v : CPhase) : (s.setCPhase v).inLen = s.inLen := rfl
@[simp] theorem State.setCPhase_outBase (s : State) (v : CPhase) : (s.setCPhase v).outBase = s.outBase := rfl
@[simp] theorem State.setCPhase_outCap (s : State) (v : CPhase) : (s.setCPhase v).outCap = s.outCap := rfl
@[simp] theorem State.setCPhase_outLen (s : State) (v : CPhase) : (s.setCPhase v).outLen = s.outLen := rfl
@[simp] theorem State.setCPhase_inPos (s : State) (v : CPhase) : (s.setCPhase v).inPos = s.inPos := rfl
@[simp] theorem State.setCPhase_cPhase (s : State) (v : CPhase) : (s.setCPhase v).cPhase = v := rfl
@[simp] theorem State.setCPhase_cPos (s : State) (v : CPhase) : (s.setCPhase v).cPos = s.cPos := rfl
@[simp] theorem State.setCPhase_cRem (s : State) (v : CPhase) : (s.setCPhase v).cRem = s.cRem := rfl
@[simp] theorem State.setCPhase_cLl (s : State) (v : CPhase) : (s.setCPhase v).cLl = s.cLl := rfl
@[simp] theorem State.setCPhase_cT (s : State) (v : CPhase) : (s.setCPhase v).cT = s.cT := rfl
@[simp] theorem State.setCPhase_cIp (s : State) (v : CPhase) : (s.setCPhase v).cIp = s.cIp := rfl
@[simp] theorem State.setCPhase_cIi (s : State) (v : CPhase) : (s.setCPhase v).cIi = s.cIi := rfl
@[simp] theorem State.setCPhase_cIpend (s : State) (v : CPhase) : (s.setCPhase v).cIpend = s.cIpend := rfl
@[simp] theorem State.setCPhase_cOp (s : State) (v : CPhase) : (s.setCPhase v).cOp = s.cOp := rfl
@[simp] theorem State.setCPhase_cCand (s : State) (v : CPhase) : (s.setCPhase v).cCand = s.cCand := rfl
@[simp] theorem State.setCPhase_cMlen (s : State) (v : CPhase) : (s.setCPhase v).cMlen = s.cMlen := rfl
@[simp] theorem State.setCPhase_cMoff (s : State) (v : CPhase) : (s.setCPhase v).cMoff = s.cMoff := rfl
@[simp] theorem State.setCPhase_ht (s : State) (v : CPhase) : (s.setCPhase v).ht = s.ht := rfl
@[simp] theorem State.setCPhase_dPhase (s : State) (v : CPhase) : (s.setCPhase v).dPhase = s.dPhase := rfl
@[simp] theorem State.setCPhase_dIp (s : State) (v : CPhase) : (s.setCPhase v).dIp = s.dIp := rfl
@[simp] theorem State.setCPhase_dOp (s : State) (v : CPhase) : (s.setCPhase v).dOp = s.dOp := rfl
@[simp] theorem State.setCPhase_dState (s : State) (v : CPhase) : (s.setCPhase v).dState = s.dState := rfl
@[simp] theorem State.setCPhase_mem (s : State) (v : CPhase) : (s.setCPhase v).mem = s.mem := rfl
@[simp] theorem State.setCPhase_host (s : State) (v : CPhase) : (s.setCPhase v).host = s.host := rfl
@[simp] theorem State.setCPhase_hostData (s : State) (v : CPhase) : (s.setCPhase v).hostData = s.hostData := rfl
@[simp] theorem State.setCPhase_hazard (s : State) (v : CPhase) : (s.setCPhase v).hazard = s.hazard := rfl
@[simp] theorem State.setCPhase_freeCount (s : State) (v : CPhase) : (s.setCPhase v).freeCount = s.freeCount := rfl
@[simp] theorem State.setCPhase_devices (s : State) (v : CPhase) : (s.setCPhase v).devices = s.devices := rfl
@[simp] theorem State.setCPhase_others (s : State) (v : CPhase) : (s.setCPhase v).others = s.others := rfl

@[simp] theorem State.setMem_ctrlMode (s : State) (v : List Host.Cell) : (s.setMem v).ctrlMode = s.ctrlMode := rfl
@[simp] theorem State.setMem_ctrlIe (s : State) (v : List Host.Cell) : (s.setMem v).ctrlIe = s.ctrlIe := rfl
@[simp] theorem State.setMem_statusBusy (s : State) (v : List Host.Cell) : (s.setMem v).statusBusy = s.statusBusy := rfl
@[simp] theorem State.setMem_statusDone (s : State) (v : List Host.Cell) : (s.setMem v).statusDone = s.statusDone := rfl
@[simp] theorem State.setMem_statusErr (s : State) (v : List Host.Cell) : (s.setMem v).statusErr = s.statusErr := rfl
@[simp] theorem State.setMem_inBase (s : State) (v : List Host.Cell) : (s.setMem v).inBase = s.inBase := rfl
@[simp] theorem State.setMem_inLen (s : State) (v : List Host.Cell) : (s.setMem v).inLen = s.inLen := rfl
@[simp] theorem State.setMem_outBase (s : State) (v : List Host.Cell) : (s.setMem v).outBase = s.outBase := rfl
@[simp] theorem State.setMem_outCap (s : State) (v : List Host.Cell) : (s.setMem v).outCap = s.outCap := rfl
@[simp] theorem State.setMem_outLen (s : State) (v : List Host.Cell) : (s.setMem v).outLen = s.outLen := rfl
@[simp] theorem State.setMem_inPos (s : State) (v : List Host.Cell) : (s.setMem v).inPos = s.inPos := rfl
@[simp] theorem State.setMem_cPhase (s : State) (v : List Host.Cell) : (s.setMem v).cPhase = s.cPhase := rfl
@[simp] theorem State.setMem_cPos (s : State) (v : List Host.Cell) : (s.setMem v).cPos = s.cPos := rfl
@[simp] theorem State.setMem_cRem (s : State) (v : List Host.Cell) : (s.setMem v).cRem = s.cRem := rfl
@[simp] theorem State.setMem_cLl (s : State) (v : List Host.Cell) : (s.setMem v).cLl = s.cLl := rfl
@[simp] theorem State.setMem_cT (s : State) (v : List Host.Cell) : (s.setMem v).cT = s.cT := rfl
@[simp] theorem State.setMem_cIp (s : State) (v : List Host.Cell) : (s.setMem v).cIp = s.cIp := rfl
@[simp] theorem State.setMem_cIi (s : State) (v : List Host.Cell) : (s.setMem v).cIi = s.cIi := rfl
@[simp] theorem State.setMem_cIpend (s : State) (v : List Host.Cell) : (s.setMem v).cIpend = s.cIpend := rfl
@[simp] theorem State.setMem_cOp (s : State) (v : List Host.Cell) : (s.setMem v).cOp = s.cOp := rfl
@[simp] theorem State.setMem_cCand (s : State) (v : List Host.Cell) : (s.setMem v).cCand = s.cCand := rfl
@[simp] theorem State.setMem_cMlen (s : State) (v : List Host.Cell) : (s.setMem v).cMlen = s.cMlen := rfl
@[simp] theorem State.setMem_cMoff (s : State) (v : List Host.Cell) : (s.setMem v).cMoff = s.cMoff := rfl
@[simp] theorem State.setMem_ht (s : State) (v : List Host.Cell) : (s.setMem v).ht = s.ht := rfl
@[simp] theorem State.setMem_dPhase (s : State) (v : List Host.Cell) : (s.setMem v).dPhase = s.dPhase := rfl
@[simp] theorem State.setMem_dIp (s : State) (v : List Host.Cell) : (s.setMem v).dIp = s.dIp := rfl
@[simp] theorem State.setMem_dOp (s : State) (v : List Host.Cell) : (s.setMem v).dOp = s.dOp := rfl
@[simp] theorem State.setMem_dState (s : State) (v : List Host.Cell) : (s.setMem v).dState = s.dState := rfl
@[simp] theorem State.setMem_mem (s : State) (v : List Host.Cell) : (s.setMem v).mem = v := rfl
@[simp] theorem State.setMem_host (s : State) (v : List Host.Cell) : (s.setMem v).host = s.host := rfl
@[simp] theorem State.setMem_hostData (s : State) (v : List Host.Cell) : (s.setMem v).hostData = s.hostData := rfl
@[simp] theorem State.setMem_hazard (s : State) (v : List Host.Cell) : (s.setMem v).hazard = s.hazard := rfl
@[simp] theorem State.setMem_freeCount (s : State) (v : List Host.Cell) : (s.setMem v).freeCount = s.freeCount := rfl
@[simp] theorem State.setMem_devices (s : State) (v : List Host.Cell) : (s.setMem v).devices = s.devices := rfl
@[simp] theorem State.setMem_others (s : State) (v : List Host.Cell) : (s.setMem v).others = s.others := rfl

end Sys2Proof.Machine
end

