-- ==== Sys2Proof/Laws/Memory.lean ====
section
/-! SUPPORT. The laws of the sparse tables behind system memory and the hash table, and of the byte-by-byte copy:
read after write, what a write leaves alone, and that every operation keeps the canonical form. -/

namespace Sys2Proof.Machine

variable {w : Nat}

/-- A write leaves every other key alone. -/
theorem sparseGet_set_ne (m : List (Nat × BitVec w)) (k a : Nat) (v : BitVec w) (h : a ≠ k) :
    sparseGet (sparseSet m k v) a = sparseGet m a := by
  induction m with
  | nil =>
    by_cases hv : v = 0#w
    · simp [sparseSet, sparseGet, hv]
    · simp [sparseSet, sparseGet, hv, Ne.symm h]
  | cons e rest ih =>
    obtain ⟨b, x⟩ := e
    simp only [sparseSet]
    split
    · split
      · rfl
      · simp [sparseGet, Ne.symm h]
    · split
      · rename_i hb
        subst hb
        split <;> simp [sparseGet, Ne.symm h]
      · simp only [sparseGet, ih]

/-- In a canonical table no key below the first one has an entry. -/
theorem sparseGet_of_lt_all (m : List (Nat × BitVec w)) (k : Nat)
    (h : m.all (fun e => decide (k < e.1)) = true) : sparseGet m k = 0#w := by
  induction m with
  | nil => rfl
  | cons e rest ih =>
    simp only [List.all_cons, Bool.and_eq_true, decide_eq_true_eq] at h
    have hne : e.1 ≠ k := by omega
    simp [sparseGet, hne, ih h.2]

theorem sparseWf_cons {bound : Nat} {a : Nat} {v : BitVec w} {rest : List (Nat × BitVec w)} :
    sparseWf bound ((a, v) :: rest) = true ↔
      a < bound ∧ v ≠ 0#w ∧ rest.all (fun e => decide (a < e.1)) = true ∧ sparseWf bound rest = true := by
  simp only [sparseWf, Bool.and_eq_true, decide_eq_true_eq, and_assoc]

theorem all_lt_trans {rest : List (Nat × BitVec w)} {k a : Nat} (hk : k < a)
    (h : rest.all (fun e => decide (a < e.1)) = true) : rest.all (fun e => decide (k < e.1)) = true := by
  simp only [List.all_eq_true, decide_eq_true_eq] at h ⊢
  intro e he
  have := h e he
  omega

/-- A read of the key just written gives the value written. -/
theorem sparseGet_set_same {bound : Nat} (m : List (Nat × BitVec w)) (k : Nat) (v : BitVec w)
    (h : sparseWf bound m = true) : sparseGet (sparseSet m k v) k = v := by
  induction m with
  | nil => by_cases hv : v = 0#w <;> simp [sparseSet, sparseGet, hv]
  | cons e rest ih =>
    obtain ⟨b, x⟩ := e
    obtain ⟨-, -, hall, hrest⟩ := sparseWf_cons.1 h
    simp only [sparseSet]
    split
    · rename_i hkb
      split
      · rename_i hv
        have hne : b ≠ k := by omega
        simp [sparseGet, hne, hv, sparseGet_of_lt_all rest k (all_lt_trans hkb hall)]
      · simp [sparseGet]
    · split
      · rename_i hb
        subst hb
        split
        · rename_i hv
          rw [hv, sparseGet_of_lt_all rest b hall]
        · simp [sparseGet]
      · rename_i hb
        simp [sparseGet, hb, ih hrest]

/-- A read after a write, in one equation. -/
theorem sparseGet_set {bound : Nat} (m : List (Nat × BitVec w)) (k a : Nat) (v : BitVec w)
    (h : sparseWf bound m = true) : sparseGet (sparseSet m k v) a = if a = k then v else sparseGet m a := by
  by_cases hk : a = k
  · subst hk
    simp [sparseGet_set_same m a v h]
  · simp [hk, sparseGet_set_ne m k a v hk]

theorem sparseSet_all_lt {m : List (Nat × BitVec w)} {k b : Nat} {v : BitVec w} (hb : b < k)
    (h : m.all (fun e => decide (b < e.1)) = true) :
    (sparseSet m k v).all (fun e => decide (b < e.1)) = true := by
  induction m with
  | nil => by_cases hv : v = 0#w <;> simp [sparseSet, hv, hb]
  | cons e rest ih =>
    obtain ⟨a, x⟩ := e
    simp only [List.all_cons, Bool.and_eq_true, decide_eq_true_eq] at h
    obtain ⟨h1, h2⟩ := h
    simp only [sparseSet]
    split
    · split <;> simp only [List.all_cons, Bool.and_eq_true, decide_eq_true_eq]
      · exact ⟨h1, h2⟩
      · exact ⟨hb, h1, h2⟩
    · split
      · split
        · exact h2
        · simp only [List.all_cons, Bool.and_eq_true, decide_eq_true_eq]
          exact ⟨hb, h2⟩
      · simp only [List.all_cons, Bool.and_eq_true, decide_eq_true_eq]
        exact ⟨h1, ih h2⟩

/-- A write keeps the canonical form. -/
theorem sparseSet_wf {bound : Nat} (m : List (Nat × BitVec w)) (k : Nat) (v : BitVec w) (hk : k < bound)
    (h : sparseWf bound m = true) : sparseWf bound (sparseSet m k v) = true := by
  induction m with
  | nil => by_cases hv : v = 0#w <;> simp [sparseSet, sparseWf, hv, hk]
  | cons e rest ih =>
    obtain ⟨b, x⟩ := e
    have h0 := h
    obtain ⟨h1, h2, hall, hrest⟩ := sparseWf_cons.1 h
    simp only [sparseSet]
    split
    · rename_i hkb
      split
      · exact h0
      · rename_i hv
        refine sparseWf_cons.2 ⟨hk, hv, ?_, h0⟩
        simp only [List.all_cons, Bool.and_eq_true, decide_eq_true_eq]
        exact ⟨hkb, all_lt_trans hkb hall⟩
    · split
      · rename_i hb
        subst hb
        split
        · exact hrest
        · rename_i hv
          exact sparseWf_cons.2 ⟨hk, hv, hall, hrest⟩
      · rename_i hkb hb
        exact sparseWf_cons.2 ⟨h1, h2, sparseSet_all_lt (by omega) hall, ih hrest⟩

/-! ### System memory -/

theorem memRead_memWrite (m : List Host.Cell) (k a : Nat) (v : Byte) (h : Memory.wf m = true) :
    memRead (memWrite m k v) a = if a = k then v else memRead m a :=
  sparseGet_set m k a v h

theorem memRead_memWrite_ne (m : List Host.Cell) (k a : Nat) (v : Byte) (h : a ≠ k) :
    memRead (memWrite m k v) a = memRead m a :=
  sparseGet_set_ne m k a v h

theorem memWrite_wf (m : List Host.Cell) (k : Nat) (v : Byte) (hk : k < Config.addrSpace)
    (h : Memory.wf m = true) : Memory.wf (memWrite m k v) = true :=
  sparseSet_wf m k v hk h

theorem reset_mem_wf : Memory.wf State.reset.mem = true := rfl

/-- A copy of no bytes changes nothing. -/
@[simp] theorem copyBytes_zero (m : List Host.Cell) (src dst : Nat) : copyBytes m src dst 0 = m := rfl

/-- A copy leaves every byte outside its destination alone. -/
theorem memRead_copyBytes_outside (m : List Host.Cell) (src dst n a : Nat) (h : a < dst ∨ dst + n ≤ a) :
    memRead (copyBytes m src dst n) a = memRead m a := by
  induction n generalizing m src dst with
  | zero => rfl
  | succ n ih =>
    rw [copyBytes, ih _ _ _ (by omega), memRead_memWrite_ne _ _ _ _ (by omega)]

/-- A copy inside the address space keeps the canonical form. -/
theorem copyBytes_wf (m : List Host.Cell) (src dst n : Nat) (hd : dst + n ≤ Config.addrSpace)
    (h : Memory.wf m = true) : Memory.wf (copyBytes m src dst n) = true := by
  induction n generalizing m src dst with
  | zero => exact h
  | succ n ih => exact ih _ _ _ (by omega) (memWrite_wf m dst _ (by omega) h)

/-- A copy whose source does not meet its destination copies the bytes as they were. -/
theorem memRead_copyBytes_disjoint (m : List Host.Cell) (src dst n k : Nat) (hk : k < n)
    (hd : src + n ≤ dst ∨ dst + n ≤ src) (h : Memory.wf m = true) (hb : dst + n ≤ Config.addrSpace) :
    memRead (copyBytes m src dst n) (dst + k) = memRead m (src + k) := by
  induction n generalizing m src dst k with
  | zero => omega
  | succ n ih =>
    rw [copyBytes]
    have hw := memWrite_wf m dst (memRead m src) (by omega) h
    match k with
    | 0 =>
      rw [memRead_copyBytes_outside _ _ _ _ _ (by omega), memRead_memWrite _ _ _ _ h]
      simp
    | k + 1 =>
      have := ih (memWrite m dst (memRead m src)) (src + 1) (dst + 1) k (by omega) (by omega) hw (by omega)
      rw [show dst + (k + 1) = dst + 1 + k by omega, this, memRead_memWrite_ne _ _ _ _ (by omega)]
      congr 1
      omega

/-- A forward copy onto bytes above its source: each byte is the one `dst - src` below it, as the copy leaves it. -/
theorem memRead_copyBytes_forward (m : List Host.Cell) (src dst n k : Nat) (hk : k < n) (hd : src < dst)
    (h : Memory.wf m = true) (hb : dst + n ≤ Config.addrSpace) :
    memRead (copyBytes m src dst n) (dst + k) = memRead (copyBytes m src dst n) (src + k) := by
  induction n generalizing m src dst k with
  | zero => omega
  | succ n ih =>
    rw [copyBytes]
    have hw := memWrite_wf m dst (memRead m src) (by omega) h
    match k with
    | 0 =>
      show memRead (copyBytes _ (src + 1) (dst + 1) n) dst = memRead (copyBytes _ (src + 1) (dst + 1) n) src
      rw [memRead_copyBytes_outside _ _ _ _ dst (by omega), memRead_copyBytes_outside _ _ _ _ src (by omega),
        memRead_memWrite _ _ _ _ h, memRead_memWrite_ne _ _ _ _ (by omega)]
      simp
    | k + 1 =>
      have := ih (memWrite m dst (memRead m src)) (src + 1) (dst + 1) k (by omega) (by omega) hw (by omega)
      rw [show dst + (k + 1) = dst + 1 + k by omega, show src + (k + 1) = src + 1 + k by omega]
      exact this

end Sys2Proof.Machine
end

