-- ==== Sys2Proof/Laws/Ops.lean ====
section
/-! SUPPORT. What each shared operation of Machine/Ops.lean can do, said once. -/

namespace Sys2Proof.Machine

@[simp] theorem Flow.andThen_ok (s : State) (g : State → Flow) : (Flow.ok s).andThen g = g s := rfl
@[simp] theorem Flow.andThen_raise (e : ErrCode) (s : State) (g : State → Flow) :
    (Flow.raise e s).andThen g = .raise e s := rfl
@[simp] theorem Flow.andThen_fault (r : Fault) (g : State → Flow) : (Flow.fault r).andThen g = .fault r := rfl
@[simp] theorem Flow.answer_ok (s : State) : (Flow.ok s).answer = .next s := rfl
@[simp] theorem Flow.answer_raise (e : ErrCode) (s : State) : (Flow.raise e s).answer = .next (endJob e s) := rfl
@[simp] theorem Flow.answer_fault (r : Fault) : (Flow.fault r).answer = .fault r := rfl

theorem Flow.andThen_assoc (f : Flow) (g h : State → Flow) :
    (f.andThen g).andThen h = f.andThen (fun s => (g s).andThen h) := by
  cases f <;> rfl

/-- A rule whose windows are placed is just its flow's answer. -/
theorem runRule_placed (rule : State → Flow) (s : State) (h : placementOk s = true) :
    runRule rule s = (rule s).answer := by
  simp [runRule, h]

/-- Only a placed rule answers a next state. -/
theorem runRule_next {rule : State → Flow} {s t : State} (h : runRule rule s = .next t) :
    placementOk s = true ∧ (rule s).answer = .next t := by
  unfold runRule at h
  split at h
  · exact ⟨‹_›, h⟩
  · cases h

/-- A flow that answers a next state went through, or raised an error that ended the job. -/
theorem Flow.answer_next {f : Flow} {t : State} (h : f.answer = .next t) :
    f = .ok t ∨ ∃ e u, f = .raise e u ∧ t = endJob e u := by
  cases f with
  | ok s => left; simpa [Flow.answer] using h
  | raise e u => right; exact ⟨e, u, rfl, by simpa [Flow.answer] using h.symm⟩
  | fault r => cases h

/-! ### The decompressor's operations -/

theorem fetchBytes_ok {k : Nat} {s : State} (h : s.dIp.toNat + k ≤ s.inLen.toNat) :
    fetchBytes k s = .ok (s.setDIp (s.dIp.toNat + k)) := by
  simp [fetchBytes, h]

theorem fetchBytes_short {k : Nat} {s : State} (h : s.inLen.toNat < s.dIp.toNat + k) :
    fetchBytes k s = .raise .truncatedInput (s.setDIp (max s.dIp.toNat s.inLen.toNat)) := by
  simp [fetchBytes, Nat.not_le.2 h]

theorem litCopy_ok {n : Nat} {s : State} (ho : s.dOp.toNat + n ≤ s.outCap.toNat) (hi : s.dIp.toNat + n ≤ s.inLen.toNat) :
    litCopy n s = .ok (((s.setMem (copyBytes s.mem (s.inBase.toNat + s.dIp.toNat) (s.outBase.toNat + s.dOp.toNat) n)).setDIp
      (s.dIp.toNat + n)).setDOp (s.dOp.toNat + n)) := by
  simp [litCopy, Nat.not_lt.2 ho, Nat.not_lt.2 hi]

theorem litCopy_overflow {n : Nat} {s : State} (h : s.outCap.toNat < s.dOp.toNat + n) :
    litCopy n s = .raise .bufferOverflow s := by
  simp [litCopy, h]

theorem litCopy_truncated {n : Nat} {s : State} (ho : s.dOp.toNat + n ≤ s.outCap.toNat)
    (hi : s.inLen.toNat < s.dIp.toNat + n) : litCopy n s = .raise .truncatedInput s := by
  simp [litCopy, Nat.not_lt.2 ho, hi]

theorem matchCopy_ok {dist len : Nat} {s : State} (hd : dist ≤ s.dOp.toNat) (ho : s.dOp.toNat + len ≤ s.outCap.toNat) :
    matchCopy dist len s = .ok ((s.setMem (copyBytes s.mem (s.outBase.toNat + (s.dOp.toNat - dist))
      (s.outBase.toNat + s.dOp.toNat) len)).setDOp (s.dOp.toNat + len)) := by
  simp [matchCopy, Nat.not_lt.2 ho, Nat.not_lt.2 hd]

theorem matchCopy_lookbehind {dist len : Nat} {s : State} (hd : s.dOp.toNat < dist) :
    matchCopy dist len s = .raise .lookbehindOverrun s := by
  simp [matchCopy, hd]

theorem matchCopy_overflow {dist len : Nat} {s : State} (hd : dist ≤ s.dOp.toNat) (ho : s.outCap.toNat < s.dOp.toNat + len) :
    matchCopy dist len s = .raise .bufferOverflow s := by
  simp [matchCopy, ho, Nat.not_lt.2 hd]

/-- `fetchBytes` in one disjunction. -/
theorem fetchBytes_cases (k : Nat) (s : State) :
    (s.inLen.toNat < s.dIp.toNat + k ∧ fetchBytes k s = .raise .truncatedInput (s.setDIp (max s.dIp.toNat s.inLen.toNat))) ∨
    (s.dIp.toNat + k ≤ s.inLen.toNat ∧ fetchBytes k s = .ok (s.setDIp (s.dIp.toNat + k))) := by
  rcases Nat.lt_or_ge s.inLen.toNat (s.dIp.toNat + k) with h | h
  · exact .inl ⟨h, fetchBytes_short h⟩
  · exact .inr ⟨h, fetchBytes_ok h⟩

/-- `litCopy` in one disjunction: it raises in the state it was given, or copies within both windows. -/
theorem litCopy_cases (n : Nat) (s : State) :
    (∃ e, litCopy n s = .raise e s ∧ e ≠ .ok ∧ e ≠ .configError) ∨
    (s.dOp.toNat + n ≤ s.outCap.toNat ∧ s.dIp.toNat + n ≤ s.inLen.toNat ∧
      litCopy n s = .ok (((s.setMem (copyBytes s.mem (s.inBase.toNat + s.dIp.toNat) (s.outBase.toNat + s.dOp.toNat) n)).setDIp
        (s.dIp.toNat + n)).setDOp (s.dOp.toNat + n))) := by
  rcases Nat.lt_or_ge s.outCap.toNat (s.dOp.toNat + n) with h | h
  · exact .inl ⟨_, litCopy_overflow h, by decide, by decide⟩
  · rcases Nat.lt_or_ge s.inLen.toNat (s.dIp.toNat + n) with h' | h'
    · exact .inl ⟨_, litCopy_truncated h h', by decide, by decide⟩
    · exact .inr ⟨h, h', litCopy_ok h h'⟩

/-- `matchCopy` in one disjunction: it raises in the state it was given, or copies within the output window. -/
theorem matchCopy_cases (dist len : Nat) (s : State) :
    (∃ e, matchCopy dist len s = .raise e s ∧ e ≠ .ok ∧ e ≠ .configError) ∨
    (dist ≤ s.dOp.toNat ∧ s.dOp.toNat + len ≤ s.outCap.toNat ∧
      matchCopy dist len s = .ok ((s.setMem (copyBytes s.mem (s.outBase.toNat + (s.dOp.toNat - dist))
        (s.outBase.toNat + s.dOp.toNat) len)).setDOp (s.dOp.toNat + len))) := by
  rcases Nat.lt_or_ge s.dOp.toNat dist with h | h
  · exact .inl ⟨_, matchCopy_lookbehind h, by decide, by decide⟩
  · rcases Nat.lt_or_ge s.outCap.toNat (s.dOp.toNat + len) with h' | h'
    · exact .inl ⟨_, matchCopy_overflow h h', by decide, by decide⟩
    · exact .inr ⟨h, h', matchCopy_ok h h'⟩

/-! ### The end of a job -/

/-- The end of a job writes no more than OUT_LEN and IN_POS of its cursors. -/
theorem writeCursors_eq (e : ErrCode) (s : State) :
    writeCursors e s = { s with outLen := (writeCursors e s).outLen, inPos := (writeCursors e s).inPos } := by
  cases e <;> cases hm : s.ctrlMode <;> ext <;> simp only [writeCursors, hm]


/-- The end of a job that no other agent disturbed. -/
theorem endJob_quiet (e : ErrCode) (s : State) (h : s.hazard = false) :
    endJob e s = { writeCursors e s with
      statusErr := e, statusBusy := false, statusDone := true, cPhase := .idle, dPhase := .idle } := by
  have hw : (writeCursors e s).hazard = false := by
    unfold writeCursors
    split
    · exact h
    · exact h
    · split <;> exact h
    all_goals (split <;> exact h)
  simp [endJob, hw]

/-- Writing free bytes leaves every other byte alone. -/
theorem memRead_freeBytes_outside (m : List Host.Cell) (a c n x : Nat) (h : x < a ∨ a + n ≤ x) :
    memRead (freeBytes m a c n) x = memRead m x := by
  induction n generalizing m a c with
  | zero => rfl
  | succ n ih => rw [freeBytes, ih _ _ _ (by omega), memRead_memWrite_ne _ _ _ _ (by omega)]

/-- Writing free bytes inside the address space keeps the canonical form. -/
theorem freeBytes_wf (m : List Host.Cell) (a c n : Nat) (hb : a + n ≤ Config.addrSpace)
    (h : Memory.wf m = true) : Memory.wf (freeBytes m a c n) = true := by
  induction n generalizing m a c with
  | zero => exact h
  | succ n ih => exact ih _ _ _ (by omega) (memWrite_wf m a _ (by omega) h)

/-! ### The compressor's output primitive -/

theorem put_ok {v : Byte} {s : State} (h : s.cOp.toNat < s.outCap.toNat) :
    put v s = .ok ((outWrite s s.cOp.toNat v).setCOp (s.cOp.toNat + 1)) := by
  simp [put, Nat.not_le.2 h]

theorem put_full {v : Byte} {s : State} (h : s.outCap.toNat ≤ s.cOp.toNat) : put v s = .raise .bufferOverflow s := by
  simp [put, h]

/-- A placed window's last byte lies in the address space. -/
theorem placementOk_out {s : State} (h : placementOk s = true) :
    s.outBase.toNat + s.outCap.toNat ≤ Config.addrSpace := by
  simp only [placementOk, Bool.and_eq_true, decide_eq_true_eq] at h
  exact h.1.2

theorem placementOk_in {s : State} (h : placementOk s = true) :
    s.inBase.toNat + s.inLen.toNat ≤ Config.addrSpace := by
  simp only [placementOk, Bool.and_eq_true, decide_eq_true_eq] at h
  exact h.1.1

/-- An input byte and an output byte of placed windows have different addresses. -/
theorem placementOk_disjoint {s : State} (h : placementOk s = true) {i j : Nat} (hi : i < s.inLen.toNat)
    (hj : j < s.outCap.toNat) : s.inBase.toNat + i ≠ s.outBase.toNat + j := by
  simp only [placementOk, Bool.and_eq_true, Bool.or_eq_true, decide_eq_true_eq] at h
  omega

/-- Two ranges meet where an address lies in both. -/
theorem rangesMeet_iff (b1 n1 b2 n2 : Nat) :
    rangesMeet b1 n1 b2 n2 = true ↔ ∃ a, inRange b1 n1 a = true ∧ inRange b2 n2 a = true := by
  simp only [rangesMeet, inRange, Bool.and_eq_true, decide_eq_true_eq]
  constructor
  · rintro ⟨⟨⟨h1, h2⟩, h3⟩, h4⟩
    exact ⟨max b1 b2, by omega, by omega⟩
  · rintro ⟨a, h1, h2⟩
    omega

/-- This instance's windows overlap another's where one of the others' jobs shares a byte with it (R291). -/
theorem overlapsOther_iff (s : State) : overlapsOther s = true ↔ ∃ w, w ∈ s.others ∧ sharesByte s w = true := by
  simp only [overlapsOther, List.any_eq_true]

/-- `putInput` of nothing. -/
@[simp] theorem putInput_zero (start : Nat) (s : State) : putInput start 0 s = .ok s := rfl

/-- Bytes put in two goes. -/
theorem putAll_append (xs ys : List Byte) (s : State) : putAll (xs ++ ys) s = (putAll xs s).andThen (putAll ys) := by
  induction xs generalizing s with
  | nil => rfl
  | cons x xs ih =>
    simp only [List.cons_append, putAll, Flow.andThen_assoc]
    exact congrArg _ (funext fun t => ih t)

/-- Two copies one after the other are one. -/
theorem copyBytes_add (m : List Host.Cell) (src dst a b : Nat) :
    copyBytes m src dst (a + b) = copyBytes (copyBytes m src dst a) (src + a) (dst + a) b := by
  induction a generalizing m src dst with
  | zero => simp
  | succ a ih => rw [show a + 1 + b = (a + b) + 1 by omega, copyBytes, copyBytes, ih]; congr 1 <;> omega

end Sys2Proof.Machine
end

