-- ==== Sys2Proof/Laws/Output.lean ====
section
/-! SUPPORT. The compressor's output in closed form: what `putAll` and `putInput` leave, and the laws of bytes written in
a row. -/

namespace Sys2Proof.Machine

/-- Bytes written in a row leave every other byte alone. -/
theorem memRead_memWriteAll_outside (m : List Host.Cell) (a : Nat) (bs : List Byte) (x : Nat)
    (h : x < a ∨ a + bs.length ≤ x) : memRead (memWriteAll m a bs) x = memRead m x := by
  induction bs generalizing m a with
  | nil => rfl
  | cons b bs ih =>
    simp only [List.length_cons] at h
    rw [memWriteAll, ih _ _ (by omega), memRead_memWrite_ne _ _ _ _ (by omega)]

/-- Bytes written in a row inside the address space keep the canonical form. -/
theorem memWriteAll_wf (m : List Host.Cell) (a : Nat) (bs : List Byte) (hb : a + bs.length ≤ Config.addrSpace)
    (h : Memory.wf m = true) : Memory.wf (memWriteAll m a bs) = true := by
  induction bs generalizing m a with
  | nil => exact h
  | cons b bs ih =>
    simp only [List.length_cons] at hb
    exact ih _ _ (by omega) (memWrite_wf m a b (by omega) h)

/-- Bytes written in a row read back. -/
theorem memRead_memWriteAll (m : List Host.Cell) (a : Nat) (bs : List Byte) (k : Nat) (hk : k < bs.length)
    (h : Memory.wf m = true) (hb : a + bs.length ≤ Config.addrSpace) :
    memRead (memWriteAll m a bs) (a + k) = bs[k] := by
  induction bs generalizing m a k with
  | nil => simp at hk
  | cons b bs ih =>
    simp only [List.length_cons] at hb hk
    match k with
    | 0 =>
      rw [memWriteAll, memRead_memWriteAll_outside _ _ _ _ (by omega), memRead_memWrite _ _ _ _ h]
      simp
    | k + 1 =>
      rw [memWriteAll, show a + (k + 1) = a + 1 + k by omega,
        ih (memWrite m a b) (a + 1) k (by omega) (memWrite_wf m a b (by omega) h) (by omega)]
      rfl

theorem memWriteAll_append (m : List Host.Cell) (a : Nat) (xs ys : List Byte) :
    memWriteAll m a (xs ++ ys) = memWriteAll (memWriteAll m a xs) (a + xs.length) ys := by
  induction xs generalizing m a with
  | nil => rfl
  | cons x xs ih =>
    simp only [List.cons_append, memWriteAll, ih, List.length_cons]
    congr 1
    omega

/-- The state with the bytes `bs` after its output. -/
def afterPut (bs : List Byte) (s : State) : State :=
  { s with mem := memWriteAll s.mem (s.outBase.toNat + s.cOp.toNat) bs, cOp := cursor (s.cOp.toNat + bs.length) }

@[simp] theorem afterPut_nil (s : State) : afterPut [] s = s := by
  simp [afterPut, memWriteAll]

theorem afterPut_cOp {bs : List Byte} {s : State} (h : s.cOp.toNat + bs.length < 2 ^ 32) :
    (afterPut bs s).cOp.toNat = s.cOp.toNat + bs.length := cursor_toNat_of_lt h

theorem afterPut_append (xs ys : List Byte) (s : State) (h : s.cOp.toNat + xs.length < 2 ^ 32) :
    afterPut (xs ++ ys) s = afterPut ys (afterPut xs s) := by
  simp only [afterPut, memWriteAll_append, List.length_append, cursor_toNat_of_lt h, Nat.add_assoc]

/-- `put` below OUT_CAP, as `afterPut`. -/
theorem put_eq_afterPut {v : Byte} {s : State} (h : s.cOp.toNat < s.outCap.toNat) : put v s = .ok (afterPut [v] s) :=
  put_ok h

/-- Bytes that fit are put (R160). -/
theorem putAll_ok {bs : List Byte} {s : State} (h : s.cOp.toNat + bs.length ≤ s.outCap.toNat) :
    putAll bs s = .ok (afterPut bs s) := by
  induction bs generalizing s with
  | nil => simp [putAll]
  | cons b bs ih =>
    simp only [List.length_cons] at h
    have hc : s.cOp.toNat + [b].length < 2 ^ 32 := by simp; omega
    rw [putAll, put_eq_afterPut (by omega), Flow.andThen_ok, ih (by simp [afterPut]; omega),
      ← afterPut_append [b] bs s hc]
    rfl

/-- Bytes that do not fit fill the window, then raise BufferOverflow (R160). -/
theorem putAll_full {bs : List Byte} {s : State} (h0 : s.cOp.toNat ≤ s.outCap.toNat)
    (h : s.outCap.toNat < s.cOp.toNat + bs.length) :
    putAll bs s = .raise .bufferOverflow (afterPut (bs.take (s.outCap.toNat - s.cOp.toNat)) s) := by
  induction bs generalizing s with
  | nil => simp at h; omega
  | cons b bs ih =>
    simp only [List.length_cons] at h
    rw [putAll]
    by_cases hc : s.cOp.toNat = s.outCap.toNat
    · rw [put_full (by omega), Flow.andThen_raise, ← hc, Nat.sub_self, List.take_zero, afterPut_nil]
    · have hb : s.cOp.toNat + [b].length < 2 ^ 32 := by simp; omega
      have ho : (afterPut [b] s).cOp.toNat = s.cOp.toNat + 1 := cursor_toNat_of_lt hb
      have hcap : (afterPut [b] s).outCap = s.outCap := rfl
      rw [put_eq_afterPut (by omega), Flow.andThen_ok, ih (by rw [ho, hcap]; omega) (by rw [ho, hcap]; omega), ho, hcap,
        ← afterPut_append [b] _ s hb]
      obtain ⟨d, hd⟩ : ∃ d, s.outCap.toNat - s.cOp.toNat = d + 1 := ⟨s.outCap.toNat - s.cOp.toNat - 1, by omega⟩
      rw [show s.outCap.toNat - (s.cOp.toNat + 1) = d by omega, hd, List.take_succ_cons]
      rfl

/-- An input byte stays as it is while only bytes of the output window change (R61, R62). -/
theorem inByte_of_outside {s t : State} (hb : t.inBase = s.inBase) (hp : placementOk s = true)
    (hm : ∀ x, inOutputWindow s x = false → memRead t.mem x = memRead s.mem x) (i : Nat) (hi : i < s.inLen.toNat) :
    inByte t i = inByte s i := by
  simp only [inByte, hb]
  apply hm
  simp only [placementOk, Bool.and_eq_true, Bool.or_eq_true, decide_eq_true_eq] at hp
  simp only [inOutputWindow, inRange, Bool.and_eq_false_iff, decide_eq_false_iff_not]
  omega

/-- A literal run copied from the input is the list of its bytes, put (R162, R170). -/
theorem putInput_eq (start n : Nat) (s : State) (hp : placementOk s = true) (hi : start + n ≤ s.inLen.toNat) :
    putInput start n s = putAll ((List.range n).map (fun k => inByte s (start + k))) s := by
  induction n generalizing start s with
  | zero => rfl
  | succ n ih =>
    rw [putInput, List.range_succ_eq_map, List.map_cons, List.map_map, putAll, Nat.add_zero start]
    by_cases hc : s.cOp.toNat < s.outCap.toNat
    · rw [put_ok hc, Flow.andThen_ok, Flow.andThen_ok]
      have hp' : placementOk ((outWrite s s.cOp.toNat (inByte s start)).setCOp (s.cOp.toNat + 1)) = true := hp
      rw [ih _ _ hp' (by simp [outWrite]; omega)]
      congr 1
      apply List.map_congr_left
      intro k hk
      have hk := List.mem_range.1 hk
      rw [inByte_of_outside (s := s) (t := (outWrite s s.cOp.toNat (inByte s start)).setCOp (s.cOp.toNat + 1)) rfl hp ?_
        (start + 1 + k) (by omega)]
      · simp only [Function.comp]
        congr 1
        omega
      · intro x hx
        simp only [inOutputWindow, inRange, Bool.and_eq_false_iff, decide_eq_false_iff_not] at hx
        exact memRead_memWrite_ne _ _ _ _ (by omega)
    · rw [put_full (by omega)]
      rfl

end Sys2Proof.Machine
end

