-- ==== Sys2Proof/Laws/Compressor.lean ====
section
/-! SUPPORT. The laws of the compressor's parts: `emit_ext` is the encoder's continuation (R161, R105), the first differing
byte of two chunks (R140), and that match extension looks at the segment's bytes only (R67, R141). -/

namespace Sys2Proof.Machine

/-- `emit_ext` writes the encoder's continuation (R161, R105). -/
theorem emitExt_eq (x : Nat) (hx : 1 ≤ x) : emitExt x = extBytes x := by
  suffices ∀ f x, 1 ≤ x → x ≤ f → emitExtLoop f x = extBytes x from this x x hx (Nat.le_refl _)
  intro f
  induction f with
  | zero => intro x h1 h2; omega
  | succ f ih =>
    intro x hx hf
    simp only [emitExtLoop]
    split
    · rw [ih _ (by omega) (by omega)]
      have : (x - 1) / 255 = (x - 255 - 1) / 255 + 1 := by omega
      simp only [extBytes, this, List.replicate_succ, List.cons_append]
      rw [show x - 255 * ((x - 255 - 1) / 255 + 1) = x - 255 - 255 * ((x - 255 - 1) / 255) by omega]
    · have : (x - 1) / 255 = 0 := by omega
      simp [extBytes, this, lowByte]

/-- `s_patch` once a match record stands before `c_op` (R163). -/
theorem sPatch_ok {s : State} {n : Nat} (h : 2 ≤ s.cOp.toNat) (h2 : s.cOp.toNat ≤ s.outCap.toNat) :
    sPatch n s = .ok (outWrite s (s.cOp.toNat - 2) (outByte s (s.cOp.toNat - 2) ||| lowByte n)) := by
  unfold sPatch
  rw [if_pos ⟨h, h2⟩]

/-- A shift left and an OR of lower bits is a sum. -/
theorem shiftLeft_or (a b i : Nat) (h : b < 2 ^ i) : (a <<< i) ||| b = 2 ^ i * a + b := by
  rw [← Nat.shiftLeft_add_eq_or_of_lt h, Nat.shiftLeft_eq, Nat.mul_comm]

/-- Trailing zeros of a nonzero number. -/
theorem trailingZeros_spec (f v : Nat) (h0 : v ≠ 0) (hv : v < 2 ^ f) :
    trailingZeros f v < f ∧ ∃ q, v = 2 ^ trailingZeros f v * (2 * q + 1) := by
  induction f generalizing v with
  | zero => simp at hv; omega
  | succ f ih =>
    simp only [trailingZeros]
    split
    · exact ⟨by omega, v / 2, by simp; omega⟩
    · obtain ⟨h1, q, h2⟩ := ih (v / 2) (by omega) (by rw [Nat.pow_succ] at hv; omega)
      refine ⟨by omega, q, ?_⟩
      rw [Nat.add_comm 1, Nat.pow_succ, Nat.mul_comm _ 2, Nat.mul_assoc, ← h2]
      omega

/-- `LE32` as its four bytes, the first lowest (R65). -/
theorem le32_append (s : State) (i : Nat) :
    le32 s i = inByte s (i + 3) ++ inByte s (i + 2) ++ inByte s (i + 1) ++ inByte s i := by
  apply BitVec.eq_of_toNat_eq
  simp only [le32, BitVec.toNat_append, BitVec.toNat_ofNat]
  have h0 := (inByte s i).isLt
  have h1 := (inByte s (i + 1)).isLt
  have h2 := (inByte s (i + 2)).isLt
  have h3 := (inByte s (i + 3)).isLt
  rw [shiftLeft_or _ _ _ h2, shiftLeft_or _ _ _ h1, shiftLeft_or _ _ _ h0]
  omega

/-- The XOR of two appended pairs is taken part by part. -/
theorem append_xor_append {m n : Nat} (a c : BitVec m) (b d : BitVec n) :
    (a ++ b) ^^^ (c ++ d) = (a ^^^ c) ++ (b ^^^ d) := by
  ext j hj
  simp only [BitVec.getElem_xor, BitVec.getElem_append]
  split <;> rfl

/-- `LE32` depends on its four bytes only. -/
theorem le32_congr {s t : State} {i : Nat} (h : ∀ k, k < 4 → inByte t (i + k) = inByte s (i + k)) :
    le32 t i = le32 s i := by
  have h0 := h 0 (by omega)
  simp only [Nat.add_zero] at h0
  simp only [le32, h0, h 1 (by omega), h 2 (by omega), h 3 (by omega)]

/-- A match has at least 4 bytes (R140). -/
theorem extend_ge (s : State) : 4 ≤ extend s := by
  have loop : ∀ f m, m ≤ extendLoop s f m := by
    intro f
    induction f with
    | zero => intro m; simp [extendLoop]
    | succ f ih =>
      intro m
      simp only [extendLoop]
      split
      · omega
      · split
        · omega
        · split
          · omega
          · have := ih (m + 8)
            omega
  unfold extend
  split
  · simp only [Config.minMatch]
    omega
  · exact loop _ _

/-- Match extension depends on the input bytes below the segment's end only (R67, R141). -/
theorem extend_congr {s t : State} (h1 : t.cIp.toNat = s.cIp.toNat) (h2 : t.cCand.toNat = s.cCand.toNat)
    (h3 : t.cIpend.toNat = s.cIpend.toNat) (hc : s.cCand.toNat ≤ s.cIp.toNat) (hlt : s.cIp.toNat < s.cIpend.toNat)
    (h : ∀ i, i < s.cIpend.toNat + 20 → inByte t i = inByte s i) :
    extend t = extend s := by
  have hx : ∀ m, s.cIp.toNat + m + 4 ≤ s.cIpend.toNat + 20 → chunkXor t m = chunkXor s m := by
    intro m hm
    simp only [chunkXor, h1, h2]
    rw [le32_congr (s := s) (fun k hk => h _ (by omega)), le32_congr (s := s) (fun k hk => h _ (by omega))]
  have loop : ∀ f m, s.cIp.toNat + m ≤ s.cIpend.toNat + 3 → extendLoop t f m = extendLoop s f m := by
    intro f
    induction f with
    | zero => intro m _; rfl
    | succ f ih =>
      intro m hm
      simp only [extendLoop, h1, h3]
      rw [hx (m + 4) (by omega)]
      by_cases hc : s.cIpend.toNat ≤ s.cIp.toNat + (m + 8)
      · simp only [hc, if_true]
      · rw [hx (m + 8) (by omega), ih (m + 8) (by omega)]
  unfold extend
  simp only [h3]
  rw [hx 4 (by omega), loop _ 4 (by omega)]

end Sys2Proof.Machine
end

