-- ==== Sys2Proof/Laws/Decode.lean ====
section
/-! SUPPORT. The laws of the decoder's and the encoder's parts: continuations (R105), distance fields (R65, R101), operand
ranges. -/

namespace Sys2Proof

/-- A continuation of `z` zeros and a byte `b` of 1 to 255 reads as `255 * z + b` (R105). -/
theorem extDecode_run (rd : Nat → Option Byte) (z : Nat) (b : Byte) (fuel p acc : Nat) (hb : b ≠ 0#8)
    (hz : ∀ j, j < z → rd (p + j) = some 0#8) (he : rd (p + z) = some b) (hf : z < fuel) :
    extDecode rd fuel p acc = some (acc + 255 * z + b.toNat, p + z + 1) := by
  induction z generalizing fuel p acc with
  | zero =>
    obtain ⟨f, rfl⟩ : ∃ f, fuel = f + 1 := ⟨fuel - 1, by omega⟩
    simp only [Nat.add_zero] at he
    simp [extDecode, he, hb]
  | succ z ih =>
    obtain ⟨f, rfl⟩ : ∃ f, fuel = f + 1 := ⟨fuel - 1, by omega⟩
    have h0 := hz 0 (by omega)
    simp only [Nat.add_zero] at h0
    simp only [extDecode, h0]
    rw [if_pos trivial, ih f (p + 1) (acc + 255)
      (fun j hj => by rw [show p + 1 + j = p + (j + 1) by omega]; exact hz _ (by omega))
      (by rw [show p + 1 + z = p + (z + 1) by omega]; exact he) (by omega)]
    congr 2 <;> omega

/-- What a continuation read from a list is: zeros, then the closing byte, then the rest. -/
theorem extDecode_inv (bytes : List Byte) (fuel p acc C q : Nat)
    (h : extDecode (fun k => bytes[k]?) fuel p acc = some (C, q)) :
    ∃ z b, b ≠ 0#8 ∧ C = acc + 255 * z + b.toNat ∧ q = p + z + 1 ∧
      bytes.drop p = List.replicate z 0#8 ++ b :: bytes.drop q := by
  induction fuel generalizing p acc with
  | zero => simp [extDecode] at h
  | succ f ih =>
    simp only [extDecode] at h
    split at h
    · cases h
    · rename_i b hb
      have hd : bytes.drop p = b :: bytes.drop (p + 1) := by
        obtain ⟨hp, rfl⟩ := List.getElem?_eq_some_iff.1 hb
        exact List.drop_eq_getElem_cons hp
      split at h
      · obtain ⟨z, b', h1, h2, h3, h4⟩ := ih _ _ h
        refine ⟨z + 1, b', h1, by omega, by omega, ?_⟩
        rw [hd, h4, ‹b = 0#8›]
        rfl
      · cases h
        exact ⟨0, b, ‹_›, by omega, rfl, by simpa using hd⟩

/-- A continuation's value is at most 255 for each byte it may read (R238). -/
theorem extDecode_bound (rd : Nat → Option Byte) (f p acc C q : Nat) (h : extDecode rd f p acc = some (C, q)) :
    C ≤ acc + 255 * f := by
  induction f generalizing p acc with
  | zero => simp [extDecode] at h
  | succ f ih =>
    simp only [extDecode] at h
    split at h
    · cases h
    · split at h
      · have := ih _ _ h
        omega
      · rename_i b _ _
        cases h
        have := b.isLt
        omega

theorem extBytes_length (x : Nat) : (extBytes x).length = extLen x := by simp [extBytes, extLen]

/-- A continuation laid down by the encoder reads back (R105). -/
theorem extDecode_ext (rd : Nat → Option Byte) (x fuel p acc : Nat) (hx : 1 ≤ x)
    (h : ∀ j, j < extLen x → rd (p + j) = (extBytes x)[j]?) (hf : extLen x ≤ fuel) :
    extDecode rd fuel p acc = some (acc + x, p + extLen x) := by
  have hbn : (BitVec.ofNat 8 (x - 255 * ((x - 1) / 255))).toNat = x - 255 * ((x - 1) / 255) := by
    rw [BitVec.toNat_ofNat]
    omega
  rw [extDecode_run rd ((x - 1) / 255) (BitVec.ofNat 8 (x - 255 * ((x - 1) / 255))) fuel p acc]
  · rw [hbn]
    simp only [extLen]
    congr 2
    omega
  · intro h
    have := congrArg BitVec.toNat h
    rw [hbn] at this
    simp at this
    omega
  · intro j hj
    rw [h j (by simp [extLen]; omega)]
    simp [extBytes, List.getElem?_append, hj]
  · rw [h _ (by simp [extLen])]
    simp [extBytes]
  · simp [extLen] at hf
    omega

/-- The encoder's continuation of `255 * z + b`. -/
theorem extBytes_run (z : Nat) (b : Byte) (h : b ≠ 0#8) :
    extBytes (255 * z + b.toNat) = List.replicate z 0#8 ++ [b] ∧ extLen (255 * z + b.toNat) = z + 1 := by
  have hb := b.isLt
  have hn : b.toNat ≠ 0 := fun e => h (BitVec.eq_of_toNat_eq (by simpa using e))
  have : (255 * z + b.toNat - 1) / 255 = z := by omega
  simp only [extBytes, extLen, this]
  refine ⟨?_, trivial⟩
  congr 2
  apply BitVec.eq_of_toNat_eq
  rw [BitVec.toNat_ofNat]
  omega

/-- The distance bytes of `d` and `s` read back as the field `4 * d + s` (R101). -/
theorem distField_distBytes (d s : Nat) (hd : d < 16384) (hs : s ≤ 3) :
    distField (BitVec.ofNat 8 (4 * (d % 64) + s)) (BitVec.ofNat 8 (d / 64)) = 4 * d + s := by
  simp only [distField, BitVec.toNat_ofNat]
  omega

/-- The distance bytes of a field's parts are the bytes it was read from (R101). -/
theorem distBytes_distField (b0 b1 : Byte) :
    distBytes (bits (distField b0 b1) 15 2) (sBits (distField b0 b1)) = [b0, b1] := by
  have h0 := b0.isLt
  have h1 := b1.isLt
  simp only [distBytes, distField, sBits, bits, Nat.reducePow, Nat.reduceAdd, Nat.reduceSub]
  congr 1
  · apply BitVec.eq_of_toNat_eq
    rw [BitVec.toNat_ofNat]
    omega
  · congr 1
    apply BitVec.eq_of_toNat_eq
    rw [BitVec.toNat_ofNat]
    omega

/-- Two distance bytes read from a list. -/
theorem readDistField_inv {bytes : List Byte} {p D : Nat} (h : readDistField (fun k => bytes[k]?) p = some D) :
    ∃ b0 b1, D = distField b0 b1 ∧ bytes.drop p = b0 :: b1 :: bytes.drop (p + 2) := by
  simp only [readDistField] at h
  split at h
  · cases h
  · rename_i b0 hb0
    split at h
    · cases h
    · rename_i b1 hb1
      cases h
      obtain ⟨hp, rfl⟩ := List.getElem?_eq_some_iff.1 hb0
      obtain ⟨hp1, rfl⟩ := List.getElem?_eq_some_iff.1 hb1
      exact ⟨_, _, rfl, by rw [List.drop_eq_getElem_cons hp, List.drop_eq_getElem_cons hp1]⟩

/-- Every record has at least its tag byte. -/
theorem headerLen_pos (i : Instr) : 1 ≤ headerLen i := by
  cases i <;> simp only [headerLen] <;> (try split) <;> omega

end Sys2Proof
end

