-- ==== Sys2Proof/Laws/Engine.lean ====
section
/-! SUPPORT. The engines neither read nor write the events waiting outside: each of their operations does the same
whatever stands in `host`, and leaves it there. -/

namespace Sys2Proof.Machine

/-- A rule's end with `h` as the waiting events. -/
def Flow.setHost (h : List HostAction) : Flow → Flow
  | .ok s => .ok { s with host := h }
  | .raise e s => .raise e { s with host := h }
  | .fault r => .fault r

/-- A step's answer with `h` as the waiting events. -/
def Result.setHost (h : List HostAction) : Result → Result
  | .next s => .next { s with host := h }
  | .fault r => .fault r
  | .refused r => .refused r

theorem Flow.andThen_setHost {f : Flow} {g : State → Flow} {h : List HostAction}
    (hg : ∀ s, g { s with host := h } = (g s).setHost h) :
    (f.setHost h).andThen g = (f.andThen g).setHost h := by
  cases f
  · exact hg _
  · rfl
  · rfl

theorem endJob_host (e : ErrCode) (s : State) (h : List HostAction) :
    endJob e { s with host := h } = { endJob e s with host := h } := by
  cases e <;> cases hm : s.ctrlMode <;> cases hz : s.hazard <;>
    simp [endJob, writeCursors, hm, hz, freeResult, freeOutput]

theorem Flow.answer_setHost (f : Flow) (h : List HostAction) : (f.setHost h).answer = Result.setHost h f.answer := by
  cases f
  · rfl
  · simp only [Flow.setHost, Flow.answer, endJob_host, Result.setHost]
  · rfl

/-! ### The decompressor -/

theorem fetchBytes_host (k : Nat) (s : State) (h : List HostAction) :
    fetchBytes k { s with host := h } = (fetchBytes k s).setHost h := by
  simp only [fetchBytes]
  split <;> rfl

theorem litCopy_host (n : Nat) (s : State) (h : List HostAction) :
    litCopy n { s with host := h } = (litCopy n s).setHost h := by
  simp only [litCopy]
  split
  · rfl
  · split <;> rfl

theorem matchCopy_host (dist len : Nat) (s : State) (h : List HostAction) :
    matchCopy dist len { s with host := h } = (matchCopy dist len s).setHost h := by
  simp only [matchCopy]
  split
  · rfl
  · split <;> rfl

theorem matchTail_host (dist len k : Nat) (s : State) (h : List HostAction) :
    matchTail dist len k { s with host := h } = (matchTail dist len k s).setHost h := by
  simp only [matchTail, matchCopy_host]
  refine Flow.andThen_setHost fun t => ?_
  split
  · rfl
  · rw [litCopy_host]
    exact Flow.andThen_setHost fun u => rfl

theorem matchRecord_host (k len dist n : Nat) (s : State) (h : List HostAction) :
    matchRecord k len dist n { s with host := h } = (matchRecord k len dist n s).setHost h := by
  simp only [matchRecord, fetchBytes_host]
  exact Flow.andThen_setHost fun t => matchTail_host _ _ _ t h

theorem literalRecord_host (k n : Nat) (d : DecState) (s : State) (h : List HostAction) :
    literalRecord k n d { s with host := h } = (literalRecord k n d s).setHost h := by
  simp only [literalRecord, fetchBytes_host]
  refine Flow.andThen_setHost fun t => ?_
  rw [litCopy_host]
  exact Flow.andThen_setHost fun u => rfl

/-- A rule that leaves the waiting events alone does so as a step. -/
theorem runRule_host {rule : State → Flow} {h : List HostAction}
    (hr : ∀ s, rule { s with host := h } = (rule s).setHost h) (s : State) :
    runRule rule { s with host := h } = Result.setHost h (runRule rule s) := by
  have hp : placementOk { s with host := h } = placementOk s := rfl
  simp only [runRule, hp, hr, Flow.answer_setHost]
  split <;> rfl

theorem endOfStream_host (s : State) (h : List HostAction) :
    endOfStream { s with host := h } = (endOfStream s).setHost h := by
  simp only [endOfStream]
  split
  · rfl
  · split
    · rfl
    · exact congrArg Flow.ok (endJob_host .ok { s with outLen := s.dOp, inPos := s.dIp, dPhase := .halt } h)

theorem exec_host (i : Instr) (s : State) (h : List HostAction) :
    exec i { s with host := h } = Result.setHost h (exec i s) := by
  cases i
  case litInit n =>
    refine runRule_host (rule := fun t => (literalRecord 1 n (stateAfterLitInit n) t).andThen fun u =>
      .ok (u.setDPhase .fetch)) (fun t => ?_) s
    simp only [literalRecord_host]
    exact Flow.andThen_setHost fun u => rfl
  case eof a b c =>
    refine runRule_host (rule := fun t => (fetchBytes (headerLen (.eof a b c)) t).andThen endOfStream) (fun t => ?_) s
    simp only [fetchBytes_host]
    exact Flow.andThen_setHost fun u => endOfStream_host u h
  case litShort | litLong => exact runRule_host (fun t => literalRecord_host _ _ _ t h) s
  all_goals exact runRule_host (fun t => matchRecord_host _ _ _ _ t h) s

theorem runRecord_host (c : DecodeContext) (s : State) (h : List HostAction) :
    runRecord c { s with host := h } = Result.setHost h (runRecord c s) := by
  have hf : fetchRecord c { s with host := h } = fetchRecord c s := rfl
  simp only [runRecord, hf]
  split
  · exact exec_host _ s h
  · exact Flow.answer_setHost (.raise .truncatedInput (s.setDIp (max s.dIp.toNat s.inLen.toNat))) h

theorem decompressorStep_host (s : State) (h : List HostAction) :
    decompressorStep { s with host := h } = Result.setHost h (decompressorStep s) := by
  have hp : placementOk { s with host := h } = placementOk s := rfl
  have hs : startsLitInit { s with host := h } = startsLitInit s := rfl
  simp only [decompressorStep, hp, hs]
  split
  · split
    · split
      · exact runRecord_host _ s h
      · rfl
    · exact runRecord_host _ s h
    · rfl
    · rfl
  · rfl

/-! ### The compressor -/

theorem put_host (v : Byte) (s : State) (h : List HostAction) : put v { s with host := h } = (put v s).setHost h := by
  simp only [put]
  split <;> rfl

theorem putAll_host (bs : List Byte) (s : State) (h : List HostAction) :
    putAll bs { s with host := h } = (putAll bs s).setHost h := by
  induction bs generalizing s with
  | nil => rfl
  | cons v bs ih =>
    simp only [putAll, put_host]
    exact Flow.andThen_setHost ih

theorem putInput_host (start n : Nat) (s : State) (h : List HostAction) :
    putInput start n { s with host := h } = (putInput start n s).setHost h := by
  induction n generalizing start s with
  | zero => rfl
  | succ n ih =>
    have hb : inByte { s with host := h } start = inByte s start := rfl
    simp only [putInput, hb, put_host]
    exact Flow.andThen_setHost fun t => ih _ t

theorem sPatch_host (t : Nat) (s : State) (h : List HostAction) :
    sPatch t { s with host := h } = (sPatch t s).setHost h := by
  simp only [sPatch]
  split <;> rfl

theorem emitLiterals_host (start t : Nat) (s : State) (h : List HostAction) :
    emitLiterals start t { s with host := h } = (emitLiterals start t s).setHost h := by
  simp only [emitLiterals, sPatch_host, putAll_host]
  split
  · rfl
  · split <;> exact Flow.andThen_setHost fun u => putInput_host _ _ u h

theorem finalRunHeader_host (t : Nat) (s : State) (h : List HostAction) :
    finalRunHeader t { s with host := h } = (finalRunHeader t s).setHost h := by
  simp only [finalRunHeader, put_host, sPatch_host, putAll_host]
  split
  · rfl
  · split <;> rfl

theorem extend_host (s : State) (h : List HostAction) : extend { s with host := h } = extend s := by
  have hc : ∀ m, chunkXor { s with host := h } m = chunkXor s m := fun _ => rfl
  have hl : ∀ f m, extendLoop { s with host := h } f m = extendLoop s f m := by
    intro f
    induction f with
    | zero => exact fun _ => rfl
    | succ f ih => exact fun m => by simp only [extendLoop, hc, ih]
  simp only [extend, hc, hl]

theorem phaseMatch_host (s : State) (h : List HostAction) :
    phaseMatch { s with host := h } = (phaseMatch s).setHost h := by
  have hs : segmentOk { s with host := h } = segmentOk s := rfl
  simp only [phaseMatch, hs]
  split
  · have he := emitLiterals_host (s.cIi.toNat - s.cT.toNat) (s.cIp.toNat - (s.cIi.toNat - s.cT.toNat))
      { s with cIi := cursor (s.cIi.toNat - s.cT.toNat), cT := 0#32 } h
    rw [he]
    refine Flow.andThen_setHost fun t => ?_
    simp only [extend_host, emitMatch]
    rw [putAll_host _ { t with
      cMlen := cursor (extend t), cMoff := cursor (t.cIp.toNat - t.cCand.toNat), cIp := cursor (t.cIp.toNat + extend t)
      cIi := cursor (t.cIp.toNat + extend t) } h]
    exact Flow.andThen_setHost fun u => rfl
  · rfl

theorem phaseFlush_host (s : State) (h : List HostAction) :
    phaseFlush { s with host := h } = (phaseFlush s).setHost h := by
  simp only [phaseFlush]
  split
  · rfl
  · split
    · rw [finalRunHeader_host _ { s with cT := cursor (s.cT.toNat + s.cRem.toNat) } h]
      rw [Flow.andThen_setHost fun t => putInput_host _ _ t h]
      exact Flow.andThen_setHost fun u => rfl
    · rfl

theorem phaseEnd_host (s : State) (h : List HostAction) : phaseEnd { s with host := h } = (phaseEnd s).setHost h := by
  simp only [phaseEnd, putAll_host]
  exact Flow.andThen_setHost fun t => congrArg Flow.ok (endJob_host .ok { t with outLen := t.cOp, inPos := t.inLen } h)

theorem phaseSeg_host (s : State) (h : List HostAction) : phaseSeg { s with host := h } = (phaseSeg s).setHost h := by
  simp only [phaseSeg]
  split
  · rfl
  · split <;> rfl

theorem phaseProbe_host (s : State) (h : List HostAction) :
    phaseProbe { s with host := h } = (phaseProbe s).setHost h := by
  have hs : segmentOk { s with host := h } = segmentOk s := rfl
  have hl : ∀ i, le32 { s with host := h } i = le32 s i := fun _ => rfl
  simp only [phaseProbe, probeAt, hs, hl]
  split
  · split
    · rfl
    · split <;> rfl
  · rfl

theorem compressorRule_host (s : State) (h : List HostAction) :
    compressorRule { s with host := h } = (compressorRule s).setHost h := by
  simp only [compressorRule]
  split
  · exact phaseSeg_host s h
  · rfl
  · exact phaseProbe_host s h
  · exact phaseMatch_host s h
  · exact phaseFlush_host s h
  · exact phaseEnd_host s h
  · rfl

/-- An engine step is the same whatever waits outside. -/
theorem engineStep_host (s : State) (h : List HostAction) :
    engineStep { s with host := h } = Result.setHost h (engineStep s) := by
  simp only [engineStep]
  split
  · split
    · exact runRule_host (fun t => compressorRule_host t h) s
    · exact decompressorStep_host s h
  · rfl

end Sys2Proof.Machine
end

