-- ==== Sys2Proof/Laws/PerInstr.lean ====
section
/-! SUPPORT. Statements made of every instruction as syntax, one lemma for each constructor. HeaderBytes: the encoder writes
exactly the header's bytes, at least the tag (R107), and a tag and continuation take the lengths of R94 to R103. -/

namespace Sys2Proof.Laws.HeaderBytes

/-- The encoding has the header's length, at least one byte. -/
def Statement (i : Instr) : Prop := (encode i).length = headerLen i ∧ 1 ≤ headerLen i

theorem litInit (n : Nat) : Statement (.litInit n) := ⟨rfl, headerLen_pos _⟩
theorem litShort (n : Nat) : Statement (.litShort n) := ⟨rfl, headerLen_pos _⟩
theorem litLong (n : Nat) : Statement (.litLong n) :=
  ⟨by simp [encode, headerLen, extBytes_length, Nat.add_comm], headerLen_pos _⟩
theorem m1a (dist s : Nat) : Statement (.m1a dist s) := ⟨rfl, headerLen_pos _⟩
theorem m1b (dist s : Nat) : Statement (.m1b dist s) := ⟨rfl, headerLen_pos _⟩
theorem m2 (len dist s : Nat) : Statement (.m2 len dist s) := ⟨rfl, headerLen_pos _⟩
theorem m3 (len dist s : Nat) : Statement (.m3 len dist s) := ⟨rfl, headerLen_pos _⟩
theorem m3Long (len dist s : Nat) : Statement (.m3Long len dist s) :=
  ⟨by simp [encode, headerLen, extBytes_length, distBytes]; omega, headerLen_pos _⟩
theorem m4 (len dist s : Nat) : Statement (.m4 len dist s) := ⟨rfl, headerLen_pos _⟩
theorem m4Long (len dist s : Nat) : Statement (.m4Long len dist s) :=
  ⟨by simp [encode, headerLen, extBytes_length, distBytes]; omega, headerLen_pos _⟩
theorem eof (l3 c s : Nat) : Statement (.eof l3 c s) := by
  refine ⟨?_, headerLen_pos _⟩
  simp only [encode, headerLen]
  split <;> simp [extBytes_length, distBytes]
  omega

end Sys2Proof.Laws.HeaderBytes
end

