-- ==== Sys2Proof/Tests/Slice0.lean ====
section
/-! SUPPORT. The model's own tests: ill-formed records, words written out from the encodings of 30_encoding.md, one step of
each record and phase on the examples of the rules and of 95_test_vectors.md, and for every statement with hypotheses a
state and operands that meet them. -/

open Sys2Proof Sys2Proof.Machine Sys2Proof.Statements

namespace Sys2Proof.Tests

/-! ### WellFormed: one ill-formed record for each check -/

theorem test_wf_litInit_low : (Instr.litInit 0).wf = false := by decide
theorem test_wf_litInit_high : (Instr.litInit 239).wf = false := by decide
theorem test_wf_litShort_low : (Instr.litShort 3).wf = false := by decide
theorem test_wf_litShort_high : (Instr.litShort 19).wf = false := by decide
theorem test_wf_litLong_low : (Instr.litLong 18).wf = false := by decide
theorem test_wf_m1a_dist_low : (Instr.m1a 0 0).wf = false := by decide
theorem test_wf_m1a_dist_high : (Instr.m1a 1025 0).wf = false := by decide
theorem test_wf_m1a_s : (Instr.m1a 1 4).wf = false := by decide
theorem test_wf_m1b_dist_low : (Instr.m1b 2048 0).wf = false := by decide
theorem test_wf_m1b_dist_high : (Instr.m1b 3073 0).wf = false := by decide
theorem test_wf_m1b_s : (Instr.m1b 2049 4).wf = false := by decide
theorem test_wf_m2_len_low : (Instr.m2 2 1 0).wf = false := by decide
theorem test_wf_m2_len_high : (Instr.m2 9 1 0).wf = false := by decide
theorem test_wf_m2_dist_low : (Instr.m2 3 0 0).wf = false := by decide
theorem test_wf_m2_dist_high : (Instr.m2 3 2049 0).wf = false := by decide
theorem test_wf_m2_s : (Instr.m2 3 1 4).wf = false := by decide
theorem test_wf_m3_len_low : (Instr.m3 2 1 0).wf = false := by decide
theorem test_wf_m3_len_high : (Instr.m3 34 1 0).wf = false := by decide
theorem test_wf_m3_dist_low : (Instr.m3 3 0 0).wf = false := by decide
theorem test_wf_m3_dist_high : (Instr.m3 3 16385 0).wf = false := by decide
theorem test_wf_m3_s : (Instr.m3 3 1 4).wf = false := by decide
theorem test_wf_m3Long_len : (Instr.m3Long 33 1 0).wf = false := by decide
theorem test_wf_m3Long_dist_low : (Instr.m3Long 34 0 0).wf = false := by decide
theorem test_wf_m3Long_dist_high : (Instr.m3Long 34 16385 0).wf = false := by decide
theorem test_wf_m3Long_s : (Instr.m3Long 34 1 4).wf = false := by decide
theorem test_wf_m4_len_low : (Instr.m4 2 16385 0).wf = false := by decide
theorem test_wf_m4_len_high : (Instr.m4 10 16385 0).wf = false := by decide
theorem test_wf_m4_dist_low : (Instr.m4 3 16384 0).wf = false := by decide
theorem test_wf_m4_dist_high : (Instr.m4 3 49152 0).wf = false := by decide
theorem test_wf_m4_s : (Instr.m4 3 16385 4).wf = false := by decide
theorem test_wf_m4Long_len : (Instr.m4Long 9 16385 0).wf = false := by decide
theorem test_wf_m4Long_dist_low : (Instr.m4Long 10 16384 0).wf = false := by decide
theorem test_wf_m4Long_dist_high : (Instr.m4Long 10 49152 0).wf = false := by decide
theorem test_wf_m4Long_s : (Instr.m4Long 10 16385 4).wf = false := by decide
theorem test_wf_eof_l3 : (Instr.eof 8 0 0).wf = false := by decide
theorem test_wf_eof_s : (Instr.eof 1 0 4).wf = false := by decide
theorem test_wf_eof_escape : (Instr.eof 0 0 0).wf = false := by decide
theorem test_wf_eof_no_escape : (Instr.eof 1 1 0).wf = false := by decide

/-! ### Decoding: words from the format tables, the fields of each written apart (first byte first) -/

/-- R94: `t = 17 + 5`. -/
theorem test_decode_litInit : decode .start [0b00010110#8] = .ok (.litInit 5) 1 := by decide
/-- R95: bits 7:4 `0000`, `t[3:0] = 1111`, so `n = 18`. -/
theorem test_decode_litShort : decode (.fetch .s0) [0b00001111#8] = .ok (.litShort 18) 1 := by decide
/-- R96, R105: tag 0, `z = 1`, `b = 1`, so `n = 18 + 256`. -/
theorem test_decode_litLong : decode (.fetch .s0) [0#8, 0#8, 1#8] = .ok (.litLong 274) 3 := by decide
/-- R98: `t[3:2] = 10`, `s = 01`, `b = 3`: `dist = 1 + 2 + 12`. -/
theorem test_decode_m1a : decode (.fetch .s1) [0b00001001#8, 3#8] = .ok (.m1a 15 1) 2 := by decide
/-- R99: `t[3:2] = 01`, `s = 11`, `b = 255`: `dist = 0x801 + 1 + 1020`. -/
theorem test_decode_m1b : decode (.fetch .s4) [0b00000111#8, 255#8] = .ok (.m1b 3070 3) 2 := by decide
/-- R100: `t[7:5] = 010`, `t[4:2] = 110`, `s = 10`, `b = 1`: `len = 3`, `dist = 1 + 6 + 8`. -/
theorem test_decode_m2 : decode (.fetch .s4) [0b01011010#8, 1#8] = .ok (.m2 3 15 2) 2 := by decide
/-- R101: `L5 = 00001`, `d[5:0] = 000001`, `s = 11`, `d[13:6] = 2`: `dist = 1 + 1 + 128`. -/
theorem test_decode_m3 : decode (.fetch .s0) [0b00100001#8, 0b00000111#8, 2#8] = .ok (.m3 3 130 3) 3 := by decide
/-- R101: `L5 = 0`, `C = 1`, `D = 0xFFFF`. -/
theorem test_decode_m3Long :
    decode (.fetch .s1) [0b00100000#8, 1#8, 0xFF#8, 0xFF#8] = .ok (.m3Long 34 16384 3) 4 := by decide
/-- R102: `H = 1`, `L3 = 111`, `d = 0`. -/
theorem test_decode_m4 : decode (.fetch .s0) [0b00011111#8, 0#8, 0#8] = .ok (.m4 9 0x8000 0) 3 := by decide
/-- R102: `H = 1`, `L3 = 0`, `C = 1`, `d` all ones. -/
theorem test_decode_m4Long :
    decode (.fetch .s0) [0b00011000#8, 1#8, 0xFC#8, 0xFF#8] = .ok (.m4Long 10 0xBFFF 0) 4 := by decide
/-- R103: `H = 0`, `d = 0`, the length field and the s-bits ignored. -/
theorem test_decode_eof : decode (.fetch .s0) [0b00010011#8, 0b00000010#8, 0#8] = .ok (.eof 3 0 2) 3 := by decide
/-- R103: the non-canonical EOF of R202. -/
theorem test_decode_eof_long : decode .start [0x10#8, 1#8, 0#8, 0#8] = .ok (.eof 0 1 0) 4 := by decide
/-- Every byte is a tag in each state (R108): a lone one is read or wants more bytes. -/
theorem test_decode_missing : decode (.fetch .s0) [0x20#8, 0#8, 0#8] = .error .missingContinuation := by decide
/-- 2.2: 511 is `00 00 01`. -/
theorem test_encode_continuation : extBytes 511 = [0#8, 0#8, 1#8] ∧ emitExt 511 = [0#8, 0#8, 1#8] := by decide
/-- 2.4: the emitters' bytes for `len = 64, dist = 16800` and `len = 4, dist = 0x801`. -/
theorem test_emit_match :
    matchBytes 64 16800 = [0x10#8, 0x37#8, 0x80#8, 0x06#8] ∧ matchBytes 4 0x801 = [0x22#8, 0x00#8, 0x20#8] := by decide
/-- 2.1: `hash("abcd")` and the hash of all ones. -/
theorem test_hash : hashIndex 0x64636261#32 = 1917 ∧ hashIndex 0xFFFFFFFF#32 = 14838 := by decide

/-! ### The opcode table's words -/

/-- Each row's tag is read as the row's record (LIT_SHORT and M1A share their words: S0 is the table context). -/
theorem test_tableWord :
    decodeTableWord 8 0x12 = some (.litInit 1) ∧ decodeTableWord 8 0x01 = some (.litShort 4) ∧
    decodeTableWord 8 0x00 = some (.litLong 19) ∧ decodeTableWord 8 0x40 = some (.m2 3 1 0) ∧
    decodeTableWord 8 0x21 = some (.m3 3 1 0) ∧ decodeTableWord 8 0x20 = some (.m3Long 34 1 0) ∧
    decodeTableWord 8 0x19 = some (.m4 3 0x8000 0) ∧ decodeTableWord 8 0x18 = some (.m4Long 10 0x8000 0) ∧
    decodeTableWord 8 0x11 = some (.eof 1 0 0) := by decide

/-! ### One step of each record -/

/-- A decompress job in D_FETCH with decoder state `d`: the stream at address 0, an output window of `cap` bytes at 0x10000
that begins with `out`, `done` bytes written so far. -/
def decJob (d : DecState) (stream out : List Byte) (done cap : Nat) : State :=
  { State.reset with
    ctrlMode := .dec, statusBusy := true, inLen := BitVec.ofNat 32 stream.length, outBase := 0x10000#32
    outCap := BitVec.ofNat 32 cap, dPhase := .fetch, dState := d, dOp := BitVec.ofNat 32 done
    mem := memWriteAll (memWriteAll [] 0 stream) 0x10000 out }

/-- A compress job in phase `p`: the input at address 0, all of it left, an output window of `cap` bytes at 0x10000 that
begins with `out`. -/
def compJob (p : CPhase) (input out : List Byte) (cap : Nat) : State :=
  { State.reset with
    ctrlMode := .comp, statusBusy := true, inLen := BitVec.ofNat 32 input.length, outBase := 0x10000#32
    outCap := BitVec.ofNat 32 cap, cPhase := p, cRem := BitVec.ofNat 32 input.length
    cOp := BitVec.ofNat 32 out.length
    mem := memWriteAll (memWriteAll [] 0 input) 0x10000 out }

/-- The state a step answers with; State.reset where it answers with none. -/
def after : Result → State
  | .next s => s
  | .fault _ => State.reset
  | .refused _ => State.reset

/-- Whether a step answers with a state. -/
def goesOn : Result → Bool
  | .next _ => true
  | .fault _ => false
  | .refused _ => false

/-- The step after withFetchWord runs the word's record, from reset and from a state with windows of its own. -/
theorem test_withFetchWord :
    [(0x12, Instr.litInit 1), (0x01, .litShort 4), (0x40, .m2 3 1 0), (0x21, .m3 3 1 0), (0x20, .m3Long 34 1 0),
      (0x19, .m4 3 0x8000 0), (0x18, .m4Long 10 0x8000 0), (0x11, .eof 1 0 0)].all (fun p =>
      let s := State.reset.withFetchWord 8 p.1
      let t := { State.reset with inBase := 0x20#32, outBase := 0x80#32, outCap := 64#32 }.withFetchWord 8 p.1
      goesOn (step s) && goesOn (step t) && decide (after (step s) = after (exec p.2 s)) &&
        decide (after (step t) = after (exec p.2 t))) = true := by decide +kernel

/-- R193's example. -/
theorem test_litInit :
    let t := after (step { decJob .s0 [0x14#8, 0x61#8, 0x62#8, 0x63#8, 0x11#8, 0#8, 0#8] [] 0 3 with dPhase := .start })
    outBytes t 0 3 = [0x61#8, 0x62#8, 0x63#8] ∧ t.dState = .s1 ∧ t.dIp.toNat = 4 ∧ t.dOp.toNat = 3 ∧ t.dPhase = .fetch := by
  decide
/-- R193: 4 literals lead to S4. -/
theorem test_litInit_four :
    (after (step { decJob .s1 [0x15#8, 1#8, 2#8, 3#8, 4#8] [] 0 4 with dPhase := .start })).dState = .s4 := by decide
/-- R194's example. -/
theorem test_litShort :
    let t := after (step (decJob .s0 [0x02#8, 0x41#8, 0x42#8, 0x43#8, 0x44#8, 0x45#8] [] 0 5))
    outBytes t 0 5 = [0x41#8, 0x42#8, 0x43#8, 0x44#8, 0x45#8] ∧ t.dState = .s4 ∧ t.dIp.toNat = 6 := by decide
/-- R195's example, with one byte of 19 marked. -/
theorem test_litLong :
    let t := after (step (decJob .s0 (0x00#8 :: 0x01#8 :: (List.replicate 18 0x43#8 ++ [0x44#8])) [] 0 19))
    outByte t 0 = 0x43#8 ∧ outByte t 18 = 0x44#8 ∧ t.dState = .s4 ∧ t.dIp.toNat = 21 ∧ t.dOp.toNat = 19 := by decide
/-- R196's example. -/
theorem test_m1a :
    let t := after (step (decJob .s1 [0x00#8, 0x00#8] [0x41#8] 1 3))
    outBytes t 0 3 = [0x41#8, 0x41#8, 0x41#8] ∧ t.dState = .s0 ∧ t.dOp.toNat = 3 := by decide
/-- R197: `00 00` in S4 copies 3 bytes from `d_op - 2049`. -/
theorem test_m1b :
    let t := after (step (decJob .s4 [0x00#8, 0x00#8] [0x61#8, 0x62#8, 0x63#8] 2049 2052))
    outBytes t 2049 3 = [0x61#8, 0x62#8, 0x63#8] ∧ t.dState = .s0 := by decide
/-- R198's example. -/
theorem test_m2 :
    let t := after (step (decJob .s4 [0x68#8, 0x00#8] [0x61#8, 0x62#8, 0x63#8] 3 7))
    outBytes t 3 4 = [0x61#8, 0x62#8, 0x63#8, 0x61#8] ∧ t.dState = .s0 := by decide
/-- R204: two trailing literals lead to S1 (P4's record `8A 00`). -/
theorem test_m2_literals :
    let t := after (step (decJob .s1 [0x8A#8, 0x00#8, 0x58#8, 0x59#8] [1#8, 2#8, 3#8] 3 10))
    outBytes t 3 7 = [1#8, 2#8, 3#8, 1#8, 2#8, 0x58#8, 0x59#8] ∧ t.dState = .s1 ∧ t.dIp.toNat = 4 := by decide
/-- R199's example, with marked bytes in place of zeros. -/
theorem test_m3 :
    let t := after (step (decJob .s4 [0x2A#8, 0x10#8, 0x00#8] [1#8, 2#8, 3#8, 4#8, 5#8] 5 17))
    outBytes t 5 12 = [1#8, 2#8, 3#8, 4#8, 5#8, 1#8, 2#8, 3#8, 4#8, 5#8, 1#8, 2#8] ∧ t.dOp.toNat = 17 := by decide
/-- R200: `20 01` is `len = 34`; here `dist = 1`. -/
theorem test_m3Long :
    let t := after (step (decJob .s4 [0x20#8, 0x01#8, 0x00#8, 0x00#8] [0x41#8] 1 35))
    outByte t 34 = 0x41#8 ∧ t.dOp.toNat = 35 ∧ t.dIp.toNat = 4 := by decide
/-- R201's example. -/
theorem test_m4 :
    let t := after (step (decJob .s0 [0x12#8, 0x04#8, 0x00#8] [1#8, 2#8, 3#8, 4#8] 16385 16389))
    outBytes t 16385 4 = [1#8, 2#8, 3#8, 4#8] := by decide
/-- R202's example. -/
theorem test_m4Long :
    let t := after (step (decJob .s0 [0x18#8, 0x01#8, 0xFC#8, 0xFF#8] [1#8, 2#8, 3#8] 49151 49161))
    outBytes t 49151 4 = [1#8, 2#8, 3#8, 0#8] ∧ t.dOp.toNat = 49161 := by decide
/-- L1.2: EOF with nothing left, nothing owed. -/
theorem test_eof :
    let t := after (step (decJob .s0 [0x11#8, 0#8, 0#8] [] 0 0))
    t.statusErr = .ok ∧ t.statusDone = true ∧ t.statusBusy = false ∧ t.inPos = 3#32 ∧ t.outLen = 0#32 := by decide
/-- L1.14: a byte after EOF. -/
theorem test_eof_trailing :
    let t := after (step (decJob .s0 [0x11#8, 0#8, 0#8, 0#8] [] 0 0))
    t.statusErr = .trailingData ∧ t.inPos = 3#32 := by decide
/-- R256: both checks of a literal copy fail, BufferOverflow is reported. -/
theorem test_error_order :
    (after (step (decJob .s0 [0x07#8, 1#8, 2#8] [] 0 3))).statusErr = .bufferOverflow := by decide
/-- R235: a distance before output byte 0. -/
theorem test_lookbehind :
    (after (step (decJob .s0 [0x68#8, 0x00#8] [1#8] 1 9))).statusErr = .lookbehindOverrun := by decide
/-- R230: the stream ends inside a distance field. -/
theorem test_truncated :
    let t := after (step (decJob .s0 [0x22#8, 0x00#8] [1#8] 1 9))
    t.statusErr = .truncatedInput ∧ t.inPos = 2#32 ∧ t.outLen = 1#32 := by decide

/-! ### One step of each compressor phase -/

/-- The 32 bytes of 2.5's `abcd` case. -/
def abcd8 : List Byte := (List.range 32).map (fun k => BitVec.ofNat 8 (0x61 + k % 4))

/-- C_SEG, R134: the first segment's cursors. -/
theorem test_seg :
    let t := after (step (compJob .seg abcd8 [] 99))
    t.cPhase = .advance ∧ t.cIp.toNat = 4 ∧ t.cIpend.toNat = 12 ∧ t.cLl.toNat = 32 := by decide
/-- C_ADVANCE, L1.8: gap 64 gives step 3. -/
theorem test_advance :
    (after (step { compJob .advance abcd8 [] 99 with cIp := 164, cIi := 100 })).cIp.toNat = 167 := by decide
/-- R31, R12: a cursor register has 32 bits, and none of them wraps (R32). -/
theorem test_cursor : cursor 5 = 5#32 ∧ cursor 0xFFFFFFFF = 0xFFFFFFFF#32 ∧ cursor 0x100000005 = 0xFFFFFFFF#32 := by decide
/-- C_ADVANCE, R137: the formula itself takes `c_ip` past IN_LEN from a state of the invariant (gap 49131, step 1536), and
C_PROBE then ends the segment without a read (R139). -/
theorem test_advance_past_input :
    let s := { compJob .advance [] [] 0 with
      inLen := 49152#32, cRem := 49152#32, cLl := 49152#32, cIpend := 49132#32, cIp := 49131#32 }
    let t := after (step s)
    s.inv = true ∧ t.cIp = 50667#32 ∧ s.inLen.toNat < t.cIp.toNat ∧ t.inv = true ∧
    (after (step t)).cPhase = .seg ∧ (after (step t)).cT = 49152#32 := by decide
/-- C_ADVANCE at the end of the address space: the sum has 33 bits (log entry 1). -/
theorem test_advance_limit :
    (after (step { compJob .advance [] [] 0 with cIp := 0xFFFFFF00#32, cIi := 0xFFFF8000#32 })).cIp = 0xFFFFFFFF#32 := by
  decide
/-- C_PROBE at 8 of the `abcd` case: a hit on the empty entry, and the entry is recorded. -/
theorem test_probe :
    let t := after (step { compJob .probe abcd8 [] 99 with cIp := 8, cLl := 32, cIpend := 12 })
    t.cPhase = .matched ∧ t.cCand.toNat = 0 ∧ sparseGet t.ht 1917 = 8#16 := by decide
/-- C_MATCH of the `abcd` case: the run of 8 and the match of 12 at distance 8 (2.5). -/
theorem test_match :
    let t := after (step { compJob .matched abcd8 [] 99 with cIp := 8, cLl := 32, cIpend := 12 })
    outBytes t 0 12 = [0x05#8, 0x61#8, 0x62#8, 0x63#8, 0x64#8, 0x61#8, 0x62#8, 0x63#8, 0x64#8, 0x2A#8, 0x1C#8, 0#8] ∧
    t.cOp.toNat = 12 ∧ t.cIp.toNat = 20 ∧ t.cMlen.toNat = 12 ∧ t.cMoff.toNat = 8 ∧ t.cPhase = .probe := by decide
/-- C_PROBE past the limit: the segment ends (R139) with the 12 bytes after the match pending. -/
theorem test_segment_end :
    let t := after (step { compJob .probe abcd8 [] 99 with cIp := 20, cIi := 20, cLl := 32, cIpend := 12, cOp := 12 })
    t.cPhase = .seg ∧ t.cT.toNat = 12 ∧ t.cPos.toNat = 32 ∧ t.cRem.toNat = 0 := by decide
/-- C_FLUSH: a whole input of 3 bytes is a LIT_INIT (2.5). -/
theorem test_flush :
    outBytes (after (step (compJob .flush [0x61#8, 0x62#8, 0x63#8] [] 99))) 0 4 = [0x14#8, 0x61#8, 0x62#8, 0x63#8] := by
  decide
/-- C_FLUSH: 2 bytes after an M2 `60 00` patch its s-bits (2.3). -/
theorem test_flush_patch :
    outBytes (after (step (compJob .flush [7#8, 8#8] [0x60#8, 0x00#8] 99))) 0 4 = [0x62#8, 0x00#8, 7#8, 8#8] := by decide
/-- C_END: the empty input (L1.1). -/
theorem test_end :
    let t := after (step (compJob .finish [] [] 3))
    outBytes t 0 3 = [0x11#8, 0#8, 0#8] ∧ t.outLen = 3#32 ∧ t.statusErr = .ok ∧ t.statusDone = true := by decide
/-- C_END with 2 bytes of room (2.6). -/
theorem test_end_overflow :
    let t := after (step (compJob .finish [] [] 2))
    t.statusErr = .bufferOverflow ∧ t.outLen = 2#32 ∧ outBytes t 0 2 = [0x11#8, 0#8] := by decide

/-! ### The host's registers -/

/-- State.reset with the host's accesses `h` waiting. -/
def hosted (h : List HostAction) : State := { State.reset with host := h }

/-- START of a decompress job with IE (R260, R190). -/
theorem test_start :
    let t := after (step (hosted [.regWrite 4 0 7#32]))
    t.statusBusy = true ∧ t.ctrlMode = .dec ∧ t.ctrlIe = true ∧ t.dPhase = .start := by decide
/-- R261's example of a shared byte: ConfigError, and STATUS reads DONE with ERR = 6. -/
theorem test_config_error :
    let t := after (step { hosted [.regWrite 4 0 1#32] with
      inBase := 0x1000#32, inLen := 0x100#32, outBase := 0x10FF#32, outCap := 1#32 })
    t.statusErr = .configError ∧ readRegister 4 t = 0x62#32 := by decide

/-- R264, R296: an engine turn before a host access moves the engine, and the access waits. -/
theorem test_engineTurn :
    let t := after (step { compJob .advance abcd8 [] 99 with cIp := 164, cIi := 100, host := [.engineTurn, .regRead 4 4] })
    t.cIp.toNat = 167 ∧ t.cPhase = .probe ∧ t.host = [.regRead 4 4] := by decide
/-- C_MATCH of the `abcd` case with 10 bytes of room: the run fits, and one byte of the match's record (R257). -/
theorem test_match_overflow :
    let t := after (step { compJob .matched abcd8 [] 10 with cIp := 8, cLl := 32, cIpend := 12 })
    outBytes t 0 10 = [0x05#8, 0x61#8, 0x62#8, 0x63#8, 0x64#8, 0x61#8, 0x62#8, 0x63#8, 0x64#8, 0x2A#8] ∧
    t.statusErr = .bufferOverflow ∧ t.outLen = 10#32 ∧ t.inPos = 0#32 ∧ t.cMlen = 12#32 := by decide
/-- R27, R28: OUT_LEN is read at 0x18 and IN_POS at 0x1C. -/
theorem test_result_registers :
    let s := { State.reset with outLen := 5#32, inPos := 7#32 }
    (after (step { s with host := [.regRead 4 0x18] })).hostData = 5#32 ∧
    (after (step { s with host := [.regRead 4 0x1C] })).hostData = 7#32 := by decide
/-- R291: another instance's job whose input window shares this job's last output byte disturbs it; one byte further on does
not. -/
theorem test_overlap_while_running :
    let s := decJob .s0 [0x11#8, 0#8, 0#8] [] 0 4
    (after (step { s with host := [.otherStart ⟨0x10003#32, 1#32, 0#32, 0#32⟩] })).hazard = true ∧
    (after (step { s with host := [.otherStart ⟨0x10004#32, 1#32, 0#32, 0#32⟩] })).hazard = false := by decide
/-- R291: a job that starts on the windows of another instance's running job is disturbed; after that job's end it is not. -/
theorem test_overlap_at_start :
    let w : Windows := ⟨0x10#32, 4#32, 0x20#32, 4#32⟩
    let s := { State.reset with inBase := 0x23#32, inLen := 2#32, others := [w] }
    (after (step { s with host := [.regWrite 4 0 1#32] })).hazard = true ∧
    (after (step { (after (step { s with host := [.otherEnd w] })) with host := [.regWrite 4 0 1#32] })).hazard = false := by
  decide

/-! ### Witnesses: for each statement with hypotheses, a case that meets them -/

theorem witness_DecodeInvertsEncode :
    (Instr.m4Long 300 0xBFFF 3).wf = true ∧ (Instr.m4Long 300 0xBFFF 3).metIn (.fetch .s1) = true ∧
    (Instr.eof 1 0 3).wf = true ∧ (Instr.eof 1 0 3).metIn .start = true := by decide
theorem witness_EncodeInvertsDecode : decode (.fetch .s0) [0x12#8, 0x05#8, 0#8, 9#8] = .ok (.m4 4 16385 1) 3 := by decide
theorem witness_OnlyShortInputFailsToDecode : decode .start [0x10#8, 0#8] = .error .missingContinuation := by decide
theorem witness_ContinuationAddsUp : (255#8 : Byte) ≠ 0#8 := by decide
theorem witness_LengthsFitAccumulator_match :
    [0x20#8, 1#8, 0#8, 0#8].length < 2 ^ 32 ∧
    decode (.fetch .s0) [0x20#8, 1#8, 0#8, 0#8] = .ok (.m3Long 34 1 0) 4 ∧
    matchOperands (.m3Long 34 1 0) = some (34, 1, 0) := by decide
theorem witness_LengthsFitAccumulator_literal :
    [0#8, 0#8, 1#8].length < 2 ^ 32 ∧ decode (.fetch .s0) [0#8, 0#8, 1#8] = .ok (.litLong 274) 3 ∧
    literalOperand (.litLong 274) = some 274 := by decide
theorem witness_EmittedBytesAreTheirRecords :
    4 ≤ 4 ∧ 1 ≤ 0xBFFF ∧ 0xBFFF ≤ 0xBFFF ∧ 3 ≤ 3 ∧ matchBytes 4 0xBFFF = [0x1A#8] ++ [0xFC#8, 0xFF#8] := by decide

theorem witness_StepRunsTheDecodedRecord_fetch :
    running .dec (decJob .s4 [0x68#8, 0#8] [] 0 9) ∧ (decJob .s4 [0x68#8, 0#8] [] 0 9).dPhase = .fetch ∧
    decode (.fetch .s4) (streamLeft (decJob .s4 [0x68#8, 0#8] [] 0 9)) = .ok (.m2 4 3 0) 2 := by decide
theorem witness_StepRunsTheDecodedRecord_litInit :
    let s := { decJob .s0 [18#8, 1#8] [] 0 9 with dPhase := .start }
    running .dec s ∧ s.dPhase = .start ∧ decode .start (streamLeft s) = .ok (.litInit 1) 1 := by decide
theorem witness_StepRunsTheDecodedRecord_start :
    let s := { decJob .s0 [17#8, 0#8, 0#8] [] 0 9 with dPhase := .start }
    running .dec s ∧ s.dPhase = .start ∧ ∀ m n, decode .start (streamLeft s) ≠ .ok (.litInit m) n := by
  refine ⟨by decide, by decide, fun m n => ?_⟩
  rw [show decode .start (streamLeft _) = .ok (.eof 1 0 0) 3 by decide]
  simp
theorem witness_StepRunsTheDecodedRecord_engineTurn :
    { decJob .s4 [0x68#8, 0#8] [] 3 9 with host := [.engineTurn, .resetSignal] }.host = [.engineTurn, .resetSignal] := by
  decide
theorem witness_ShortHeaderIsTruncatedInput :
    let s := decJob .s0 [0x22#8, 0#8] [] 0 9
    running .dec s ∧ s.hazard = false ∧ s.dPhase = .fetch ∧ s.dIp.toNat ≤ s.inLen.toNat ∧
    decode (.fetch s.dState) (streamLeft s) = .error .missingDistance := by decide

theorem witness_LitInitCompletes : literalFits 1 2 (decJob .s0 [19#8, 1#8, 2#8] [] 0 2) := by decide
theorem witness_LiteralRunsComplete :
    literalFits 1 4 (decJob .s0 [1#8, 1#8, 2#8, 3#8, 4#8] [] 0 4) ∧
    literalFits (1 + extLen (19 - 18)) 19 (decJob .s0 (0#8 :: 1#8 :: List.replicate 19 7#8) [] 0 19) := by decide
theorem witness_ShortMatchesComplete :
    matchFits 2 2 1 1 (decJob .s1 [1#8, 0#8, 9#8] [7#8] 1 4) ∧
    matchFits 2 3 2049 0 (decJob .s4 [0#8, 0#8] [7#8] 2049 2052) := by decide
theorem witness_M2Completes : matchFits 2 4 3 0 (decJob .s0 [0x68#8, 0#8] [1#8, 2#8, 3#8] 3 7) := by decide
theorem witness_M3MatchesComplete :
    matchFits 3 12 5 0 (decJob .s0 [0x2A#8, 0x10#8, 0#8] [] 5 17) ∧
    matchFits (3 + extLen (34 - 33)) 34 1 0 (decJob .s0 [0x20#8, 1#8, 0#8, 0#8] [] 1 35) := by decide
theorem witness_M4MatchesComplete :
    matchFits 3 4 16385 0 (decJob .s0 [0x12#8, 4#8, 0#8] [] 16385 16389) ∧
    matchFits (3 + extLen (10 - 9)) 10 0xBFFF 0 (decJob .s0 [0x18#8, 1#8, 0xFC#8, 0xFF#8] [] 0xBFFF 0xC009) := by decide
theorem witness_EofCompletes :
    let s := decJob .s0 [0x11#8, 0#8, 0#8] [] 0 0
    s.hazard = false ∧ placementOk s = true ∧ s.dIp.toNat + headerLen (.eof 1 0 0) = s.inLen.toNat ∧
    s.dOp.toNat = s.outCap.toNat := by decide
theorem witness_EofErrors_trailing :
    let s := decJob .s0 [0x11#8, 0#8, 0#8, 0#8] [] 0 0
    s.hazard = false ∧ placementOk s = true ∧ s.ctrlMode = .dec ∧ s.dIp.toNat + headerLen (.eof 1 0 0) < s.inLen.toNat := by
  decide
theorem witness_EofErrors_mismatch :
    let s := decJob .s0 [0x11#8, 0#8, 0#8] [] 0 1
    s.hazard = false ∧ placementOk s = true ∧ s.ctrlMode = .dec ∧ s.dIp.toNat + headerLen (.eof 1 0 0) = s.inLen.toNat ∧
    s.dOp.toNat ≠ s.outCap.toNat := by decide
theorem witness_EofErrors_short :
    let s := decJob .s0 [0x11#8, 0#8] [] 0 0
    s.hazard = false ∧ placementOk s = true ∧ s.ctrlMode = .dec ∧ s.inLen.toNat < s.dIp.toNat + headerLen (.eof 1 0 0) := by
  decide
theorem witness_LiteralErrors_short :
    let s := decJob .s0 [0#8] [] 0 19
    literalOperand (.litLong 19) = some 19 ∧ s.hazard = false ∧ placementOk s = true ∧ s.ctrlMode = .dec ∧
    s.inLen.toNat < s.dIp.toNat + headerLen (.litLong 19) := by decide
theorem witness_LiteralErrors_overflow :
    let s := decJob .s0 [1#8, 1#8, 2#8, 3#8, 4#8] [] 0 3
    literalOperand (.litShort 4) = some 4 ∧ s.hazard = false ∧ placementOk s = true ∧ s.ctrlMode = .dec ∧
    s.dIp.toNat + headerLen (.litShort 4) ≤ s.inLen.toNat ∧ s.outCap.toNat < s.dOp.toNat + 4 := by decide
theorem witness_LiteralErrors_truncated :
    let s := decJob .s0 [1#8, 1#8, 2#8, 3#8] [] 0 4
    literalOperand (.litShort 4) = some 4 ∧ s.hazard = false ∧ placementOk s = true ∧ s.ctrlMode = .dec ∧
    s.dIp.toNat + headerLen (.litShort 4) ≤ s.inLen.toNat ∧ s.dOp.toNat + 4 ≤ s.outCap.toNat ∧
    s.inLen.toNat < s.dIp.toNat + headerLen (.litShort 4) + 4 := by decide
theorem witness_MatchErrors_short :
    let s := decJob .s0 [0x68#8] [] 3 9
    matchOperands (.m2 4 3 0) = some (4, 3, 0) ∧ s.hazard = false ∧ placementOk s = true ∧ s.ctrlMode = .dec ∧
    s.inLen.toNat < s.dIp.toNat + headerLen (.m2 4 3 0) := by decide
theorem witness_MatchErrors_lookbehind :
    let s := decJob .s0 [0x68#8, 0#8] [] 2 9
    matchOperands (.m2 4 3 0) = some (4, 3, 0) ∧ s.hazard = false ∧ placementOk s = true ∧ s.ctrlMode = .dec ∧
    s.dIp.toNat + headerLen (.m2 4 3 0) ≤ s.inLen.toNat ∧ s.dOp.toNat < 3 := by decide
theorem witness_MatchErrors_overflow :
    let s := decJob .s0 [0x68#8, 0#8] [] 3 6
    matchOperands (.m2 4 3 0) = some (4, 3, 0) ∧ s.hazard = false ∧ placementOk s = true ∧ s.ctrlMode = .dec ∧
    s.dIp.toNat + headerLen (.m2 4 3 0) ≤ s.inLen.toNat ∧ 3 ≤ s.dOp.toNat ∧ s.outCap.toNat < s.dOp.toNat + 4 := by decide
theorem witness_TrailingLiteralErrors :
    let s := decJob .s0 [0x69#8, 0#8, 1#8] [] 3 7
    let u := decJob .s0 [0x69#8, 0#8] [] 3 8
    matchOperands (.m2 4 3 1) = some (4, 3, 1) ∧
    (s.hazard = false ∧ placementOk s = true ∧ s.ctrlMode = .dec ∧ 1 ≤ 1 ∧
      s.dIp.toNat + headerLen (.m2 4 3 1) ≤ s.inLen.toNat ∧ 3 ≤ s.dOp.toNat ∧ s.dOp.toNat + 4 ≤ s.outCap.toNat ∧
      s.outCap.toNat < s.dOp.toNat + 4 + 1) ∧
    (u.hazard = false ∧ placementOk u = true ∧ u.ctrlMode = .dec ∧
      u.dIp.toNat + headerLen (.m2 4 3 1) ≤ u.inLen.toNat ∧ 3 ≤ u.dOp.toNat ∧ u.dOp.toNat + 4 + 1 ≤ u.outCap.toNat ∧
      u.inLen.toNat < u.dIp.toNat + headerLen (.m2 4 3 1) + 1) := by decide
theorem witness_LiteralCopyCopiesInput :
    let s := decJob .s0 [1#8, 2#8] [] 0 2
    Memory.wf s.mem = true ∧ placementOk s = true ∧ 1 ≤ 2 ∧ s.outCap.toNat < s.dOp.toNat + 3 ∧
    s.dOp.toNat + 2 ≤ s.outCap.toNat ∧ s.dIp.toNat + 2 ≤ s.inLen.toNat ∧
    (decJob .s0 [1#8] [] 0 2).dOp.toNat + 2 ≤ (decJob .s0 [1#8] [] 0 2).outCap.toNat ∧
    (decJob .s0 [1#8] [] 0 2).inLen.toNat < (decJob .s0 [1#8] [] 0 2).dIp.toNat + 2 := by decide
theorem witness_MatchCopyOverlaps :
    let s := decJob .s0 [] [9#8] 1 3
    Memory.wf s.mem = true ∧ placementOk s = true ∧ 1 ≤ 1 ∧ 2 ≤ 2 ∧ s.dOp.toNat < 2 ∧ 1 ≤ s.dOp.toNat ∧
    s.outCap.toNat < s.dOp.toNat + 3 ∧ s.dOp.toNat + 2 ≤ s.outCap.toNat := by decide
theorem witness_MatchCopyIsPeriodic :
    let s := decJob .s0 [] [9#8] 1 3
    Memory.wf s.mem = true ∧ placementOk s = true ∧ 1 ≤ 1 ∧ ∃ t, matchCopy 1 2 s = .ok t :=
  ⟨by decide, by decide, by decide, _, rfl⟩
/-- L1.15's length 6 as 4 + 2, and a last group as long as the others at the end of the address space. -/
theorem witness_GroupCopyEquivalent :
    Memory.wf (decJob .s0 [] [9#8] 1 3).mem = true ∧ 4 ≤ 4 ∧ 2 ≤ 4 ∧ 4 ≤ 0x10004 ∧
    0x10004 + (1 * 4 + 2) ≤ Config.addrSpace ∧ 0xFFFFFFF8 + (1 * 4 + 4) ≤ Config.addrSpace := by decide
theorem witness_LiteralFrame :
    let s := decJob .s0 [1#8, 1#8, 2#8, 3#8, 4#8] [] 0 4
    literalOperand (.litShort 4) = some 4 ∧ s.hazard = false ∧ goesOn (exec (.litShort 4) s) = true := by decide
theorem witness_MatchFrame :
    let s := decJob .s0 [0x68#8, 0#8] [] 3 7
    matchOperands (.m2 4 3 0) = some (4, 3, 0) ∧ s.hazard = false ∧ goesOn (exec (.m2 4 3 0) s) = true := by decide
theorem witness_EofFrame :
    let s := decJob .s0 [0x11#8, 0#8, 0#8] [] 0 0
    s.hazard = false ∧ goesOn (exec (.eof 1 0 0) s) = true := by decide

theorem witness_JobEndWritesStatus :
    let s := decJob .s0 [] [] 0 0
    let u := compJob .seg [] [] 0
    s.hazard = false ∧ s.ctrlMode = .dec ∧ u.hazard = false ∧ u.ctrlMode = .comp ∧
    ErrCode.bufferOverflow ≠ .ok ∧ ErrCode.bufferOverflow ≠ .configError := by decide
theorem witness_DisturbedJobEndStaysInItsWindow : { decJob .s0 [] [] 0 0 with hazard := true }.hazard = true := by decide
theorem witness_StartBeginsJob :
    let s := hosted [.regWrite 4 0 1#32]
    s.host = [.regWrite 4 0 1#32] ∧ s.statusBusy = false ∧ (1#32).getLsbD 0 = true ∧ (3#32).getLsbD 0 = true ∧
    placementOk s = true ∧ windowOnDevice s = false ∧ (1#32).getLsbD 1 = false ∧ (3#32).getLsbD 1 = true := by decide
theorem witness_StartRefusesBadWindows :
    let s := { hosted [.regWrite 4 0 1#32] with inBase := 0xFFFFFFFF#32, inLen := 2#32 }
    s.host = [.regWrite 4 0 1#32] ∧ s.statusBusy = false ∧ (1#32).getLsbD 0 = true ∧ placementOk s = false := by decide
theorem witness_BusyIgnoresRegisterWrites :
    let s := { decJob .s0 [] [] 0 0 with host := [.regWrite 4 0x3C 5#32] }
    s.host = [.regWrite 4 0x3C 5#32] ∧ s.statusBusy = true ∧ 0x3C < 0x40 ∧ 0x3C % 4 = 0 := by decide
/-- Each argument register, and the first and last of the offsets that ignore writes. -/
theorem witness_ArgumentRegistersHoldWrites :
    [0x08, 0x0C, 0x10, 0x14, 0x18, 0x3C].all (fun offset =>
      let s := hosted [.regWrite 4 offset 5#32]
      decide (s.host = [.regWrite 4 offset 5#32]) && !s.statusBusy && decide (offset < 0x40) && decide (offset % 4 = 0)) =
      true ∧
    0x18 ≤ 0x18 ∧ 0x18 ≤ 0x3C := by decide
theorem witness_RegisterReadsReturnTheirFields :
    (hosted [.regRead 4 0x3C]).host = [.regRead 4 0x3C] ∧ 0x3C < 0x40 ∧ 0x3C % 4 = 0 ∧ 0x20 ≤ 0x20 := by decide
/-- A write of STATUS with DONE set, and one of CTRL without START. -/
theorem witness_DoneIsWriteOneToClear :
    let s := { hosted [.regWrite 4 0x04 2#32] with statusDone := true }
    let u := { hosted [.regWrite 4 0x00 6#32] with statusDone := true }
    s.host = [.regWrite 4 0x04 2#32] ∧ s.statusBusy = false ∧
    u.host = [.regWrite 4 0x00 6#32] ∧ u.statusBusy = false ∧ (6#32).getLsbD 0 = false := by decide
theorem witness_OddRegisterAccessRefused :
    0x3E < 0x40 ∧ ¬(4 = 4 ∧ 0x3E % 4 = 0) ∧ ¬(2 = 4 ∧ 0 % 4 = 0) ∧
    (hosted [.regWrite 4 0x3E 0#32]).host = [.regWrite 4 0x3E 0#32] ∧ (hosted [.regRead 2 0]).host = [.regRead 2 0] := by
  decide
theorem witness_OtherAgentsAccessMemory :
    let s := { decJob .s0 [] [] 0 1 with host := [.memWrite 0x10000#32 5#8] }
    let u := { decJob .s0 [] [] 0 1 with host := [.memRead 0x10001#32] }
    Memory.wf s.mem = true ∧ s.devices.any (fun d => inRange d.base d.size (0x10000#32).toNat) = false ∧
    s.host = [.memWrite 0x10000#32 5#8] ∧ u.host = [.memRead 0x10001#32] ∧
    inOutputWindow u (0x10001#32).toNat = false := by decide
/-- Another's job that begins while this core is busy and while it is idle, one that ends, and START with another's job on
the windows and off them. -/
theorem witness_OverlappingJobsAreDisturbed :
    let w : Windows := ⟨0x10003#32, 1#32, 0#32, 0#32⟩
    let s := { decJob .s0 [] [] 0 4 with host := [.otherStart w] }
    let u := { State.reset with outBase := 0x10000#32, outCap := 4#32, others := [w], host := [.regWrite 4 0 1#32] }
    s.host = [.otherStart w] ∧ (hosted [.otherStart w]).host = [.otherStart w] ∧ (hosted [.otherEnd w]).host = [.otherEnd w] ∧
    sharesByte s w = true ∧ inOutputWindow s 0x10003 = true ∧ inRange w.inBase.toNat w.inLen.toNat 0x10003 = true ∧
    u.host = [.regWrite 4 0 1#32] ∧ u.statusBusy = false ∧ (1#32).getLsbD 0 = true ∧ placementOk u = true ∧
    windowOnDevice u = false ∧ w ∈ u.others ∧ sharesByte u w = true ∧ sharesByte { u with outCap := 3#32 } w = false := by
  decide
theorem witness_IdleCoreKeepsState : State.reset.host = [] ∧ State.reset.statusBusy = false := by decide
theorem witness_ResetSignalAbandonsJob :
    let s := { decJob .s0 [] [] 0 1 with host := [.resetSignal] }
    let u := { s with hazard := true }
    s.host = [.resetSignal] ∧ s.hazard = false ∧ u.host = [.resetSignal] ∧ u.statusBusy = true := by decide

/-- 20 bytes left; 21 left, nothing carried; 21 left and 11 carried. -/
theorem witness_SegmentPhase :
    let s := compJob .seg (List.replicate 20 1#8) [] 9
    let u := compJob .seg (List.replicate 21 1#8) [] 9
    let v := { u with cT := 11 }
    running .comp s ∧ running .comp u ∧ running .comp v ∧ s.cPhase = .seg ∧ s.cRem.toNat ≤ 20 ∧
    20 < u.cRem.toNat ∧ u.cT.toNat + min u.cRem.toNat 49152 < 32 ∧ 20 < v.cRem.toNat ∧
    32 ≤ v.cT.toNat + min v.cRem.toNat 49152 := by decide
theorem witness_AdvancePhase : running .comp (compJob .advance [] [] 9) ∧ (compJob .advance [] [] 9).cPhase = .advance := by
  decide
theorem witness_ProbePhase :
    let s := { compJob .probe abcd8 [] 99 with cIp := 8, cLl := 32, cIpend := 12 }
    let u := { s with cIp := 12 }
    running .comp s ∧ running .comp u ∧ s.cPhase = .probe ∧ segmentOk s = true ∧ segmentOk u = true ∧
    HashTable.wf s.ht = true ∧ u.cIpend.toNat ≤ u.cIp.toNat ∧ s.cIp.toNat < s.cIpend.toNat ∧
    s.cPos.toNat + (sparseGet s.ht (hashIndex (le32 s s.cIp.toNat))).toNat < s.cIp.toNat := by decide
/-- The clamp at 12, and at 20 where it does not fire at 12; a difference past the limit in the chunk at 4, and one in the first
chunk of a pair (R140). -/
theorem witness_ExtensionFindsEqualBytes :
    let s := { compJob .matched abcd8 [] 99 with cIp := 8, cLl := 32, cIpend := 12 }
    let u := { compJob .matched (abcd8 ++ abcd8) [] 99 with cIp := 8, cIpend := 21 }
    let v := { compJob .matched (abcd8.take 13 ++ 0#8 :: abcd8) [] 99 with cIp := 8, cIpend := 12 }
    let w := { compJob .matched (abcd8.take 17 ++ 0#8 :: abcd8) [] 99 with cIp := 8, cIpend := 12 }
    le32 s s.cCand.toNat = le32 s s.cIp.toNat ∧ s.cIp.toNat < s.cIpend.toNat ∧ extend s = 4 + 8 * 1 ∧
    extend u = 4 + 8 * 2 ∧ u.cIp.toNat + (4 + 8 * 1) < u.cIpend.toNat ∧
    extend v = 5 ∧ v.cIpend.toNat ≤ v.cIp.toNat + extend v ∧ extend w = 9 := by decide
theorem witness_MatchPhaseEmitsRecords :
    let s := { compJob .matched abcd8 [] 99 with cIp := 8, cLl := 32, cIpend := 12 }
    running .comp s ∧ s.cPhase = .matched ∧ s.inv = true ∧ 4 ≤ s.cIp.toNat - (s.cIi.toNat - s.cT.toNat) ∧
    s.cOp.toNat + (literalTag 8 ++ inBytes s 0 8 ++ matchBytes (extend s) 8).length ≤ s.outCap.toNat := by decide
theorem witness_MatchPhaseEmitsRecords_none :
    let s := { compJob .matched abcd8 [0x60#8, 0#8] 99 with cIp := 8, cIi := 8, cLl := 32, cIpend := 12 }
    running .comp s ∧ s.cPhase = .matched ∧ s.inv = true ∧ s.cIp.toNat - (s.cIi.toNat - s.cT.toNat) = 0 ∧
    s.cOp.toNat + (matchBytes (extend s) 8).length ≤ s.outCap.toNat := by decide
theorem witness_PendingLiteralsPatchStateByte_match :
    let s := { compJob .matched abcd8 [0x60#8, 0#8] 8 with cIp := 8, cIi := 5, cLl := 32, cIpend := 12 }
    s.inv = true ∧ running .comp s ∧ s.cPhase = .matched ∧ s.cIp.toNat - (s.cIi.toNat - s.cT.toNat) = 3 ∧
    s.cOp.toNat + (inBytes s 5 3 ++ matchBytes (extend s) 8).length ≤ s.outCap.toNat := by decide
theorem witness_PendingLiteralsPatchStateByte_flush :
    let s := compJob .flush [7#8, 8#8, 9#8] [0x60#8, 0#8] 5
    s.inv = true ∧ running .comp s ∧ s.cPhase = .flush ∧ s.cOp.toNat ≠ 0 ∧ s.cT.toNat + s.cRem.toNat = 3 ∧
    s.cOp.toNat + 3 ≤ s.outCap.toNat := by decide
theorem witness_FlushPhaseEmitsFinalRun :
    let s := compJob .flush [7#8] [] 2
    let u := compJob .flush [1#8, 2#8, 3#8, 4#8] [0x60#8, 0#8] 7
    let v := compJob .flush [] [] 0
    running .comp s ∧ s.cPhase = .flush ∧ s.inv = true ∧ s.cOp.toNat = 0 ∧ s.cOp.toNat + 2 ≤ s.outCap.toNat ∧
    running .comp u ∧ u.inv = true ∧ 4 ≤ u.cT.toNat + u.cRem.toNat ∧ u.cOp.toNat + 5 ≤ u.outCap.toNat ∧
    running .comp v ∧ v.inv = true ∧ v.cT.toNat + v.cRem.toNat = 0 ∧ v.cOp.toNat + 0 ≤ v.outCap.toNat := by decide
theorem witness_EndPhaseWritesMarker :
    let s := compJob .finish [] [] 3
    running .comp s ∧ s.cPhase = .finish ∧ s.hazard = false ∧ Memory.wf s.mem = true ∧ s.cOp.toNat + 3 ≤ s.outCap.toNat := by
  decide
theorem witness_PutChecksCapacity :
    Memory.wf (compJob .finish [] [] 0).mem = true ∧
    (compJob .finish [] [] 0).outCap.toNat ≤ (compJob .finish [] [] 0).cOp.toNat ∧
    (compJob .finish [] [] 1).cOp.toNat < (compJob .finish [] [] 1).outCap.toNat := by decide
theorem witness_CompressorFailsOnlyWhenFull :
    let s := compJob .finish [] [] 2
    running .comp s ∧ s.inv = true ∧ s.hazard = false ∧ goesOn (step s) = true ∧
    (after (step s)).statusBusy = false ∧ s.cPhase = .finish ∧ s.outCap.toNat < s.cOp.toNat + 3 := by decide
/-- C_MATCH with no room for the literals, with room for them alone, and with no room after the patch of 3 literals. -/
theorem witness_CompressorFailsOnlyWhenFull_match :
    let s := { compJob .matched abcd8 [] 4 with cIp := 8, cLl := 32, cIpend := 12 }
    let u := { s with outCap := 9#32 }
    let v := { compJob .matched abcd8 [0x60#8, 0#8] 2 with cIp := 8, cIi := 5, cLl := 32, cIpend := 12 }
    running .comp s ∧ s.inv = true ∧ s.hazard = false ∧ s.outCap.toNat < s.cOp.toNat + (runBytes s 0 8).length ∧
    running .comp u ∧ u.inv = true ∧ ¬ u.outCap.toNat < u.cOp.toNat + (runBytes u 0 8).length ∧
    u.outCap.toNat < u.cOp.toNat + (runBytes u 0 8 ++ matchBytes (extend u) 8).length ∧
    running .comp v ∧ v.inv = true ∧ v.cIp.toNat - (v.cIi.toNat - v.cT.toNat) = 3 ∧
    v.outCap.toNat < v.cOp.toNat + (runBytes v 5 3 ++ matchBytes (extend v) 8).length := by decide
/-- C_FLUSH with no room for a LIT_INIT, for 2 literals after a patch, for a LIT_SHORT. -/
theorem witness_CompressorFailsOnlyWhenFull_flush :
    let s := compJob .flush [7#8] [] 1
    let u := compJob .flush [7#8, 8#8] [0x60#8, 0#8] 3
    let v := compJob .flush [1#8, 2#8, 3#8, 4#8] [0x60#8, 0#8] 2
    running .comp s ∧ s.inv = true ∧ s.cPhase = .flush ∧ s.outCap.toNat < s.cOp.toNat + (finalRunBytes s 1).length ∧
    running .comp u ∧ u.inv = true ∧ u.outCap.toNat < u.cOp.toNat + (finalRunBytes u 2).length ∧
    running .comp v ∧ v.inv = true ∧ v.outCap.toNat < v.cOp.toNat + (finalRunBytes v 4).length := by decide

theorem witness_EveryStepKeepsInvariant :
    let s := decJob .s0 [0x68#8, 0#8] [] 3 7
    s.inv = true ∧ goesOn (step s) = true := by decide
theorem witness_NoStepFaults : { State.reset with host := [.memWrite 5#32 6#8] }.inv = true := by decide
theorem witness_EnginesWriteOnlyOutputWindow :
    let s := decJob .s0 [0x68#8, 0#8] [] 3 7
    s.inv = true ∧ s.host = [] ∧ goesOn (step s) = true ∧ inOutputWindow s 0x10007 = false := by decide
theorem witness_DecoderOutputOnlyGrows :
    let s := decJob .s0 [0x68#8, 0#8] [] 3 7
    running .dec s ∧ s.inv = true ∧ s.hazard = false ∧ goesOn (step s) = true := by decide
theorem witness_DecompressJobEnds :
    let s := decJob .s0 [0x68#8, 0#8] [] 3 7
    let u := { decJob .s0 [0x11#8, 0#8, 0#8] [] 0 7 with dPhase := .start }
    running .dec s ∧ s.inv = true ∧ s.dPhase = .fetch ∧ running .dec u ∧ u.inv = true ∧ u.dPhase = .start := by decide
theorem witness_EveryJobEnds :
    (compJob .seg abcd8 [] 99).inv = true ∧ (compJob .seg abcd8 [] 99).host = [] := by decide
theorem witness_JobsDoNotSeeEarlierJobs :
    let t := { State.reset with cPos := 7, dIp := 9, ht := [(3, 4#16)] }
    State.reset.statusBusy = false ∧ t.statusBusy = false ∧ outsideView State.reset = outsideView t := by decide

end Sys2Proof.Tests
end

section
/-! PROOFS. The register block (10_state.md): what a register access answers, and the obligations O33 to O37 and O52. -/

open Sys2Proof Sys2Proof.Machine

namespace Sys2Proof.Machine

/-! ### The next event -/

/-- A waiting event is the next step (R264, R296). -/
theorem step_of_host {s : State} {a : HostAction} {rest : List HostAction} (h : s.host = a :: rest) :
    step s = hostStep a { s with host := rest } := by
  simp only [step, machineStep, h]

/-- With no event waiting the step is the engine's (R264). -/
theorem step_of_no_host {s : State} (h : s.host = []) : step s = engineStep s := by
  simp only [step, machineStep, h]

/-- An aligned 32-bit access inside the block has its meaning (R30). -/
theorem registerAccess_aligned {offset : Nat} (r : Result) (hlt : offset < 0x40) (hal : offset % 4 = 0) :
    registerAccess 4 offset r = r := by
  simp [registerAccess, hal, Nat.not_le.2 hlt]

/-- An access inside the block of another width or alignment is refused (R30). -/
theorem registerAccess_odd {width offset : Nat} (r : Result) (hlt : offset < 0x40)
    (hodd : ¬(width = 4 ∧ offset % 4 = 0)) : registerAccess width offset r = .refused .registerAccessForm := by
  simp only [registerAccess, Nat.not_le.2 hlt, if_false, hodd]

/-- An aligned register write as a step. -/
theorem step_regWrite {s : State} {offset : Nat} {v : Word} {rest : List HostAction}
    (h : s.host = .regWrite 4 offset v :: rest) (hlt : offset < 0x40) (hal : offset % 4 = 0) :
    step s = writeRegister offset v { s with host := rest } := by
  rw [step_of_host h]
  exact registerAccess_aligned _ hlt hal

/-! ### Register writes -/

/-- While a job runs a write of STATUS changes nothing (R30). -/
theorem writeStatus_busy (v : Word) (s : State) (hb : s.statusBusy = true) : writeStatus v s = s := by
  simp only [writeStatus, hb, Bool.not_true, Bool.and_false, Bool.false_eq_true, if_false]

/-- While a job runs a register write reaches CTRL.IE alone (R30, R292). -/
theorem writeRegister_busy (offset : Nat) (v : Word) (s : State) (hb : s.statusBusy = true) :
    writeRegister offset v s = .next { s with ctrlIe := if offset = 0 then v.getLsbD 2 else s.ctrlIe } := by
  by_cases h0 : offset = 0
  · subst h0
    exact if_pos hb
  · rw [if_neg h0]
    unfold writeRegister
    split
    case h_1 => exact absurd rfl h0
    case h_2 => rw [writeStatus_busy v s hb]
    case h_7 => rfl
    all_goals rw [if_pos hb]

/-- OUT_LEN, IN_POS and the unused offsets ignore writes (R27 to R29). -/
theorem writeRegister_ignored {offset : Nat} (v : Word) (s : State) (h : 0x18 ≤ offset) :
    writeRegister offset v s = .next s := by
  unfold writeRegister
  split
  case h_7 => rfl
  all_goals omega

/-- A write of CTRL without START, and with no job, sets MODE and IE (R21, R260). -/
theorem writeCtrl_noStart (v : Word) (s : State) (hb : s.statusBusy = false) (hv : v.getLsbD 0 = false) :
    writeCtrl v s = .next { s with ctrlMode := modeOfBit (v.getLsbD 1), ctrlIe := v.getLsbD 2 } := by
  simp only [writeCtrl, hb, hv, Bool.false_eq_true, if_false]

/-- With no job a write of STATUS clears DONE where bit 1 is set, and changes nothing else (R22, R262). -/
theorem writeStatus_idle (v : Word) (s : State) (hb : s.statusBusy = false) :
    writeStatus v s = { s with statusDone := s.statusDone && !v.getLsbD 1 } := by
  cases hv : v.getLsbD 1
  · simp only [writeStatus, hv, Bool.false_and, Bool.false_eq_true, if_false, Bool.not_false, Bool.and_true]
  · simp only [writeStatus, hv, hb, Bool.not_false, Bool.and_true, if_true, Bool.not_true, Bool.and_false]

/-! ### CTRL and STATUS as read -/

/-- The codes of R251 are 0 to 6, so ERR's highest bit reads 0. -/
theorem ErrCode.code_lt (e : ErrCode) : e.code < 8 := by
  cases e <;> decide

/-- A number below `2 ^ k` has no bit from `k` on. -/
theorem testBit_of_lt_two_pow_of_le {x k n : Nat} (hx : x < 2 ^ k) (hn : k ≤ n) : x.testBit n = false :=
  Nat.testBit_lt_two_pow (Nat.lt_of_lt_of_le hx (Nat.pow_le_pow_right (by omega) hn))

theorem ctrlWord_getLsbD (s : State) (n : Nat) :
    (ctrlWord s).getLsbD n = ((decide (n = 1) && decide (s.ctrlMode = .dec)) || (decide (n = 2) && s.ctrlIe)) := by
  rw [ctrlWord, BitVec.getLsbD_ofNat]
  generalize decide (s.ctrlMode = .dec) = mode
  generalize s.ctrlIe = ie
  rcases Nat.lt_or_ge n 3 with hn | hn
  · interval_cases n <;> cases mode <;> cases ie <;> decide
  · have hx : 2 * mode.toNat + 4 * ie.toNat < 2 ^ 3 := by have := mode.toNat_le; have := ie.toNat_le; omega
    have h1 : n ≠ 1 := by omega
    have h2 : n ≠ 2 := by omega
    simp [testBit_of_lt_two_pow_of_le hx hn, h1, h2]

theorem statusWord_getLsbD (s : State) (n : Nat) :
    (statusWord s).getLsbD n =
      ((decide (n = 0) && s.statusBusy) || (decide (n = 1) && s.statusDone) ||
        (decide (4 ≤ n) && decide (n < 8) && s.statusErr.code.testBit (n - 4))) := by
  have hlow : s.statusBusy.toNat + 2 * s.statusDone.toNat < 2 ^ 4 := by
    have := s.statusBusy.toNat_le; have := s.statusDone.toNat_le; omega
  have hword : s.statusBusy.toNat + 2 * s.statusDone.toNat + 16 * s.statusErr.code =
      2 ^ 4 * s.statusErr.code + (s.statusBusy.toNat + 2 * s.statusDone.toNat) := by omega
  rw [statusWord, BitVec.getLsbD_ofNat, hword, Nat.testBit_two_pow_mul_add _ hlow]
  rcases Nat.lt_or_ge n 4 with hn | hn
  · generalize s.statusBusy = busy
    generalize s.statusDone = done
    generalize s.statusErr.code = code
    have h4 : decide (4 ≤ n) = false := decide_eq_false (Nat.not_le.2 hn)
    simp only [hn, h4, if_true, Bool.false_and, Bool.or_false]
    interval_cases n <;> cases busy <;> cases done <;> decide
  · have h0 : n ≠ 0 := by omega
    have h1 : n ≠ 1 := by omega
    rcases Nat.lt_or_ge n 8 with hn8 | hn8
    · have h32 : n < 32 := by omega
      simp [Nat.not_lt.2 hn, hn, hn8, h0, h1, h32]
    · have hc : s.statusErr.code.testBit (n - 4) = false :=
        testBit_of_lt_two_pow_of_le (k := 3) s.statusErr.code_lt (by omega)
      simp [Nat.not_lt.2 hn, hc, h0, h1]

/-- The offsets past IN_POS read 0 (R29). -/
theorem readRegister_unused {offset : Nat} (s : State) (h : 0x20 ≤ offset) : readRegister offset s = 0#32 := by
  unfold readRegister
  split
  case h_9 => rfl
  all_goals omega

end Sys2Proof.Machine

namespace Sys2Proof

/-- Settles O33: a busy core's register write is `writeRegister_busy`. -/
theorem busyIgnoresRegisterWrites : Obligations.BusyIgnoresRegisterWrites := by
  intro s offset v rest h hb hlt hal
  rw [step_regWrite h hlt hal]
  exact writeRegister_busy offset v _ hb

/-- Settles O34: one clause for each argument register, then the offsets that ignore writes. -/
theorem argumentRegistersHoldWrites : Obligations.ArgumentRegistersHoldWrites := by
  intro s offset v rest h hb
  have hidle : ¬s.statusBusy = true := by simp only [hb, Bool.false_eq_true, not_false_eq_true]
  have hset : ∀ {o : Nat} {t : State}, o < 0x40 → o % 4 = 0 → writeRegister o v { s with host := rest } = .next t →
      offset = o → step s = .next t := by
    rintro o t hlt hal hw rfl
    rw [step_regWrite h hlt hal, hw]
  have h08 : offset = 0x08 → step s = .next { s with host := rest, inBase := v } :=
    hset (by decide) (by decide) (congrArg _ (if_neg hidle))
  have h0C : offset = 0x0C → step s = .next { s with host := rest, inLen := v } :=
    hset (by decide) (by decide) (congrArg _ (if_neg hidle))
  have h10 : offset = 0x10 → step s = .next { s with host := rest, outBase := v } :=
    hset (by decide) (by decide) (congrArg _ (if_neg hidle))
  have h14 : offset = 0x14 → step s = .next { s with host := rest, outCap := v } :=
    hset (by decide) (by decide) (congrArg _ (if_neg hidle))
  refine ⟨h08, h0C, h10, h14, ?_, ?_⟩
  · rintro (rfl | rfl | rfl | rfl)
    · exact ⟨_, h08 rfl, rfl⟩
    · exact ⟨_, h0C rfl, rfl⟩
    · exact ⟨_, h10 rfl, rfl⟩
    · exact ⟨_, h14 rfl, rfl⟩
  · intro hge hlt hal
    rw [step_regWrite h hlt hal]
    exact writeRegister_ignored v _ hge

/-- Settles O35: the read as a step, the bits of CTRL and STATUS, and the other registers by their offsets. -/
theorem registerReadsReturnTheirFields : Obligations.RegisterReadsReturnTheirFields := by
  refine ⟨?_, fun s n => ⟨ctrlWord_getLsbD s n, statusWord_getLsbD s n⟩, by decide, ?_⟩
  · intro s offset rest h hlt hal
    rw [step_of_host h]
    exact registerAccess_aligned _ hlt hal
  · exact fun s => ⟨rfl, rfl, rfl, rfl, rfl, rfl, fun offset h => readRegister_unused s h⟩

/-- Settles O36: the writes of STATUS and of CTRL without START, and irq of what they leave. -/
theorem doneIsWriteOneToClear : Obligations.DoneIsWriteOneToClear := by
  refine ⟨fun s => by simp [irq], ?_, ?_⟩
  · intro s v rest h hb
    refine ⟨_, ?_, rfl, by simp only [irq, Bool.and_right_comm]⟩
    rw [step_regWrite h (by decide) (by decide)]
    exact congrArg Host.Outcome.next (writeStatus_idle v _ hb)
  · intro s v rest h hb hv
    refine ⟨_, ?_, rfl, rfl⟩
    rw [step_regWrite h (by decide) (by decide)]
    exact writeCtrl_noStart v _ hb hv

/-- Settles O37: both forms of access meet `registerAccess_odd`. -/
theorem oddRegisterAccessRefused : Obligations.OddRegisterAccessRefused := by
  intro s width offset v rest hlt hodd
  constructor <;> intro h <;> rw [step_of_host h] <;> exact registerAccess_odd _ hlt hodd

/-- Settles O52: the reset state is a closed term. -/
theorem resetSatisfiesInvariant : Obligations.ResetSatisfiesInvariant := by
  unfold Obligations.ResetSatisfiesInvariant
  decide

end Sys2Proof
end

section
/-! PROOFS. The invariant in words: what `State.inv` says of a core with no job, of a decompress job and of a compress job;
how a rule that meets no fault ends; and that the end of a job leaves the invariant. -/

open Sys2Proof Sys2Proof.Machine

namespace Sys2Proof.Machine

/-! ### The invariant, by what the core does -/

/-- The invariant with no job running. -/
structure IdleInv (s : State) : Prop where
  memWf : Memory.wf s.mem = true
  htWf : HashTable.wf s.ht = true
  cIdle : s.cPhase = .idle
  dIdle : s.dPhase = .idle
  calm : s.hazard = false

/-- The invariant of a decompress job. -/
structure DecInv (s : State) : Prop where
  memWf : Memory.wf s.mem = true
  htWf : HashTable.wf s.ht = true
  notDone : s.statusDone = false
  placed : placementOk s = true
  cIdle : s.cPhase = .idle
  atWork : s.dPhase = .start ∨ s.dPhase = .fetch
  dIp_le : s.dIp.toNat ≤ s.inLen.toNat
  dOp_le : s.dOp.toNat ≤ s.outCap.toNat
  atStart : s.dPhase = .start → s.dIp.toNat = 0 ∧ s.dOp.toNat = 0

/-- The invariant of a compress job. -/
structure CompInv (s : State) : Prop where
  memWf : Memory.wf s.mem = true
  htWf : HashTable.wf s.ht = true
  notDone : s.statusDone = false
  placed : placementOk s = true
  atWork : s.cPhase ≠ .idle
  dIdle : s.dPhase = .idle
  cOp_le : s.cOp.toNat ≤ s.outCap.toNat
  cOp_ne : s.cOp.toNat ≠ 1
  total : s.cPos.toNat + s.cRem.toNat = s.inLen.toNat
  phase : phaseInv s = true

theorem inv_iff_idle {s : State} (hb : s.statusBusy = false) : s.inv = true ↔ IdleInv s := by
  simp only [State.inv, tablesInv, statusInv, jobInv, decoderInv, compressorInv, hb, Bool.and_eq_true, Bool.or_eq_true,
    Bool.not_eq_true', decide_eq_true_eq]
  constructor
  · rintro ⟨⟨⟨⟨⟨hm, hh⟩, ⟨-, hp⟩, hz⟩, -⟩, -⟩, -⟩
    obtain ⟨hc, hd⟩ := hp.resolve_left (by decide)
    exact ⟨hm, hh, hc, hd, hz.resolve_right (by decide)⟩
  · rintro ⟨hm, hh, hc, hd, hz⟩
    simp [hm, hh, hc, hd, hz]

theorem inv_iff_dec {s : State} (hb : s.statusBusy = true) (hmode : s.ctrlMode = .dec) : s.inv = true ↔ DecInv s := by
  simp only [State.inv, tablesInv, statusInv, jobInv, decoderInv, compressorInv, hb, hmode, Bool.and_eq_true,
    Bool.or_eq_true, Bool.not_eq_true', decide_eq_true_eq]
  constructor
  · rintro ⟨⟨⟨⟨⟨hm, hh⟩, ⟨hdone, -⟩, -⟩, hjob⟩, hdec⟩, -⟩
    obtain ⟨hp, hc, hw⟩ := hjob.resolve_left (by decide)
    obtain ⟨⟨hi, ho⟩, hstart⟩ := hdec.resolve_left (by decide)
    exact ⟨hm, hh, by simpa using hdone, hp, hc, hw, hi, ho, fun h => hstart.resolve_left fun hne => hne h⟩
  · rintro ⟨hm, hh, hdone, hp, hc, hw, hi, ho, hstart⟩
    simp [hm, hh, hdone, hp, hc, hw, hi, ho, imp_iff_not_or.1 hstart]

theorem inv_iff_comp {s : State} (hb : s.statusBusy = true) (hmode : s.ctrlMode = .comp) : s.inv = true ↔ CompInv s := by
  simp only [State.inv, tablesInv, statusInv, jobInv, decoderInv, compressorInv, hb, hmode, Bool.and_eq_true,
    Bool.or_eq_true, Bool.not_eq_true', decide_eq_true_eq]
  constructor
  · rintro ⟨⟨⟨⟨⟨hm, hh⟩, ⟨hdone, -⟩, -⟩, hjob⟩, -⟩, hcomp⟩
    obtain ⟨hp, hw, hd⟩ := hjob.resolve_left (by decide)
    obtain ⟨⟨⟨hcap, hne⟩, htotal⟩, hphase⟩ := hcomp.resolve_left (by decide)
    exact ⟨hm, hh, by simpa using hdone, hp, hw, hd, hcap, hne, htotal, hphase⟩
  · rintro ⟨hm, hh, hdone, hp, hw, hd, hcap, hne, htotal, hphase⟩
    simp [hm, hh, hdone, hp, hw, hd, hcap, hne, htotal, hphase]

/-- A running job has its windows placed, and DONE is 0 (R22, R261). -/
theorem inv_busy {s : State} (h : s.inv = true) (hb : s.statusBusy = true) :
    placementOk s = true ∧ s.statusDone = false := by
  cases hm : s.ctrlMode with
  | comp =>
    have hc := (inv_iff_comp hb hm).1 h
    exact ⟨hc.placed, hc.notDone⟩
  | dec =>
    have hd := (inv_iff_dec hb hm).1 h
    exact ⟨hd.placed, hd.notDone⟩

theorem inv_tables {s : State} (h : s.inv = true) : Memory.wf s.mem = true ∧ HashTable.wf s.ht = true := by
  simp only [State.inv, tablesInv, Bool.and_eq_true] at h
  exact h.1.1.1.1

/-! ### How a rule ends -/

/-- The rule meets no fault: where it goes on `P` holds, and where it raises an error `Q` does. -/
def Flow.Ends (P Q : State → Prop) : Flow → Prop
  | .ok s => P s
  | .raise _ s => Q s
  | .fault _ => False

theorem Flow.Ends.andThen {P P' Q : State → Prop} {f : Flow} {g : State → Flow} (hf : f.Ends P Q)
    (hg : ∀ s, P s → (g s).Ends P' Q) : (f.andThen g).Ends P' Q := by
  cases f with
  | ok s => exact hg s hf
  | raise e s => exact hf
  | fault r => exact hf.elim

theorem Flow.Ends.mono {P P' Q Q' : State → Prop} {f : Flow} (hf : f.Ends P Q) (hP : ∀ s, P s → P' s)
    (hQ : ∀ s, Q s → Q' s) : f.Ends P' Q' := by
  cases f with
  | ok s => exact hP s hf
  | raise e s => exact hQ s hf
  | fault r => exact hf.elim

/-- A rule without a fault answers a next state: where it came to, or the end of the job where it raised (R252). -/
theorem Flow.Ends.answer {P Q : State → Prop} {f : Flow} (hf : f.Ends P Q) :
    ∃ t, f.answer = .next t ∧ (P t ∨ ∃ e u, Q u ∧ t = endJob e u) := by
  cases f with
  | ok s => exact ⟨s, rfl, .inl hf⟩
  | raise e s => exact ⟨_, rfl, .inr ⟨e, s, hf, rfl⟩⟩
  | fault r => exact hf.elim

/-! ### The end of a job -/

@[simp] theorem writeCursors_mem (e : ErrCode) (s : State) : (writeCursors e s).mem = s.mem := by
  rw [writeCursors_eq]
@[simp] theorem writeCursors_ht (e : ErrCode) (s : State) : (writeCursors e s).ht = s.ht := by
  rw [writeCursors_eq]
@[simp] theorem writeCursors_hazard (e : ErrCode) (s : State) : (writeCursors e s).hazard = s.hazard := by
  rw [writeCursors_eq]
@[simp] theorem writeCursors_outBase (e : ErrCode) (s : State) : (writeCursors e s).outBase = s.outBase := by
  rw [writeCursors_eq]
@[simp] theorem writeCursors_outCap (e : ErrCode) (s : State) : (writeCursors e s).outCap = s.outCap := by
  rw [writeCursors_eq]
@[simp] theorem writeCursors_dIp (e : ErrCode) (s : State) : (writeCursors e s).dIp = s.dIp := by
  rw [writeCursors_eq]
@[simp] theorem writeCursors_dOp (e : ErrCode) (s : State) : (writeCursors e s).dOp = s.dOp := by
  rw [writeCursors_eq]

/-- The end of a disturbed job: as `endJob_quiet`, but with a free result (R290, R291; log entry 5). -/
theorem endJob_disturbed (e : ErrCode) (s : State) (h : s.hazard = true) :
    endJob e s = freeResult { writeCursors e s with
      statusErr := e, statusBusy := false, statusDone := true, cPhase := .idle, dPhase := .idle } := by
  simp only [endJob, writeCursors_hazard, h, if_true]

theorem endJob_statusBusy (e : ErrCode) (s : State) : (endJob e s).statusBusy = false := by
  cases hz : s.hazard
  · rw [endJob_quiet e s hz]
  · rw [endJob_disturbed e s hz]
    rfl

/-- A state in which a job can end: canonical tables, and, where the result is free, an output window that lies in the
address space. -/
structure Endable (s : State) : Prop where
  memWf : Memory.wf s.mem = true
  htWf : HashTable.wf s.ht = true
  outFits : s.hazard = true → s.outBase.toNat + s.outCap.toNat ≤ Config.addrSpace

/-- The end of a job leaves the invariant of an idle core (R252). -/
theorem endJob_inv (e : ErrCode) {s : State} (h : Endable s) : (endJob e s).inv = true := by
  rw [inv_iff_idle (endJob_statusBusy e s)]
  cases hz : s.hazard
  · rw [endJob_quiet e s hz]
    exact ⟨by simpa using h.memWf, by simpa using h.htWf, rfl, rfl, by simpa using hz⟩
  · rw [endJob_disturbed e s hz]
    refine ⟨?_, by simpa [freeResult, freeOutput] using h.htWf, rfl, rfl, rfl⟩
    simpa [freeResult, freeOutput] using freeBytes_wf s.mem _ _ _ (h.outFits hz) h.memWf

/-- A placed rule that keeps the invariant, or raises where a job can end, is a step that keeps the invariant. -/
theorem runRule_inv {rule : State → Flow} {s : State} (hp : placementOk s = true)
    (hr : (rule s).Ends (fun t => t.inv = true) Endable) : ∃ t, runRule rule s = .next t ∧ t.inv = true := by
  rw [runRule_placed rule s hp]
  obtain ⟨t, ht, hinv | ⟨e, u, hu, rfl⟩⟩ := hr.answer
  · exact ⟨t, ht, hinv⟩
  · exact ⟨_, ht, endJob_inv e hu⟩

end Sys2Proof.Machine
end

section
/-! PROOFS. The decompressor's step: it moves the cursors up inside their windows and writes the output between the old and
the new `d_op` alone, then goes on in D_FETCH or ends the job. -/

open Sys2Proof Sys2Proof.Machine Sys2Proof.Statements

namespace Sys2Proof.Machine

/-! ### What the decompressor's operations keep -/

/-- A state in which the decompressor's operations work: windows placed, cursors inside them (R36, R230, R233). -/
structure DecoderReady (s : State) : Prop where
  placed : placementOk s = true
  memWf : Memory.wf s.mem = true
  dIp_le : s.dIp.toNat ≤ s.inLen.toNat
  dOp_le : s.dOp.toNat ≤ s.outCap.toNat

/-- From `s` to `t` the decompressor moved on: cursors up, inside the windows; memory changed from the old `d_op` to the new
alone; nothing else but `d_state` changed. -/
structure DecoderMoved (s t : State) : Prop where
  frame : onlyDecoderMoved s t s.dPhase
  memWf : Memory.wf t.mem = true
  dIp_ge : s.dIp.toNat ≤ t.dIp.toNat
  dIp_le : t.dIp.toNat ≤ s.inLen.toNat
  dOp_ge : s.dOp.toNat ≤ t.dOp.toNat
  dOp_le : t.dOp.toNat ≤ s.outCap.toNat
  kept : memoryKept s t s.dOp.toNat t.dOp.toNat

theorem DecoderMoved.refl {s : State} (h : DecoderReady s) : DecoderMoved s s :=
  ⟨rfl, h.memWf, Nat.le_refl _, h.dIp_le, Nat.le_refl _, h.dOp_le, fun _ _ => rfl⟩

theorem DecoderMoved.ready {s t : State} (h : DecoderMoved s t) (hs : DecoderReady s) : DecoderReady t := by
  obtain ⟨hframe, hm, -, hi, -, ho, -⟩ := h
  rw [hframe]
  exact ⟨hs.placed, hm, hi, ho⟩

theorem DecoderMoved.trans {s t u : State} (h1 : DecoderMoved s t) (h2 : DecoderMoved t u) : DecoderMoved s u := by
  obtain ⟨hframe1, hm1, hi1, hi1', ho1, ho1', hk1⟩ := h1
  obtain ⟨hframe2, hm2, hi2, hi2', ho2, ho2', hk2⟩ := h2
  have hin : t.inLen = s.inLen := by rw [hframe1]
  have hcap : t.outCap = s.outCap := by rw [hframe1]
  have hbase : t.outBase = s.outBase := by rw [hframe1]
  refine ⟨?_, hm2, by omega, hin ▸ hi2', by omega, hcap ▸ ho2', fun x hx => ?_⟩
  · unfold onlyDecoderMoved at hframe1 hframe2 ⊢
    rw [hframe2, hframe1]
  · rw [hk2 x (by rw [hbase]; omega), hk1 x (by omega)]

/-- A rule of the decompressor: whether it goes on or raises, it meets no fault and only moves the decoder on. -/
def MovesDecoder (rule : State → Flow) : Prop :=
  ∀ s, DecoderReady s → (rule s).Ends (DecoderMoved s) (DecoderMoved s)

theorem MovesDecoder.andThen {f g : State → Flow} (hf : MovesDecoder f) (hg : MovesDecoder g) :
    MovesDecoder fun s => (f s).andThen g := by
  intro s hs
  refine (hf s hs).andThen fun t ht => ?_
  exact (hg t (ht.ready hs)).mono (fun _ => ht.trans) (fun _ => ht.trans)

theorem movesDecoder_fetchBytes (k : Nat) : MovesDecoder (fetchBytes k) := by
  intro s hs
  have hlt := s.inLen.isLt
  have hmoved : ∀ v, s.dIp.toNat ≤ v → v ≤ s.inLen.toNat → DecoderMoved s (s.setDIp v) := by
    intro v hge hle
    have hv : (cursor v).toNat = v := cursor_toNat_of_lt (by omega)
    exact ⟨rfl, hs.memWf, by simpa [hv] using hge, by simpa [hv] using hle, Nat.le_refl _, hs.dOp_le, fun _ _ => rfl⟩
  rcases fetchBytes_cases k s with ⟨-, hf⟩ | ⟨hle, hf⟩ <;> rw [hf]
  · exact hmoved _ (by omega) (by have := hs.dIp_le; omega)
  · exact hmoved _ (by omega) hle

theorem movesDecoder_litCopy (n : Nat) : MovesDecoder (litCopy n) := by
  intro s hs
  have hout := placementOk_out hs.placed
  have hcap := s.outCap.isLt
  have hin := s.inLen.isLt
  rcases litCopy_cases n s with ⟨e, hf, -, -⟩ | ⟨ho, hi, hf⟩ <;> rw [hf]
  · exact DecoderMoved.refl hs
  · have hdi : (cursor (s.dIp.toNat + n)).toNat = s.dIp.toNat + n := cursor_toNat_of_lt (by omega)
    have hdo : (cursor (s.dOp.toNat + n)).toNat = s.dOp.toNat + n := cursor_toNat_of_lt (by omega)
    refine ⟨rfl, ?_, ?_, ?_, ?_, ?_, fun x hx => ?_⟩
    · exact copyBytes_wf _ _ _ _ (by omega) hs.memWf
    · simp only [State.setDOp_dIp, State.setDIp_dIp, hdi]
      omega
    · simpa only [State.setDOp_dIp, State.setDIp_dIp, hdi] using hi
    · simp only [State.setDOp_dOp, hdo]
      omega
    · simpa only [State.setDOp_dOp, hdo] using ho
    · simp only [State.setDOp_dOp, hdo] at hx
      exact memRead_copyBytes_outside _ _ _ _ _ (by omega)

theorem movesDecoder_matchCopy (dist len : Nat) : MovesDecoder (matchCopy dist len) := by
  intro s hs
  have hout := placementOk_out hs.placed
  have hcap := s.outCap.isLt
  rcases matchCopy_cases dist len s with ⟨e, hf, -, -⟩ | ⟨-, ho, hf⟩ <;> rw [hf]
  · exact DecoderMoved.refl hs
  · have hdo : (cursor (s.dOp.toNat + len)).toNat = s.dOp.toNat + len := cursor_toNat_of_lt (by omega)
    refine ⟨rfl, ?_, Nat.le_refl _, hs.dIp_le, ?_, ?_, fun x hx => ?_⟩
    · exact copyBytes_wf _ _ _ _ (by omega) hs.memWf
    · simp only [State.setDOp_dOp, hdo]
      omega
    · simpa only [State.setDOp_dOp, hdo] using ho
    · simp only [State.setDOp_dOp, hdo] at hx
      exact memRead_copyBytes_outside _ _ _ _ _ (by omega)

theorem movesDecoder_setDState (d : DecState) : MovesDecoder fun s => .ok (s.setDState d) := by
  intro s hs
  exact ⟨rfl, hs.memWf, Nat.le_refl _, hs.dIp_le, Nat.le_refl _, hs.dOp_le, fun _ _ => rfl⟩

theorem movesDecoder_literalRecord (h n : Nat) (d : DecState) : MovesDecoder (literalRecord h n d) :=
  (movesDecoder_fetchBytes h).andThen ((movesDecoder_litCopy n).andThen (movesDecoder_setDState d))

theorem movesDecoder_matchTail (dist len k : Nat) : MovesDecoder (matchTail dist len k) := by
  refine (movesDecoder_matchCopy dist len).andThen fun s hs => ?_
  split
  · exact movesDecoder_setDState _ s hs
  · exact (movesDecoder_litCopy k).andThen (movesDecoder_setDState _) s hs

theorem movesDecoder_matchRecord (h len dist k : Nat) : MovesDecoder (matchRecord h len dist k) :=
  (movesDecoder_fetchBytes h).andThen (movesDecoder_matchTail dist len k)

/-! ### A step of the decompressor -/

/-- What a step of the decompressor comes to: D_FETCH with the decoder moved on, or the end of the job, where EOF has written
OUT_LEN, IN_POS and D_HALT before (R203, R252). -/
inductive DecoderStepped (s : State) : State → Prop where
  | goesOn {u : State} (h : DecoderMoved s u) : DecoderStepped s (u.setDPhase .fetch)
  | ends {u : State} (h : DecoderMoved s u) (e : ErrCode) (outLen inPos : Word) (p : DPhase) :
    DecoderStepped s (endJob e { u with outLen := outLen, inPos := inPos, dPhase := p })

/-- A rule that only moves the decoder on, run in D_FETCH or before a pass to D_FETCH. -/
theorem MovesDecoder.stepped {rule : State → Flow} (hr : MovesDecoder rule) {s : State} (hs : DecoderReady s) :
    ∃ t, runRule (fun v => (rule v).andThen fun u => .ok (u.setDPhase .fetch)) s = .next t ∧ DecoderStepped s t := by
  rw [runRule_placed _ s hs.placed]
  have hends : ((rule s).andThen fun u => .ok (u.setDPhase .fetch)).Ends (DecoderStepped s) (DecoderMoved s) :=
    (hr s hs).andThen fun u hu => .goesOn hu
  obtain ⟨t, ht, hstep | ⟨e, u, hu, rfl⟩⟩ := hends.answer
  · exact ⟨t, ht, hstep⟩
  · exact ⟨_, ht, .ends hu e u.outLen u.inPos u.dPhase⟩

/-- In D_FETCH the pass to D_FETCH changes nothing. -/
theorem MovesDecoder.stepped_fetch {rule : State → Flow} (hr : MovesDecoder rule) {s : State} (hs : DecoderReady s)
    (hp : s.dPhase = .fetch) : ∃ t, runRule rule s = .next t ∧ DecoderStepped s t := by
  rw [runRule_placed _ s hs.placed]
  obtain ⟨t, ht, hu | ⟨e, u, hu, rfl⟩⟩ := (hr s hs).answer
  · have hfetch : t = t.setDPhase .fetch := by
      have hf := hu.frame
      rw [hp] at hf
      rw [hf]
      rfl
    exact ⟨t, ht, hfetch ▸ .goesOn hu⟩
  · exact ⟨_, ht, .ends hu e u.outLen u.inPos u.dPhase⟩

/-- EOF's check raises where it stands, or ends the job OK (R203). -/
theorem endOfStream_ends {s : State} (hs : DecoderReady s) :
    (endOfStream s).Ends (DecoderStepped s) (DecoderMoved s) := by
  unfold endOfStream
  split
  · exact DecoderMoved.refl hs
  · split
    · exact DecoderMoved.refl hs
    · exact .ends (DecoderMoved.refl hs) .ok s.dOp s.dIp .halt

theorem DecoderStepped.of_moved {s t u : State} (h : DecoderMoved s t) (hu : DecoderStepped t u) : DecoderStepped s u := by
  cases hu with
  | goesOn hv => exact .goesOn (h.trans hv)
  | ends hv e outLen inPos p => exact .ends (h.trans hv) e outLen inPos p

theorem execEof_stepped (l3 c k : Nat) {s : State} (hs : DecoderReady s) :
    ∃ t, execEof l3 c k s = .next t ∧ DecoderStepped s t := by
  rw [execEof, runRule_placed _ s hs.placed]
  have hends : ((fetchBytes (headerLen (.eof l3 c k)) s).andThen endOfStream).Ends (DecoderStepped s) (DecoderMoved s) :=
    (movesDecoder_fetchBytes _ s hs).andThen fun u hu =>
      (endOfStream_ends (hu.ready hs)).mono (fun _ => .of_moved hu) (fun _ => hu.trans)
  obtain ⟨t, ht, hstep | ⟨e, u, hu, rfl⟩⟩ := hends.answer
  · exact ⟨t, ht, hstep⟩
  · exact ⟨_, ht, .ends hu e u.outLen u.inPos u.dPhase⟩

/-- Every record read in D_FETCH, and LIT_INIT in either phase, is a step of the decompressor. -/
theorem exec_stepped (i : Instr) {s : State} (hs : DecoderReady s) (hp : s.dPhase = .fetch ∨ ∃ n, i = .litInit n) :
    ∃ t, exec i s = .next t ∧ DecoderStepped s t := by
  cases i with
  | litInit n => exact (movesDecoder_literalRecord _ _ _).stepped hs
  | eof l3 c k => exact execEof_stepped l3 c k hs
  | litShort | litLong =>
    exact (movesDecoder_literalRecord _ _ _).stepped_fetch hs (hp.resolve_right (by simp))
  | m1a | m1b | m2 | m3 | m3Long | m4 | m4Long =>
    exact (movesDecoder_matchRecord _ _ _ _).stepped_fetch hs (hp.resolve_right (by simp))

/-- A first byte above 17 is a LIT_INIT's (R91, R191). -/
theorem fetchRecord_start {s : State} (h : startsLitInit s = true) : ∃ n, fetchRecord .start s = .ok (.litInit n) 1 := by
  unfold startsLitInit at h
  split at h
  case h_1 b hb =>
    have hlt := of_decide_eq_true h
    exact ⟨litInitCount b.toNat, by simp only [fetchRecord, decodeFrom, hb, hlt, if_true]⟩
  case h_2 => cases h

theorem decompressorStep_stepped {s : State} (hs : DecoderReady s) (hp : s.dPhase = .start ∨ s.dPhase = .fetch) :
    ∃ t, decompressorStep s = .next t ∧ DecoderStepped s t := by
  rcases hp with hp | hp <;> simp only [decompressorStep, hs.placed, hp, if_true]
  · cases hstart : startsLitInit s with
    | false => exact ⟨_, rfl, .goesOn (DecoderMoved.refl hs)⟩
    | true =>
      obtain ⟨n, hn⟩ := fetchRecord_start hstart
      simp only [runRecord, hn, if_true]
      exact exec_stepped _ hs (.inr ⟨n, rfl⟩)
  · unfold runRecord
    split
    · exact exec_stepped _ hs (.inl hp)
    · have hmoved : DecoderMoved s (s.setDIp (max s.dIp.toNat s.inLen.toNat)) := by
        have h := movesDecoder_fetchBytes (s.inLen.toNat + 1) s hs
        rwa [fetchBytes_short (by omega)] at h
      exact ⟨_, rfl, .ends hmoved .truncatedInput _ _ _⟩

/-! ### What the step keeps -/

theorem DecInv.ready {s : State} (h : DecInv s) : DecoderReady s := ⟨h.placed, h.memWf, h.dIp_le, h.dOp_le⟩

/-- A decompress job's step keeps the invariant. -/
theorem DecoderStepped.inv {s t : State} (h : DecoderStepped s t) (hs : DecInv s) (hb : s.statusBusy = true)
    (hmode : s.ctrlMode = .dec) : t.inv = true := by
  cases h with
  | goesOn hu =>
    obtain ⟨hframe, hm, -, hi, -, ho, -⟩ := hu
    rw [hframe]
    refine (inv_iff_dec ?_ ?_).2 ⟨hm, hs.htWf, hs.notDone, hs.placed, hs.cIdle, .inr rfl, hi, ho, nofun⟩
    · exact hb
    · exact hmode
  | ends hu e outLen inPos p =>
    obtain ⟨hframe, hm, -⟩ := hu
    rw [hframe]
    exact endJob_inv e ⟨hm, hs.htWf, fun _ => placementOk_out hs.placed⟩

theorem endJob_quiet_cursors (e : ErrCode) {s : State} (hz : s.hazard = false) :
    (endJob e s).dIp = s.dIp ∧ (endJob e s).dOp = s.dOp ∧ (endJob e s).outBase = s.outBase ∧ (endJob e s).mem = s.mem := by
  rw [endJob_quiet e s hz]
  exact ⟨writeCursors_dIp e s, writeCursors_dOp e s, writeCursors_outBase e s, writeCursors_mem e s⟩

/-- An undisturbed step leaves the decompressor's cursors and the memory where it moved them. -/
theorem DecoderStepped.moved {s t : State} (h : DecoderStepped s t) (hz : s.hazard = false) :
    ∃ u, DecoderMoved s u ∧ t.dIp = u.dIp ∧ t.dOp = u.dOp ∧ t.outBase = u.outBase ∧ t.mem = u.mem := by
  cases h with
  | goesOn hu => exact ⟨_, hu, rfl, rfl, rfl, rfl⟩
  | @ends u hu e outLen inPos p =>
    have hframe := hu.frame
    have hzu : u.hazard = false := by rw [hframe]; exact hz
    exact ⟨u, hu, endJob_quiet_cursors e (s := { u with outLen := outLen, inPos := inPos, dPhase := p }) hzu⟩

end Sys2Proof.Machine

namespace Sys2Proof

/-- Settles O56: the step moves the decoder on, and its memory change starts at the old `d_op`. -/
theorem decoderOutputOnlyGrows : Obligations.DecoderOutputOnlyGrows := by
  rintro s t ⟨hhost, hb, hmode, -⟩ hinv hz hstep
  have hs := (inv_iff_dec hb hmode).1 hinv
  obtain ⟨t', ht', hstepped⟩ := decompressorStep_stepped hs.ready hs.atWork
  have ht : engineStep s = decompressorStep s := by simp only [engineStep, hb, hmode, if_true]
  rw [step_of_no_host hhost, ht, ht'] at hstep
  cases hstep
  obtain ⟨u, hu, hi, ho, hbase, hmem⟩ := hstepped.moved hz
  obtain ⟨hframe, -, hi_ge, -, ho_ge, -, hkept⟩ := hu
  refine ⟨hi ▸ hi_ge, ho ▸ ho_ge, fun j hj => ?_⟩
  have hbase' : t.outBase = s.outBase := by rw [hbase, hframe]
  rw [outByte, outByte, hbase', hmem]
  exact hkept _ (.inl (by omega))

end Sys2Proof
end

section
/-! PROOFS. The compressor's output operations under the invariant: they meet no fault, move `c_op` up inside the output window
and write nothing outside it. -/

open Sys2Proof Sys2Proof.Machine

namespace Sys2Proof.Machine

/-- A state in which the compressor can put bytes: windows placed, `c_op` within OUT_CAP (R62). -/
structure OutputReady (s : State) : Prop where
  placed : placementOk s = true
  memWf : Memory.wf s.mem = true
  cOp_le : s.cOp.toNat ≤ s.outCap.toNat

/-- From `s` to `t` the output grew by at least `n` bytes; no byte outside the output window and nothing else changed. -/
structure OutputGrew (n : Nat) (s t : State) : Prop where
  frame : t = { s with mem := t.mem, cOp := t.cOp }
  memWf : Memory.wf t.mem = true
  grew : s.cOp.toNat + n ≤ t.cOp.toNat
  cOp_le : t.cOp.toNat ≤ s.outCap.toNat
  kept : ∀ x, inOutputWindow s x = false → memRead t.mem x = memRead s.mem x

theorem OutputGrew.refl {s : State} (h : OutputReady s) : OutputGrew 0 s s :=
  ⟨rfl, h.memWf, Nat.le_refl _, h.cOp_le, fun _ _ => rfl⟩

theorem OutputGrew.ready {n : Nat} {s t : State} (h : OutputGrew n s t) (hs : OutputReady s) : OutputReady t := by
  obtain ⟨hframe, hm, -, ho, -⟩ := h
  rw [hframe]
  exact ⟨hs.placed, hm, ho⟩

theorem OutputGrew.trans {a b : Nat} {s t u : State} (h1 : OutputGrew a s t) (h2 : OutputGrew b t u) :
    OutputGrew (a + b) s u := by
  obtain ⟨hframe1, hm1, hg1, ho1, hk1⟩ := h1
  obtain ⟨hframe2, hm2, hg2, ho2, hk2⟩ := h2
  have hcap : t.outCap = s.outCap := by rw [hframe1]
  have hwindow : ∀ x, inOutputWindow t x = inOutputWindow s x := fun x => by rw [hframe1]; rfl
  refine ⟨?_, hm2, by omega, hcap ▸ ho2, fun x hx => ?_⟩
  · rw [hframe2, hframe1]
  · rw [hk2 x (by rw [hwindow, hx]), hk1 x hx]

theorem OutputGrew.mono {a b : Nat} {s t : State} (h : OutputGrew b s t) (hab : a ≤ b) : OutputGrew a s t :=
  { h with grew := by have := h.grew; omega }

/-- One part of a rule after another: their growths add up. -/
theorem Flow.Ends.andThenGrew {a b : Nat} {s : State} {f : Flow} {g : State → Flow} (hs : OutputReady s)
    (hf : f.Ends (OutputGrew a s) (OutputGrew 0 s))
    (hg : ∀ t, OutputGrew a s t → OutputReady t → (g t).Ends (OutputGrew b t) (OutputGrew 0 t)) :
    (f.andThen g).Ends (OutputGrew (a + b) s) (OutputGrew 0 s) :=
  hf.andThen fun t ht =>
    (hg t ht (ht.ready hs)).mono (fun _ => ht.trans) (fun _ hu => (ht.trans hu).mono (Nat.zero_le _))

/-! ### Bytes put -/

theorem outputGrew_afterPut {bs : List Byte} {s : State} (hs : OutputReady s)
    (h : s.cOp.toNat + bs.length ≤ s.outCap.toNat) : OutputGrew bs.length s (afterPut bs s) := by
  have hout := placementOk_out hs.placed
  have hcap := s.outCap.isLt
  have hc : (afterPut bs s).cOp.toNat = s.cOp.toNat + bs.length := afterPut_cOp (by omega)
  refine ⟨rfl, memWriteAll_wf _ _ _ (by omega) hs.memWf, hc.ge, hc ▸ h, fun x hx => ?_⟩
  simp only [inOutputWindow, inRange, Bool.and_eq_false_iff, decide_eq_false_iff_not] at hx
  exact memRead_memWriteAll_outside _ _ _ _ (by omega)

theorem putAll_ends (bs : List Byte) {s : State} (hs : OutputReady s) :
    (putAll bs s).Ends (OutputGrew bs.length s) (OutputGrew 0 s) := by
  rcases Nat.lt_or_ge s.outCap.toNat (s.cOp.toNat + bs.length) with h | h
  · rw [putAll_full hs.cOp_le h]
    have hfit : (bs.take (s.outCap.toNat - s.cOp.toNat)).length ≤ s.outCap.toNat - s.cOp.toNat := List.length_take_le _ _
    have hle := hs.cOp_le
    exact (outputGrew_afterPut hs (by omega)).mono (Nat.zero_le _)
  · rw [putAll_ok h]
    exact outputGrew_afterPut hs h

theorem put_ends (v : Byte) {s : State} (hs : OutputReady s) :
    (put v s).Ends (OutputGrew 1 s) (OutputGrew 0 s) := by
  rcases Nat.lt_or_ge s.cOp.toNat s.outCap.toNat with h | h
  · rw [put_eq_afterPut h]
    exact outputGrew_afterPut (bs := [v]) hs h
  · rw [put_full h]
    exact OutputGrew.refl hs

theorem putInput_ends {start n : Nat} {s : State} (hs : OutputReady s) (h : start + n ≤ s.inLen.toNat) :
    (putInput start n s).Ends (OutputGrew n s) (OutputGrew 0 s) := by
  rw [putInput_eq start n s hs.placed h]
  simpa using putAll_ends ((List.range n).map fun k => inByte s (start + k)) hs

theorem sPatch_ends {t : Nat} {s : State} (hs : OutputReady s) (h : 2 ≤ s.cOp.toNat) :
    (sPatch t s).Ends (OutputGrew 0 s) (OutputGrew 0 s) := by
  have hout := placementOk_out hs.placed
  have hle := hs.cOp_le
  rw [sPatch_ok h hle]
  refine ⟨rfl, memWrite_wf _ _ _ (by omega) hs.memWf, Nat.le_refl _, hle, fun x hx => ?_⟩
  simp only [inOutputWindow, inRange, Bool.and_eq_false_iff, decide_eq_false_iff_not] at hx
  exact memRead_memWrite_ne _ _ _ _ (by omega)

/-! ### Records -/

theorem literalTag_length_pos (t : Nat) : 1 ≤ (literalTag t).length := by
  unfold literalTag
  split <;> simp

/-- A match record has at least its tag and a distance byte (R164). -/
theorem matchBytes_length_ge (len dist : Nat) : 2 ≤ (matchBytes len dist).length := by
  unfold matchBytes
  split
  · exact Nat.le_refl 2
  · split
    · simp [emitM3]
    · simp [emitM4]

/-- The literals pending before a match (R162): a run short enough for the s-bits comes after a match record. -/
theorem emitLiterals_ends {start t : Nat} {s : State} (hs : OutputReady s) (hin : start + t ≤ s.inLen.toNat)
    (hpatch : t ≤ 3 → 2 ≤ s.cOp.toNat) : (emitLiterals start t s).Ends (OutputGrew 0 s) (OutputGrew 0 s) := by
  have hrun : ∀ u, OutputGrew 0 s u → OutputReady u → (putInput start t u).Ends (OutputGrew 0 u) (OutputGrew 0 u) := by
    intro u hu hready
    have hlen : u.inLen = s.inLen := by rw [hu.frame]
    exact (putInput_ends hready (hlen ▸ hin)).mono (fun _ h => h.mono (Nat.zero_le _)) (fun _ => id)
  unfold emitLiterals
  split
  · exact OutputGrew.refl hs
  · refine Flow.Ends.andThenGrew (a := 0) (b := 0) hs ?_ hrun
    split
    · exact sPatch_ends hs (hpatch ‹_›)
    · exact (putAll_ends _ hs).mono (fun _ h => h.mono (Nat.zero_le _)) (fun _ => id)

theorem emitMatch_ends (len dist : Nat) {s : State} (hs : OutputReady s) :
    (emitMatch len dist s).Ends (OutputGrew 2 s) (OutputGrew 0 s) :=
  (putAll_ends _ hs).mono (fun _ h => h.mono (matchBytes_length_ge len dist)) (fun _ => id)

/-- The final run's header (R170) with the run's bytes behind it: never just one byte of output. -/
theorem finalRun_ends {start n : Nat} {s : State} (hs : OutputReady s) (hne : s.cOp.toNat ≠ 1) (hn : 0 < n)
    (hin : start + n ≤ s.inLen.toNat) :
    ((finalRunHeader n s).andThen (putInput start n)).Ends
      (fun t => OutputGrew 0 s t ∧ t.cOp.toNat ≠ 1) (OutputGrew 0 s) := by
  have hheader : (finalRunHeader n s).Ends (fun t => OutputGrew 0 s t ∧ 1 ≤ t.cOp.toNat) (OutputGrew 0 s) := by
    unfold finalRunHeader
    split
    · refine (put_ends _ hs).mono (fun t h => ⟨h.mono (Nat.zero_le _), ?_⟩) (fun _ => id)
      have := h.grew
      omega
    · split
      · have h2 : 2 ≤ s.cOp.toNat := by simp only [Config.firstLitMax] at *; omega
        refine (sPatch_ends hs h2).mono (fun t h => ⟨h, ?_⟩) (fun _ => id)
        have := h.grew
        omega
      · refine (putAll_ends _ hs).mono (fun t h => ⟨h.mono (Nat.zero_le _), ?_⟩) (fun _ => id)
        have := h.grew
        have := literalTag_length_pos n
        omega
  refine hheader.andThen fun t ⟨ht, hpos⟩ => ?_
  have hlen : t.inLen = s.inLen := by rw [ht.frame]
  refine (putInput_ends (ht.ready hs) (hlen ▸ hin)).mono (fun u hu => ⟨?_, ?_⟩) (fun _ hu => ht.trans hu)
  · exact (ht.trans hu).mono (Nat.zero_le _)
  · have := hu.grew
    omega

end Sys2Proof.Machine
end

section
/-! PROOFS. The compressor's phases: each meets no fault, keeps the invariant of a compress job, and raises where a job can
end. -/

open Sys2Proof Sys2Proof.Machine

namespace Sys2Proof.Machine

/-! ### Hash table -/

theorem hashIndex_lt (v : Word) : hashIndex v < 2 ^ Config.hashBits := by
  have := (Config.hashMult * v).isLt
  simp only [hashIndex, BitVec.toNat_ushiftRight, Nat.shiftRight_eq_div_pow, Config.hashShift, Config.hashBits, Nat.reducePow]
  omega

/-- What holds of every entry and of the one written holds of every entry after the write. -/
theorem sparseSet_all {w : Nat} {m : List (Nat × BitVec w)} {k : Nat} {v : BitVec w} {p : Nat × BitVec w → Bool}
    (hm : m.all p = true) (hv : p (k, v) = true) : (sparseSet m k v).all p = true := by
  induction m with
  | nil => by_cases h0 : v = 0#w <;> simp [sparseSet, h0, hv]
  | cons e rest ih =>
    obtain ⟨a, x⟩ := e
    simp only [List.all_cons, Bool.and_eq_true] at hm
    obtain ⟨hx, hrest⟩ := hm
    simp only [sparseSet]
    split
    · split <;> simp [hx, hrest, hv]
    · split
      · split <;> simp [hrest, hv]
      · simp [hx, ih hrest]

/-- What holds of every entry and of an empty one holds of the entry read. -/
theorem sparseGet_of_all {w : Nat} {m : List (Nat × BitVec w)} {p : BitVec w → Bool} (k : Nat)
    (hm : m.all (fun e => p e.2) = true) (h0 : p 0#w = true) : p (sparseGet m k) = true := by
  induction m with
  | nil => exact h0
  | cons e rest ih =>
    simp only [List.all_cons, Bool.and_eq_true] at hm
    simp only [sparseGet]
    split
    · exact hm.1
    · exact ih hm.2

theorem entriesUpTo_mono {a b : Nat} {s t : State} (h : entriesUpTo a s = true) (ht : t.ht = s.ht) (hab : a ≤ b) :
    entriesUpTo b t = true := by
  simp only [entriesUpTo, ht, List.all_eq_true, decide_eq_true_eq] at h ⊢
  exact fun e he => (h e he).trans hab

/-- A candidate offset is at most the bound of the entries (R136). -/
theorem sparseGet_le_of_entriesUpTo {a : Nat} {s : State} (h : entriesUpTo a s = true) (k : Nat) :
    (sparseGet s.ht k).toNat ≤ a :=
  of_decide_eq_true (sparseGet_of_all (p := fun v => decide (v.toNat ≤ a)) k h (by simp))

/-! ### Match extension -/

/-- The first differing byte of two different chunks is one of their four (R140). -/
theorem ctz32_div_lt {v : Word} (h : v ≠ 0#32) : ctz32 v / 8 < 4 := by
  have hne : v.toNat ≠ 0 := fun h0 => h (BitVec.eq_of_toNat_eq h0)
  have := (trailingZeros_spec 32 v.toNat hne v.isLt).1
  simp only [ctz32]
  omega

/-- A match that starts in the segment ends at most 11 bytes past `c_ipend` (R140, R141). -/
theorem extend_le {s : State} (h : s.cIp.toNat < s.cIpend.toNat) :
    s.cIp.toNat + extend s ≤ s.cIpend.toNat + 11 := by
  have loop : ∀ f m, s.cIp.toNat + m ≤ s.cIpend.toNat + 3 → s.cIp.toNat + extendLoop s f m ≤ s.cIpend.toNat + 11 := by
    intro f
    induction f with
    | zero => intro m hm; simp only [extendLoop]; omega
    | succ f ih =>
      intro m hm
      simp only [extendLoop]
      split
      · have := ctz32_div_lt ‹_›
        omega
      · split
        · omega
        · split
          · have := ctz32_div_lt ‹_›
            omega
          · exact ih (m + 8) (by omega)
  unfold extend
  split
  · have := ctz32_div_lt ‹_›
    simp only [Config.minMatch] at *
    omega
  · exact loop _ _ (by simp only [Config.minMatch]; omega)

/-! ### The invariant, by phase -/

theorem segmentOk_iff (s : State) : segmentOk s = true ↔
    s.cPos.toNat + s.cLl.toNat ≤ s.inLen.toNat ∧ s.cIpend.toNat + 20 = s.cPos.toNat + s.cLl.toNat := by
  simp only [segmentOk, Bool.and_eq_true, decide_eq_true_eq]

/-- `segmentInv` in numbers. -/
structure SegmentInv (s : State) : Prop where
  inInput : s.cPos.toNat + s.cLl.toNat ≤ s.inLen.toNat
  ipend : s.cIpend.toNat + 20 = s.cPos.toNat + s.cLl.toNat
  ll_ge : 21 ≤ s.cLl.toNat
  ll_le : s.cLl.toNat ≤ Config.segMax
  ll_rem : s.cLl.toNat ≤ s.cRem.toNat
  t_pos : s.cT.toNat ≤ s.cPos.toNat
  pos_ii : s.cPos.toNat ≤ s.cIi.toNat
  ii_ip : s.cIi.toNat ≤ s.cIp.toNat
  ii_end : s.cIi.toNat ≤ s.cIpend.toNat + 11
  fresh : s.cOp.toNat ≠ 0 ∨ s.cIi.toNat = s.cT.toNat

theorem segmentInv_iff (s : State) : segmentInv s = true ↔ SegmentInv s := by
  simp only [segmentInv, segmentOk_iff, Bool.and_eq_true, Bool.or_eq_true, decide_eq_true_eq]
  constructor
  · rintro ⟨⟨⟨⟨⟨⟨⟨⟨⟨hinput, hipend⟩, hll⟩, hmax⟩, hrem⟩, ht⟩, hpos⟩, hii⟩, hii_end⟩, hrun⟩
    exact ⟨hinput, hipend, hll, hmax, hrem, ht, hpos, hii, hii_end, hrun⟩
  · rintro ⟨hinput, hipend, hll, hmax, hrem, ht, hpos, hii, hii_end, hrun⟩
    exact ⟨⟨⟨⟨⟨⟨⟨⟨⟨hinput, hipend⟩, hll⟩, hmax⟩, hrem⟩, ht⟩, hpos⟩, hii⟩, hii_end⟩, hrun⟩

theorem SegmentInv.ok {s : State} (h : SegmentInv s) : segmentOk s = true := (segmentOk_iff s).2 ⟨h.inInput, h.ipend⟩

/-- Between segments the pending run lies before `c_pos`, and is all the input so far where nothing is written. -/
theorem phaseInv_between {s : State} (h : s.cPhase = .seg ∨ s.cPhase = .flush) :
    phaseInv s = true ↔ s.cT.toNat ≤ s.cPos.toNat ∧ (s.cOp.toNat ≠ 0 ∨ s.cT.toNat = s.cPos.toNat) := by
  rcases h with h | h <;>
    simp only [phaseInv, h, Bool.and_eq_true, Bool.or_eq_true, decide_eq_true_eq]

theorem phaseInv_advance {s : State} (h : s.cPhase = .advance) : phaseInv s = true ↔
    SegmentInv s ∧ s.cIp.toNat < s.cIpend.toNat ∧ entriesUpTo (s.cIp.toNat - s.cPos.toNat) s = true ∧
      (s.cOp.toNat ≠ 0 ∨ 4 ≤ s.cIp.toNat) := by
  simp only [phaseInv, h, segmentInv_iff, Bool.and_eq_true, Bool.or_eq_true, decide_eq_true_eq, and_assoc]

theorem phaseInv_probe {s : State} (h : s.cPhase = .probe) : phaseInv s = true ↔
    SegmentInv s ∧ s.cPos.toNat < s.cIp.toNat ∧ s.cIp.toNat ≤ s.cIpend.toNat + 1535 ∧
      entriesUpTo (s.cIp.toNat - s.cPos.toNat - 1) s = true ∧ (s.cOp.toNat ≠ 0 ∨ 5 ≤ s.cIp.toNat) := by
  simp only [phaseInv, h, segmentInv_iff, Bool.and_eq_true, Bool.or_eq_true, decide_eq_true_eq, and_assoc]

theorem phaseInv_matched {s : State} (h : s.cPhase = .matched) : phaseInv s = true ↔
    SegmentInv s ∧ s.cPos.toNat ≤ s.cCand.toNat ∧ s.cCand.toNat < s.cIp.toNat ∧ s.cIp.toNat < s.cIpend.toNat ∧
      entriesUpTo (s.cIp.toNat - s.cPos.toNat) s = true ∧ (s.cOp.toNat ≠ 0 ∨ 5 ≤ s.cIp.toNat) := by
  simp only [phaseInv, h, segmentInv_iff, Bool.and_eq_true, Bool.or_eq_true, decide_eq_true_eq, and_assoc]

theorem CompInv.ready {s : State} (h : CompInv s) : OutputReady s := ⟨h.placed, h.memWf, h.cOp_le⟩

theorem CompInv.endable {s : State} (h : CompInv s) : Endable s :=
  ⟨h.memWf, h.htWf, fun _ => placementOk_out h.placed⟩

theorem OutputGrew.endable {n : Nat} {s t : State} (h : OutputGrew n s t) (hs : Endable s) : Endable t := by
  obtain ⟨hframe, hm, -⟩ := h
  rw [hframe]
  exact ⟨hm, hs.htWf, hs.outFits⟩

section Phases

variable {s : State} (hs : CompInv s) (hb : s.statusBusy = true) (hmode : s.ctrlMode = .comp)
include hs hb hmode

/-- C_FLUSH takes over the pending run of C_SEG as it is (R132, R133). -/
theorem CompInv.to_flush (hp : s.cPhase = .seg) : (s.setCPhase .flush).inv = true := by
  refine (inv_iff_comp ?_ ?_).2 { hs with atWork := nofun, phase := ?_ }
  · exact hb
  · exact hmode
  · exact (phaseInv_between (.inr rfl)).2 ((phaseInv_between (.inl hp)).1 hs.phase)

/-- Segment set-up starts a segment (R132 to R134). -/
theorem segmentSetUp_inv (hp : s.cPhase = .seg) (hrem : 20 < s.cRem.toNat)
    (hll : s.cLl.toNat = min s.cRem.toNat Config.segMax) (hlong : (s.cT.toNat + s.cLl.toNat) / 32 ≠ 0) :
    (segmentSetUp s).inv = true := by
  obtain ⟨ht, hfresh⟩ := (phaseInv_between (.inl hp)).1 hs.phase
  have htotal := hs.total
  have hin := s.inLen.isLt
  simp only [Config.segMax] at hll
  have hip : s.cPos.toNat + (if s.cT.toNat < 4 then 4 - s.cT.toNat else 0) < s.cPos.toNat + s.cLl.toNat - 20 := by
    split <;> omega
  have hipend : (cursor (s.cPos.toNat + s.cLl.toNat - 20)).toNat = s.cPos.toNat + s.cLl.toNat - 20 :=
    cursor_toNat_of_lt (by omega)
  have hip' : (cursor (s.cPos.toNat + (if s.cT.toNat < 4 then 4 - s.cT.toNat else 0))).toNat =
      s.cPos.toNat + (if s.cT.toNat < 4 then 4 - s.cT.toNat else 0) := cursor_toNat_of_lt (by omega)
  refine (inv_iff_comp ?_ ?_).2 { hs with htWf := rfl, atWork := nofun, phase := (phaseInv_advance rfl).2 ⟨?_, ?_, rfl, ?_⟩ }
  · exact hb
  · exact hmode
  · constructor <;> simp only [segmentSetUp, hipend, hip', Config.segMax] <;> omega
  · simp only [segmentSetUp, hipend, hip']
    exact hip
  · simp only [segmentSetUp, hip']
    split <;> omega

theorem phaseSeg_ends (hp : s.cPhase = .seg) : (phaseSeg s).Ends (fun t => t.inv = true) Endable := by
  unfold phaseSeg
  split
  · exact hs.to_flush hb hmode hp
  · have hll : (cursor (min s.cRem.toNat Config.segMax)).toNat = min s.cRem.toNat Config.segMax := by
      have := s.cRem.isLt
      exact cursor_toNat_of_lt (by omega)
    have hs' : CompInv { s with cLl := cursor (min s.cRem.toNat Config.segMax) } :=
      { hs with
        phase := by
          refine (phaseInv_between ?_).2 ((phaseInv_between (.inl hp)).1 hs.phase)
          exact .inl hp }
    simp only
    split
    · exact hs'.to_flush hb hmode hp
    · exact segmentSetUp_inv hs' hb hmode hp (Nat.lt_of_not_le ‹_›) hll ‹_›

/-- The back-off step stays above the run's start and within 1535 bytes of `c_ipend` (R137). -/
theorem phaseAdvance_ends (hp : s.cPhase = .advance) : (phaseAdvance s).Ends (fun t => t.inv = true) Endable := by
  obtain ⟨⟨hinput, hipend, hll, hmax, hrem, ht, hpos, hii, hii_end, hrun⟩, hlt, hentries, hfresh⟩ :=
    (phaseInv_advance hp).1 hs.phase
  have hin := s.inLen.isLt
  simp only [Config.segMax] at hmax
  refine (inv_iff_comp ?_ ?_).2
    { hs with atWork := nofun, phase := (phaseInv_probe rfl).2 ⟨?_, ?_, ?_, entriesUpTo_mono hentries rfl ?_, ?_⟩ }
  · exact hb
  · exact hmode
  · refine ⟨hinput, hipend, hll, hmax, hrem, ht, hpos, ?_, hii_end, hrun⟩
    simp only [cursor_toNat, Config.backoffShift, Nat.reducePow]
    omega
  all_goals
    simp only [cursor_toNat, Config.backoffShift, Nat.reducePow]
    omega

/-- The segment's end leaves what it has not matched as pending literals (R139). -/
theorem segmentEnd_inv (hseg : SegmentInv s) : (segmentEnd s).inv = true := by
  obtain ⟨hinput, hipend, hll, hmax, hrem, ht, hpos, hii, hii_end, hrun⟩ := hseg
  have hin := s.inLen.isLt
  have htotal := hs.total
  refine (inv_iff_comp ?_ ?_).2
    { hs with atWork := nofun, total := ?_, phase := (phaseInv_between (.inl rfl)).2 ⟨?_, ?_⟩ }
  · exact hb
  · exact hmode
  all_goals
    simp only [segmentEnd, cursor_toNat]
    omega

/-- A probe finds a candidate before `c_ip`, and records `c_ip` (R136). -/
theorem probeAt_ends (hp : s.cPhase = .probe) (hlt : s.cIp.toNat < s.cIpend.toNat) :
    (probeAt s).Ends (fun t => t.inv = true) Endable := by
  obtain ⟨hseg, hpos, -, hentries, hfresh⟩ := (phaseInv_probe hp).1 hs.phase
  have hin := s.inLen.isLt
  have hcand := sparseGet_le_of_entriesUpTo hentries (hashIndex (le32 s s.cIp.toNat))
  have hfits := s.cIp.isLt
  have hwf := sparseSet_wf s.ht (hashIndex (le32 s s.cIp.toNat)) (BitVec.ofNat 16 (s.cIp.toNat - s.cPos.toNat))
    (hashIndex_lt _) hs.htWf
  have hentries' : (sparseSet s.ht (hashIndex (le32 s s.cIp.toNat)) (BitVec.ofNat 16 (s.cIp.toNat - s.cPos.toNat))).all
      (fun e => decide (e.2.toNat ≤ s.cIp.toNat - s.cPos.toNat)) = true := by
    refine sparseSet_all (entriesUpTo_mono (t := s) hentries rfl (by omega)) (decide_eq_true ?_)
    exact (BitVec.toNat_ofNat _ _).trans_le (Nat.mod_le _ _)
  unfold probeAt
  simp only
  rw [if_pos (by omega)]
  refine (inv_iff_comp ?_ ?_).2 { hs with htWf := hwf, atWork := ?_, phase := ?_ }
  · exact hb
  · exact hmode
  · simp only [State.setCPhase_cPhase]
    split <;> nofun
  · split
    · refine (phaseInv_matched rfl).2 ⟨{ hseg with }, ?_, ?_, hlt, hentries', hfresh⟩
      all_goals
        simp only [State.setCPhase_cCand, cursor_toNat]
        simp only [State.setCPhase_cPos, State.setCPhase_cIp]
        omega
    · have hfresh' : s.cOp.toNat ≠ 0 ∨ 4 ≤ s.cIp.toNat := hfresh.imp_right (by omega)
      exact (phaseInv_advance rfl).2 ⟨{ hseg with }, hlt, hentries', hfresh'⟩

theorem phaseProbe_ends (hp : s.cPhase = .probe) : (phaseProbe s).Ends (fun t => t.inv = true) Endable := by
  have hseg := ((phaseInv_probe hp).1 hs.phase).1
  unfold phaseProbe
  rw [if_pos hseg.ok]
  split
  · exact segmentEnd_inv hs hb hmode hseg
  · exact probeAt_ends hs hb hmode hp (by omega)

end Phases

end Sys2Proof.Machine
end

section
/-! PROOFS. The compressor's writing phases (R138, R170, R171), and with them every step of either engine. -/

open Sys2Proof Sys2Proof.Machine

namespace Sys2Proof.Machine

/-! ### C_MATCH and C_FLUSH over their intermediate states -/

/-- C_MATCH before its pending literals are put: the run's start in `c_ii`, nothing pending (R138). -/
def runFlushed (s : State) : State := { s with cIi := cursor (s.cIi.toNat - s.cT.toNat), cT := 0#32 }

/-- C_MATCH before its match is put: `n` bytes at distance `dist`, the segment going on behind them (R138). -/
def matchFound (n dist : Nat) (s : State) : State :=
  { s with
    cMlen := cursor n, cMoff := cursor dist
    cIp := cursor (s.cIp.toNat + n), cIi := cursor (s.cIp.toNat + n) }

/-- C_FLUSH before its run is put: all input left is pending (R170). -/
def restTaken (s : State) : State := { s with cT := cursor (s.cT.toNat + s.cRem.toNat) }

theorem phaseMatch_eq {s : State} (hseg : segmentOk s = true) (hcand : s.cCand.toNat < s.cIp.toNat)
    (hlt : s.cIp.toNat < s.cIpend.toNat) (ht : s.cT.toNat ≤ s.cIi.toNat) (hii : s.cIi.toNat ≤ s.cIp.toNat) :
    phaseMatch s =
      (emitLiterals (s.cIi.toNat - s.cT.toNat) (s.cIp.toNat - (s.cIi.toNat - s.cT.toNat)) (runFlushed s)).andThen fun t =>
        (emitMatch (extend t) (t.cIp.toNat - t.cCand.toNat) (matchFound (extend t) (t.cIp.toNat - t.cCand.toNat) t)).andThen
          fun u => .ok (u.setCPhase .probe) := by
  unfold phaseMatch
  rw [if_pos (by simp only [hseg, hcand, hlt, ht, hii, decide_true, Bool.and_true])]
  rfl

theorem phaseFlush_eq {s : State} (h : s.cT.toNat + s.cRem.toNat ≤ s.inLen.toNat) :
    phaseFlush s =
      (if 0 < s.cT.toNat + s.cRem.toNat then
        (finalRunHeader (s.cT.toNat + s.cRem.toNat) (restTaken s)).andThen
          (putInput (s.inLen.toNat - (s.cT.toNat + s.cRem.toNat)) (s.cT.toNat + s.cRem.toNat))
      else .ok (restTaken s)).andThen fun u => .ok (u.setCPhase .finish) := by
  unfold phaseFlush
  exact if_neg (Nat.not_lt.2 h)

section Phases

variable {s : State} (hs : CompInv s) (hb : s.statusBusy = true) (hmode : s.ctrlMode = .comp)
include hs

theorem phaseEnd_ends : (phaseEnd s).Ends (fun t => t.inv = true) Endable := by
  refine ((putAll_ends Config.endMarker hs.ready).mono (fun _ => id) (fun u hu => hu.endable hs.endable)).andThen
    fun t ht => ?_
  exact endJob_inv .ok { ht.endable hs.endable with }

include hb hmode

/-- After a match the segment goes on behind it, at most 11 bytes past `c_ipend`, with output written (R138 to R141). -/
theorem matchFound_inv (hseg : SegmentInv s) (hentries : entriesUpTo (s.cIp.toNat - s.cPos.toNat) s = true) {n : Nat}
    (hge : 4 ≤ n) (hle : s.cIp.toNat + n ≤ s.cIpend.toNat + 11) {dist : Nat} {u : State}
    (hu : OutputGrew 2 (matchFound n dist (runFlushed s)) u) : (u.setCPhase .probe).inv = true := by
  obtain ⟨hinput, hipend, hll, hmax, hrem, ht, hpos, hii, hii_end, hrun⟩ := hseg
  obtain ⟨hframe, hm, hgrew, hcap, -⟩ := hu
  simp only [matchFound, runFlushed] at hgrew hcap
  have hin := s.inLen.isLt
  have hend : (cursor (s.cIp.toNat + n)).toNat = s.cIp.toNat + n := cursor_toNat_of_lt (by omega)
  rw [hframe]
  refine (inv_iff_comp ?_ ?_).2 { hs with
    memWf := hm, atWork := nofun, cOp_le := hcap, cOp_ne := ?_
    phase := (phaseInv_probe rfl).2 ⟨?_, ?_, ?_, entriesUpTo_mono hentries rfl ?_, .inl ?_⟩ }
  · exact hb
  · exact hmode
  · simp only [State.setCPhase_cOp]
    omega
  · refine ⟨hinput, hipend, hll, hmax, hrem, Nat.zero_le _, ?_, Nat.le_refl _, ?_, .inl ?_⟩ <;>
      simp only [State.setCPhase_cIi, State.setCPhase_cOp, State.setCPhase_cPos, State.setCPhase_cIpend, matchFound,
        runFlushed, hend] <;> omega
  all_goals
    simp only [State.setCPhase_cIp, State.setCPhase_cOp, State.setCPhase_cPos, State.setCPhase_cIpend, matchFound,
      runFlushed, hend]
    omega

theorem phaseMatch_ends (hp : s.cPhase = .matched) : (phaseMatch s).Ends (fun t => t.inv = true) Endable := by
  obtain ⟨hseg, -, hcand, hlt, hentries, hfresh⟩ := (phaseInv_matched hp).1 hs.phase
  have ⟨hinput, hipend, _, _, _, ht, hpos, hii, _, hrun⟩ := hseg
  have hne := hs.cOp_ne
  have hready : OutputReady (runFlushed s) := { hs.ready with }
  have hend : Endable (runFlushed s) := { hs.endable with }
  have hlit : (emitLiterals (s.cIi.toNat - s.cT.toNat) (s.cIp.toNat - (s.cIi.toNat - s.cT.toNat)) (runFlushed s)).Ends
      (OutputGrew 0 (runFlushed s)) (OutputGrew 0 (runFlushed s)) :=
    emitLiterals_ends hready (by simp only [runFlushed]; omega) (by simp only [runFlushed]; omega)
  rw [phaseMatch_eq hseg.ok hcand hlt (by omega) hii]
  refine (hlit.mono (fun _ => id) (fun u hu => hu.endable hend)).andThen fun t ht => ?_
  have hip : t.cIp = s.cIp := by rw [ht.frame]; rfl
  have hipend' : t.cIpend = s.cIpend := by rw [ht.frame]; rfl
  have hle := extend_le (s := t) (by rw [hip, hipend']; exact hlt)
  rw [hip, hipend'] at hle
  have hge := extend_ge t
  generalize extend t = n at hle hge ⊢
  generalize t.cIp.toNat - t.cCand.toNat = dist
  have hfound : OutputGrew 0 (matchFound n dist (runFlushed s)) (matchFound n dist t) :=
    { ht with frame := congrArg (matchFound n dist) ht.frame }
  refine Flow.Ends.andThen (P := OutputGrew 2 (matchFound n dist t)) ?_ fun u hu =>
    matchFound_inv hs hb hmode hseg hentries hge hle (hfound.trans hu)
  exact (emitMatch_ends n dist (hfound.ready { hready with })).mono (fun _ => id)
    (fun u hu => hu.endable (hfound.endable { hend with }))

theorem phaseFlush_ends (hp : s.cPhase = .flush) : (phaseFlush s).Ends (fun t => t.inv = true) Endable := by
  obtain ⟨ht, -⟩ := (phaseInv_between (.inr hp)).1 hs.phase
  have htotal := hs.total
  have hready : OutputReady (restTaken s) := { hs.ready with }
  have hend : Endable (restTaken s) := { hs.endable with }
  have hfinish : ∀ u, OutputGrew 0 (restTaken s) u ∧ u.cOp.toNat ≠ 1 → (u.setCPhase .finish).inv = true := by
    rintro u ⟨⟨hframe, hm, -, hcap, -⟩, hne⟩
    rw [hframe]
    refine (inv_iff_comp ?_ ?_).2 { hs with memWf := hm, atWork := nofun, cOp_le := hcap, cOp_ne := hne, phase := rfl }
    · exact hb
    · exact hmode
  rw [phaseFlush_eq (by omega)]
  refine Flow.Ends.andThen ?_ hfinish
  split
  · refine (finalRun_ends hready hs.cOp_ne ‹_› ?_).mono (fun _ => id) (fun u hu => hu.endable hend)
    simp only [restTaken]
    omega
  · exact ⟨.refl hready, hs.cOp_ne⟩

theorem compressorRule_ends : (compressorRule s).Ends (fun t => t.inv = true) Endable := by
  unfold compressorRule
  split
  · exact phaseSeg_ends hs hb hmode ‹_›
  · exact phaseAdvance_ends hs hb hmode ‹_›
  · exact phaseProbe_ends hs hb hmode ‹_›
  · exact phaseMatch_ends hs hb hmode ‹_›
  · exact phaseFlush_ends hs hb hmode ‹_›
  · exact phaseEnd_ends hs
  · exact absurd ‹_› hs.atWork

end Phases

/-! ### The engine's turn -/

/-- From a state with the invariant the engine's turn meets no fault and keeps the invariant. -/
theorem engineStep_inv {s : State} (h : s.inv = true) : ∃ t, engineStep s = .next t ∧ t.inv = true := by
  unfold engineStep
  cases hb : s.statusBusy with
  | false => exact ⟨s, rfl, h⟩
  | true =>
    cases hmode : s.ctrlMode with
    | comp =>
      have hs := (inv_iff_comp hb hmode).1 h
      exact runRule_inv hs.placed (compressorRule_ends hs hb hmode)
    | dec =>
      have hs := (inv_iff_dec hb hmode).1 h
      obtain ⟨t, ht, hstepped⟩ := decompressorStep_stepped hs.ready hs.atWork
      exact ⟨t, ht, hstepped.inv hs hb hmode⟩

end Sys2Proof.Machine
end

section
/-! PROOFS. The events of the outside keep the invariant; with the engines' turn, O53. -/

open Sys2Proof Sys2Proof.Machine

namespace Sys2Proof.Machine

/-! ### Register writes -/

theorem IdleInv.inv {s : State} (h : IdleInv s) (hb : s.statusBusy = false) : s.inv = true := (inv_iff_idle hb).2 h

/-- START ends at once with ConfigError, or begins a job with its windows placed (R260, R261). -/
theorem startJob_inv {mode : Mode} {ie : Bool} {s t : State} (h : IdleInv s) (ht : startJob mode ie s = .next t) :
    t.inv = true := by
  unfold startJob at ht
  simp only at ht
  split at ht
  case isFalse =>
    cases ht
    exact endJob_inv _ ⟨h.memWf, h.htWf, nofun⟩
  case isTrue hp =>
    split at ht
    · cases ht
    · cases mode with
      | comp =>
        cases ht
        refine (inv_iff_comp rfl rfl).2 ⟨h.memWf, h.htWf, rfl, hp, nofun, h.dIdle, Nat.zero_le _, nofun, Nat.zero_add _, ?_⟩
        exact (phaseInv_between (.inl rfl)).2 ⟨Nat.le_refl _, .inr rfl⟩
      | dec =>
        cases ht
        exact (inv_iff_dec rfl rfl).2
          ⟨h.memWf, h.htWf, rfl, hp, h.cIdle, .inl rfl, Nat.zero_le _, Nat.zero_le _, fun _ => ⟨rfl, rfl⟩⟩

/-- With no job a write of CTRL starts one or sets MODE and IE (R21, R260). -/
theorem writeCtrl_inv {v : Word} {s t : State} (h : IdleInv s) (hb : s.statusBusy = false)
    (ht : writeCtrl v s = .next t) : t.inv = true := by
  cases hv : v.getLsbD 0 with
  | false =>
    rw [writeCtrl_noStart v s hb hv] at ht
    cases ht
    refine IdleInv.inv { h with } ?_
    exact hb
  | true =>
    simp only [writeCtrl, hb, hv, Bool.false_eq_true, if_false, if_true] at ht
    exact startJob_inv h ht

theorem writeRegister_inv {offset : Nat} {v : Word} {s t : State} (h : s.inv = true)
    (ht : writeRegister offset v s = .next t) : t.inv = true := by
  cases hb : s.statusBusy with
  | true =>
    rw [writeRegister_busy offset v s hb] at ht
    cases ht
    exact h
  | false =>
    have hs := (inv_iff_idle hb).1 h
    have hidle : ¬s.statusBusy = true := by simp only [hb, Bool.false_eq_true, not_false_eq_true]
    unfold writeRegister at ht
    split at ht
    case h_1 => exact writeCtrl_inv hs hb ht
    case h_2 =>
      rw [writeStatus_idle v s hb] at ht
      cases ht
      refine IdleInv.inv { hs with } ?_
      exact hb
    case h_7 =>
      cases ht
      exact h
    all_goals
      rw [if_neg hidle] at ht
      cases ht
      refine IdleInv.inv { hs with } ?_
      exact hb

/-! ### Memory, other instances, reset -/

/-- The invariant asks of memory that it is canonical, and of a noted hazard that a job runs. -/
theorem inv_with_mem_hazard {s : State} (h : s.inv = true) {m : List Host.Cell} {z : Bool} (hm : Memory.wf m = true)
    (hz : s.statusBusy = false → z = false) : { s with mem := m, hazard := z }.inv = true := by
  cases hb : s.statusBusy with
  | false =>
    have hs := (inv_iff_idle hb).1 h
    exact IdleInv.inv { hs with memWf := hm, calm := hz hb } rfl
  | true =>
    cases hmode : s.ctrlMode with
    | comp =>
      have hs := (inv_iff_comp hb hmode).1 h
      exact (inv_iff_comp rfl rfl).2 { hs with memWf := hm }
    | dec =>
      have hs := (inv_iff_dec hb hmode).1 h
      exact (inv_iff_dec rfl rfl).2 { hs with memWf := hm }

/-- A hazard newly noted is noted for a running job. -/
theorem hazard_of_idle {s : State} (h : s.inv = true) (hb : s.statusBusy = false) (b : Bool) :
    (s.hazard || (s.statusBusy && b)) = false := by
  simp only [((inv_iff_idle hb).1 h).calm, hb, Bool.false_and, Bool.or_self]

theorem hostMemWrite_inv (addr : Word) (v : Byte) {s : State} (h : s.inv = true) : (hostMemWrite addr v s).inv = true :=
  inv_with_mem_hazard h (memWrite_wf _ _ _ addr.isLt (inv_tables h).1) fun hb => hazard_of_idle h hb _

theorem hostMemRead_inv (addr : Word) {s : State} (h : s.inv = true) : (hostMemRead addr s).inv = true := by
  unfold hostMemRead
  split <;> exact h

theorem otherStarts_inv (w : Windows) {s : State} (h : s.inv = true) : (otherStarts w s).inv = true :=
  inv_with_mem_hazard h (inv_tables h).1 fun hb => hazard_of_idle h hb _

/-- The reset signal leaves an idle core; the output window it may free was placed (R280). -/
theorem resetCore_inv {s : State} (h : s.inv = true) : (resetCore s).inv = true := by
  refine IdleInv.inv ⟨?_, rfl, rfl, rfl, rfl⟩ rfl
  simp only [resetCore]
  split
  case isTrue hz =>
    have hb : s.statusBusy = true := (Bool.and_eq_true_iff.1 hz).1
    exact freeBytes_wf _ _ _ _ (placementOk_out (inv_busy h hb).1) (inv_tables h).1
  case isFalse => exact (inv_tables h).1

/-! ### Every step -/

/-- An access to the block that is answered has its meaning. -/
theorem registerAccess_next {width offset : Nat} {r : Result} {t : State} (h : registerAccess width offset r = .next t) :
    r = .next t := by
  unfold registerAccess at h
  split at h
  · cases h
  · split at h
    · exact h
    · cases h

/-- An access to memory that is answered has its meaning. -/
theorem memoryAccess_next {addr : Word} {s t : State} {r : Result} (h : memoryAccess addr s r = .next t) :
    r = .next t := by
  unfold memoryAccess at h
  split at h
  · cases h
  · exact h

theorem hostStep_inv (a : HostAction) {s t : State} (h : s.inv = true) (ht : hostStep a s = .next t) : t.inv = true := by
  cases a with
  | engineTurn =>
    obtain ⟨u, hu, hinv⟩ := engineStep_inv h
    cases hu.symm.trans ht
    exact hinv
  | regRead width offset =>
    cases registerAccess_next ht
    exact h
  | regWrite width offset v => exact writeRegister_inv h (registerAccess_next ht)
  | memRead addr =>
    cases memoryAccess_next ht
    exact hostMemRead_inv addr h
  | memWrite addr v =>
    cases memoryAccess_next ht
    exact hostMemWrite_inv addr v h
  | otherStart w =>
    cases ht
    exact otherStarts_inv w h
  | otherEnd w =>
    cases ht
    exact h
  | resetSignal =>
    cases ht
    exact resetCore_inv h

end Sys2Proof.Machine

namespace Sys2Proof

/-- Settles O53: the next step is the engine's (`engineStep_inv`) or a waiting event's (`hostStep_inv`). -/
theorem everyStepKeepsInvariant : Obligations.EveryStepKeepsInvariant := by
  intro s t hinv hstep
  cases hhost : s.host with
  | nil =>
    rw [step_of_no_host hhost] at hstep
    exact hostStep_inv .engineTurn hinv hstep
  | cons a rest =>
    rw [step_of_host hhost] at hstep
    exact hostStep_inv a (s := { s with host := rest }) hinv hstep

end Sys2Proof
end

section
/-! PROOFS. No step stops with a fault (R64, R67, R163): the engines' turn by the invariant, the events of the outside in every
state. O54. -/

open Sys2Proof Sys2Proof.Machine

namespace Sys2Proof.Machine

theorem startJob_ne_fault (mode : Mode) (ie : Bool) (s : State) (f : Fault) : startJob mode ie s ≠ .fault f := by
  unfold startJob
  simp only
  split
  · split
    · nofun
    · cases mode <;> nofun
  · nofun

theorem writeCtrl_ne_fault (v : Word) (s : State) (f : Fault) : writeCtrl v s ≠ .fault f := by
  unfold writeCtrl
  split
  · nofun
  · split
    · exact startJob_ne_fault _ _ s f
    · nofun

theorem writeRegister_ne_fault (offset : Nat) (v : Word) (s : State) (f : Fault) : writeRegister offset v s ≠ .fault f := by
  unfold writeRegister
  split
  case h_1 => exact writeCtrl_ne_fault v s f
  all_goals nofun

theorem registerAccess_ne_fault (width offset : Nat) {r : Result} {f : Fault} (h : r ≠ .fault f) :
    registerAccess width offset r ≠ .fault f := by
  unfold registerAccess
  split
  · nofun
  · split
    · exact h
    · nofun

theorem memoryAccess_ne_fault (addr : Word) (s : State) {r : Result} {f : Fault} (h : r ≠ .fault f) :
    memoryAccess addr s r ≠ .fault f := by
  unfold memoryAccess
  split
  · nofun
  · exact h

theorem hostStep_ne_fault (a : HostAction) {s : State} (h : s.inv = true) (f : Fault) : hostStep a s ≠ .fault f := by
  cases a with
  | engineTurn =>
    obtain ⟨t, ht, -⟩ := engineStep_inv h
    rw [hostStep, ht]
    nofun
  | regRead width offset => exact registerAccess_ne_fault width offset nofun
  | regWrite width offset v => exact registerAccess_ne_fault width offset (writeRegister_ne_fault offset v s f)
  | memRead addr => exact memoryAccess_ne_fault addr s nofun
  | memWrite addr v => exact memoryAccess_ne_fault addr s nofun
  | otherStart w => nofun
  | otherEnd w => nofun
  | resetSignal => nofun

end Sys2Proof.Machine

namespace Sys2Proof

/-- Settles O54: neither the engine's turn nor a waiting event's step is a fault (`hostStep_ne_fault`). -/
theorem noStepFaults : Obligations.NoStepFaults := by
  intro s f hinv
  cases hhost : s.host with
  | nil =>
    rw [step_of_no_host hhost]
    exact hostStep_ne_fault .engineTurn hinv f
  | cons a rest =>
    rw [step_of_host hhost]
    exact hostStep_ne_fault a (s := { s with host := rest }) hinv f

end Sys2Proof
end

section
/-! PROOFS. System memory (20_memory.md): what the placement check means (R61, R261) and the byte accesses of other agents (R74,
R75, R290). O30 and O38. -/

open Sys2Proof Sys2Proof.Machine

namespace Sys2Proof.Machine

/-- A window ends inside the address space exactly when each of its bytes has a 32-bit address. -/
theorem windowEnd_le_iff (base size : Word) :
    base.toNat + size.toNat ≤ Config.addrSpace ↔ ∀ i, i < size.toNat → base.toNat + i < 2 ^ 32 := by
  have hbase := base.isLt
  simp only [Config.addrSpace]
  constructor
  · intro h i hi
    omega
  · intro h
    rcases Nat.eq_zero_or_pos size.toNat with h0 | hpos
    · omega
    · have hlast := h (size.toNat - 1) (by omega)
      omega

/-- Two ranges lie apart, or one is empty, exactly when no address is in both. -/
theorem ranges_apart_iff (b1 n1 b2 n2 : Nat) :
    (n1 = 0 ∨ n2 = 0 ∨ b1 + n1 ≤ b2 ∨ b2 + n2 ≤ b1) ↔ ∀ i j, i < n1 → j < n2 → b1 + i ≠ b2 + j := by
  constructor
  · intro h i j hi hj
    omega
  · intro h
    by_contra hmeet
    exact h (max b1 b2 - b1) (max b1 b2 - b2) (by omega) (by omega) (by omega)

/-- A memory write by another agent, as a step (R75). -/
theorem step_memWrite {s : State} {a : Word} {v : Byte} {rest : List HostAction} (h : s.host = .memWrite a v :: rest)
    (hdev : s.devices.any (fun d => inRange d.base d.size a.toNat) = false) :
    step s = .next (hostMemWrite a v { s with host := rest }) := by
  rw [step_of_host h]
  simp only [hostStep, memoryAccess, hdev, Bool.false_eq_true, if_false]

/-- A memory read by another agent, as a step (R74). -/
theorem step_memRead {s : State} {a : Word} {rest : List HostAction} (h : s.host = .memRead a :: rest)
    (hdev : s.devices.any (fun d => inRange d.base d.size a.toNat) = false) :
    step s = .next (hostMemRead a { s with host := rest }) := by
  rw [step_of_host h]
  simp only [hostStep, memoryAccess, hdev, Bool.false_eq_true, if_false]

/-- A read changes the model's own two fields alone. -/
theorem hostMemRead_frame (a : Word) (s : State) :
    hostMemRead a s = { s with hostData := (hostMemRead a s).hostData, freeCount := (hostMemRead a s).freeCount } := by
  unfold hostMemRead
  split <;> rfl

/-- Outside the output window of a running job a read returns the byte (R74). -/
theorem hostMemRead_hostData {a : Word} {s : State} (h : s.statusBusy = false ∨ inOutputWindow s a.toNat = false) :
    (hostMemRead a s).hostData = (memRead s.mem a.toNat).setWidth 32 := by
  unfold hostMemRead
  rw [if_neg]
  rw [Bool.not_eq_true, Bool.and_eq_false_iff]
  exact h

end Sys2Proof.Machine

namespace Sys2Proof

/-- Settles O30: the check's three parts, each as its bytes. -/
theorem placementMeansDisjointWindows : Obligations.PlacementMeansDisjointWindows := by
  intro s
  rw [← windowEnd_le_iff, ← windowEnd_le_iff, ← ranges_apart_iff]
  simp only [placementOk, Bool.and_eq_true, Bool.or_eq_true, decide_eq_true_eq, and_assoc, or_assoc]

/-- Settles O38: the write and the read as steps, and what each of them changes. -/
theorem otherAgentsAccessMemory : Obligations.OtherAgentsAccessMemory := by
  intro s a rest hwf hdev
  constructor
  · intro v h
    refine ⟨_, step_memWrite h hdev, rfl, fun x => memRead_memWrite s.mem a.toNat x v hwf, ?_⟩
    simp only [hostMemWrite, Bool.or_eq_true, Bool.and_eq_true]
    rfl
  · intro h
    exact ⟨_, step_memRead h hdev, hostMemRead_frame a _, fun hfree => hostMemRead_hostData hfree⟩

end Sys2Proof
end

section
/-! PROOFS. No rule of the engines, in whatever state, writes a byte outside the output window (R62, R63, R64, R77), and neither
does the end of a job. O55. -/

open Sys2Proof Sys2Proof.Machine Sys2Proof.Statements

namespace Sys2Proof.Machine

/-- From `s` to `t` the output window stands where it was, and no byte outside it changed. -/
structure WroteWindowOnly (s t : State) : Prop where
  outBase : t.outBase = s.outBase
  outCap : t.outCap = s.outCap
  kept : memoryKept s t 0 s.outCap.toNat

/-- A change of registers that are none of the window's. -/
theorem WroteWindowOnly.of_mem {s t : State} (hbase : t.outBase = s.outBase) (hcap : t.outCap = s.outCap)
    (hmem : t.mem = s.mem) : WroteWindowOnly s t :=
  ⟨hbase, hcap, fun _ _ => by rw [hmem]⟩

theorem WroteWindowOnly.refl (s : State) : WroteWindowOnly s s := .of_mem rfl rfl rfl

theorem WroteWindowOnly.trans {s t u : State} (h1 : WroteWindowOnly s t) (h2 : WroteWindowOnly t u) :
    WroteWindowOnly s u := by
  obtain ⟨hbase1, hcap1, hkept1⟩ := h1
  obtain ⟨hbase2, hcap2, hkept2⟩ := h2
  refine ⟨hbase2.trans hbase1, hcap2.trans hcap1, fun x hx => ?_⟩
  rw [hkept2 x (by rwa [hbase1, hcap1]), hkept1 x hx]

/-- One byte written inside the window. -/
theorem wroteWindowOnly_outWrite {s : State} {j : Nat} (v : Byte) (h : j < s.outCap.toNat) :
    WroteWindowOnly s (outWrite s j v) :=
  ⟨rfl, rfl, fun x hx => memRead_memWrite_ne _ _ _ _ (by omega)⟩

/-- Off the output window (R61), in the form in which `memoryKept` has it for the whole window. -/
theorem inOutputWindow_eq_false_iff (s : State) (x : Nat) :
    inOutputWindow s x = false ↔ x < s.outBase.toNat + 0 ∨ s.outBase.toNat + s.outCap.toNat ≤ x := by
  simp only [inOutputWindow, inRange, Bool.and_eq_false_iff, decide_eq_false_iff_not, Nat.not_le, Nat.not_lt, Nat.add_zero]

/-- The end of a job, disturbed or not, writes at most the output window (R252, R290; log entry 5). -/
theorem wroteWindowOnly_endJob (e : ErrCode) (s : State) : WroteWindowOnly s (endJob e s) := by
  cases hz : s.hazard
  · rw [endJob_quiet e s hz]
    exact ⟨writeCursors_outBase e s, writeCursors_outCap e s, fun x _ => by rw [writeCursors_mem]⟩
  · rw [endJob_disturbed e s hz]
    refine ⟨writeCursors_outBase e s, writeCursors_outCap e s, fun x hx => ?_⟩
    simp only [freeResult, freeOutput, writeCursors_mem, writeCursors_outBase, writeCursors_outCap]
    exact memRead_freeBytes_outside _ _ _ _ _ hx

/-! ### Rules -/

/-- Where a rule started in `s` goes on or raises an error, it wrote the output window alone. -/
def Flow.WindowOnly (s : State) : Flow → Prop
  | .ok t => WroteWindowOnly s t
  | .raise _ t => WroteWindowOnly s t
  | .fault _ => True

/-- What is written after a change is written with it. -/
theorem Flow.WindowOnly.after {s t : State} {f : Flow} (ht : WroteWindowOnly s t) (hf : f.WindowOnly t) :
    f.WindowOnly s := by
  cases f with
  | ok u => exact ht.trans hf
  | raise e u => exact ht.trans hf
  | fault r => trivial

/-- What a rule's parts write, the rule writes. -/
theorem Flow.WindowOnly.andThen {s : State} {f : Flow} {g : State → Flow} (hf : f.WindowOnly s)
    (hg : ∀ t, (g t).WindowOnly t) : (f.andThen g).WindowOnly s := by
  cases f with
  | ok t => exact .after hf (hg t)
  | raise e t => exact hf
  | fault r => trivial

/-- A step whose rule writes the window alone does so, with the job's end where it raised. -/
theorem WroteWindowOnly.of_runRule {rule : State → Flow} {s t : State} (hr : (rule s).WindowOnly s)
    (h : runRule rule s = .next t) : WroteWindowOnly s t := by
  obtain ⟨-, hanswer⟩ := runRule_next h
  rcases Flow.answer_next hanswer with hok | ⟨e, u, hraise, rfl⟩
  · rwa [hok] at hr
  · rw [hraise] at hr
    exact hr.trans (wroteWindowOnly_endJob e u)

theorem put_windowOnly (v : Byte) (s : State) : (put v s).WindowOnly s := by
  unfold put
  split
  · exact .refl s
  · exact (wroteWindowOnly_outWrite v (Nat.lt_of_not_le ‹_›)).trans (.of_mem rfl rfl rfl)

theorem putAll_windowOnly (bs : List Byte) (s : State) : (putAll bs s).WindowOnly s := by
  induction bs generalizing s with
  | nil => exact .refl s
  | cons v bs ih => exact (put_windowOnly v s).andThen ih

theorem putInput_windowOnly (start n : Nat) (s : State) : (putInput start n s).WindowOnly s := by
  induction n generalizing start s with
  | zero => exact .refl s
  | succ n ih => exact (put_windowOnly _ s).andThen (ih _)

theorem sPatch_windowOnly (n : Nat) (s : State) : (sPatch n s).WindowOnly s := by
  unfold sPatch
  split
  · exact wroteWindowOnly_outWrite _ (by omega)
  · trivial

theorem emitLiterals_windowOnly (start n : Nat) (s : State) : (emitLiterals start n s).WindowOnly s := by
  unfold emitLiterals
  split
  · exact .refl s
  · refine Flow.WindowOnly.andThen ?_ (putInput_windowOnly start n)
    split
    · exact sPatch_windowOnly n s
    · exact putAll_windowOnly _ s

theorem finalRunHeader_windowOnly (n : Nat) (s : State) : (finalRunHeader n s).WindowOnly s := by
  unfold finalRunHeader
  split
  · exact put_windowOnly _ s
  · split
    · exact sPatch_windowOnly n s
    · exact putAll_windowOnly _ s

/-! ### Phases -/

theorem phaseSeg_windowOnly (s : State) : (phaseSeg s).WindowOnly s := by
  unfold phaseSeg
  split
  · exact .of_mem rfl rfl rfl
  · simp only
    split <;> exact .of_mem rfl rfl rfl

theorem phaseProbe_windowOnly (s : State) : (phaseProbe s).WindowOnly s := by
  unfold phaseProbe probeAt
  split
  · split
    · exact .of_mem rfl rfl rfl
    · simp only
      split
      · exact .of_mem rfl rfl rfl
      · trivial
  · trivial

theorem phaseMatch_windowOnly (s : State) : (phaseMatch s).WindowOnly s := by
  have hflushed : WroteWindowOnly s (runFlushed s) := .of_mem rfl rfl rfl
  have hfound : ∀ n dist t, WroteWindowOnly t (matchFound n dist t) := fun _ _ _ => .of_mem rfl rfl rfl
  unfold phaseMatch
  split
  · refine Flow.WindowOnly.andThen (.after hflushed (emitLiterals_windowOnly _ _ _)) fun t => ?_
    refine Flow.WindowOnly.andThen (.after (hfound _ _ t) (putAll_windowOnly _ _)) fun u => ?_
    exact .of_mem rfl rfl rfl
  · trivial

theorem phaseFlush_windowOnly (s : State) : (phaseFlush s).WindowOnly s := by
  have htaken : WroteWindowOnly s (restTaken s) := .of_mem rfl rfl rfl
  unfold phaseFlush
  simp only
  split
  · trivial
  · refine Flow.WindowOnly.andThen ?_ fun u => WroteWindowOnly.of_mem rfl rfl rfl
    split
    · exact .after htaken ((finalRunHeader_windowOnly _ _).andThen (putInput_windowOnly _ _))
    · exact htaken

theorem phaseEnd_windowOnly (s : State) : (phaseEnd s).WindowOnly s := by
  refine (putAll_windowOnly _ s).andThen fun t => ?_
  exact WroteWindowOnly.trans (t := { t with outLen := t.cOp, inPos := t.inLen }) (.of_mem rfl rfl rfl)
    (wroteWindowOnly_endJob .ok _)

theorem compressorRule_windowOnly (s : State) : (compressorRule s).WindowOnly s := by
  unfold compressorRule
  split
  · exact phaseSeg_windowOnly s
  · exact WroteWindowOnly.of_mem rfl rfl rfl
  · exact phaseProbe_windowOnly s
  · exact phaseMatch_windowOnly s
  · exact phaseFlush_windowOnly s
  · exact phaseEnd_windowOnly s
  · trivial

/-! ### The engine's turn -/

/-- The decompressor writes between the old and the new `d_op`, both inside the window (R63, R233). -/
theorem DecoderMoved.wroteWindowOnly {s t : State} (h : DecoderMoved s t) : WroteWindowOnly s t := by
  obtain ⟨hframe, -, -, -, hge, hle, hkept⟩ := h
  exact ⟨by rw [hframe], by rw [hframe], fun x hx => hkept x (by omega)⟩

theorem DecoderStepped.wroteWindowOnly {s t : State} (h : DecoderStepped s t) : WroteWindowOnly s t := by
  cases h with
  | goesOn hu => exact hu.wroteWindowOnly.trans (.of_mem rfl rfl rfl)
  | @ends u hu e outLen inPos p =>
    have hregs : WroteWindowOnly u { u with outLen := outLen, inPos := inPos, dPhase := p } := .of_mem rfl rfl rfl
    exact (hu.wroteWindowOnly.trans hregs).trans (wroteWindowOnly_endJob e _)

theorem engineStep_wroteWindowOnly {s t : State} (h : s.inv = true) (ht : engineStep s = .next t) :
    WroteWindowOnly s t := by
  unfold engineStep at ht
  cases hb : s.statusBusy with
  | false =>
    rw [hb] at ht
    cases ht
    exact .refl s
  | true =>
    simp only [hb, if_true] at ht
    cases hmode : s.ctrlMode with
    | comp =>
      rw [hmode] at ht
      exact .of_runRule (compressorRule_windowOnly s) ht
    | dec =>
      rw [hmode] at ht
      have hs := (inv_iff_dec hb hmode).1 h
      obtain ⟨u, hu, hstepped⟩ := decompressorStep_stepped hs.ready hs.atWork
      cases hu.symm.trans ht
      exact hstepped.wroteWindowOnly

end Sys2Proof.Machine

namespace Sys2Proof

/-- Settles O55: the step is the engine's, which writes the window alone (`engineStep_wroteWindowOnly`). -/
theorem enginesWriteOnlyOutputWindow : Obligations.EnginesWriteOnlyOutputWindow := by
  intro s t hinv hhost hstep a ha
  rw [step_of_no_host hhost] at hstep
  exact (engineStep_wroteWindowOnly hinv hstep).kept a ((inOutputWindow_eq_false_iff s a).1 ha)

end Sys2Proof
end

section
/-! PROOFS. The frame of the literal and the match records, in whatever state they run (R63, R193 to R204, R252). O25 and
O26. -/

open Sys2Proof Sys2Proof.Machine Sys2Proof.Statements

namespace Sys2Proof.Machine

/-! ### What a record's parts change -/

/-- `d_op` moved up by at most `n`, and no byte changed outside the output bytes from the old to the new `d_op`. -/
def OutputAdvanced (n : Nat) (s t : State) : Prop :=
  s.dOp.toNat ≤ t.dOp.toNat ∧ t.dOp.toNat ≤ s.dOp.toNat + n ∧ memoryKept s t s.dOp.toNat t.dOp.toNat

/-- From `s` to `t` at most `n` bytes were appended to the output, and nothing changed but memory, `d_ip` and `d_op`. -/
structure Appended (n : Nat) (s t : State) : Prop where
  frame : t = { s with mem := t.mem, dIp := t.dIp, dOp := t.dOp }
  advanced : OutputAdvanced n s t

/-- A record went through: at most `n` bytes appended, `d_phase` is `p`, and of the decoder's registers only `d_state` and the
cursors changed. -/
structure RecordRan (n : Nat) (p : DPhase) (s t : State) : Prop where
  frame : onlyDecoderMoved s t p
  advanced : OutputAdvanced n s t

/-- A change of `d_ip` alone appends nothing. -/
theorem Appended.of_dIp {s t : State} (hframe : t = { s with dIp := t.dIp }) : Appended 0 s t := by
  rw [hframe]
  exact ⟨rfl, Nat.le_refl _, Nat.le_refl _, fun _ _ => rfl⟩

theorem Appended.trans {a b : Nat} {s t u : State} (h1 : Appended a s t) (h2 : Appended b t u) : Appended (a + b) s u := by
  obtain ⟨hframe1, hge1, hle1, hkept1⟩ := h1
  obtain ⟨hframe2, hge2, hle2, hkept2⟩ := h2
  have hbase : t.outBase = s.outBase := by rw [hframe1]
  refine ⟨by rw [hframe2, hframe1], by omega, by omega, fun x hx => ?_⟩
  rw [hkept2 x (by rw [hbase]; omega), hkept1 x (by omega)]

theorem Appended.mono {a b : Nat} {s t : State} (h : Appended a s t) (hab : a ≤ b) : Appended b s t := by
  obtain ⟨hframe, hge, hle, hkept⟩ := h
  exact ⟨hframe, hge, by omega, hkept⟩

theorem Appended.refl (n : Nat) (s : State) : Appended n s s := (Appended.of_dIp rfl).mono (Nat.zero_le n)

theorem Appended.setDState {n : Nat} {s t : State} (h : Appended n s t) (d : DecState) :
    RecordRan n s.dPhase s (t.setDState d) := by
  refine ⟨?_, h.advanced⟩
  rw [h.frame]
  rfl

theorem RecordRan.setDPhase {n : Nat} {p q : DPhase} {s t : State} (h : RecordRan n p s t) :
    RecordRan n q s (t.setDPhase q) := by
  refine ⟨?_, h.advanced⟩
  rw [h.frame]
  rfl

/-- A job that ends after such a part: what a job end writes changed besides (R252). -/
theorem Appended.endJob {n : Nat} {s t : State} (h : Appended n s t) (hz : s.hazard = false) (e : ErrCode) :
    onlyJobEnded s (endJob e t) ∧ OutputAdvanced n s (endJob e t) := by
  have hzt : t.hazard = false := by rw [h.frame]; exact hz
  constructor
  · rw [endJob_quiet e t hzt, h.frame, writeCursors_eq]
    rfl
  · obtain ⟨-, hop, -, hmem⟩ := endJob_quiet_cursors e hzt
    obtain ⟨hge, hle, hkept⟩ := h.advanced
    refine ⟨hop ▸ hge, hop ▸ hle, fun x hx => ?_⟩
    rw [hmem, hkept x (hop ▸ hx)]

/-! ### Rules -/

/-- A part of a record: whether it goes on or raises, it meets no fault and appends at most `n` bytes. -/
def Appends (n : Nat) (rule : State → Flow) : Prop := ∀ s, (rule s).Ends (Appended n s) (Appended n s)

theorem Appends.andThen {a b : Nat} {f g : State → Flow} (hf : Appends a f) (hg : Appends b g) :
    Appends (a + b) fun s => (f s).andThen g := by
  intro s
  have hraise := (hf s).mono (fun _ => id) (fun u hu => hu.mono (Nat.le_add_right a b))
  exact hraise.andThen fun t ht => (hg t).mono (fun _ => ht.trans) (fun _ => ht.trans)

theorem appends_fetchBytes (k : Nat) : Appends 0 (fetchBytes k) := by
  intro s
  rcases fetchBytes_cases k s with ⟨-, hf⟩ | ⟨-, hf⟩ <;> rw [hf] <;> exact .of_dIp rfl

/-- Bytes copied behind the output, the cursor moved up by as many. -/
theorem appended_copy {n : Nat} {s t : State} (src : Nat) (h : s.dOp.toNat + n ≤ s.outCap.toNat)
    (hframe : t = { s with
      mem := copyBytes s.mem src (s.outBase.toNat + s.dOp.toNat) n, dIp := t.dIp, dOp := cursor (s.dOp.toNat + n) }) :
    Appended n s t := by
  have hcap := s.outCap.isLt
  have hop : (cursor (s.dOp.toNat + n)).toNat = s.dOp.toNat + n := cursor_toNat_of_lt (by omega)
  rw [hframe]
  refine ⟨rfl, ?_, hop.le, fun x hx => ?_⟩
  · simp only [hop]
    omega
  · simp only [hop] at hx
    exact memRead_copyBytes_outside _ _ _ _ _ (by omega)

theorem appends_litCopy (n : Nat) : Appends n (litCopy n) := by
  intro s
  rcases litCopy_cases n s with ⟨e, hf, -, -⟩ | ⟨ho, -, hf⟩ <;> rw [hf]
  · exact .refl n s
  · exact appended_copy _ ho rfl

theorem appends_matchCopy (dist len : Nat) : Appends len (matchCopy dist len) := by
  intro s
  rcases matchCopy_cases dist len s with ⟨e, hf, -, -⟩ | ⟨-, ho, hf⟩ <;> rw [hf]
  · exact .refl len s
  · exact appended_copy _ ho rfl

/-- After a record's parts `d_state` is set, and the record is through. -/
theorem Appends.ran {n : Nat} {rule : State → Flow} (hr : Appends n rule) (d : DecState) (s : State) :
    ((rule s).andThen fun u => .ok (u.setDState d)).Ends (RecordRan n s.dPhase s) (Appended n s) :=
  (hr s).andThen fun _ hu => hu.setDState d

theorem literalRecord_ran (h n : Nat) (d : DecState) (s : State) :
    (literalRecord h n d s).Ends (RecordRan n s.dPhase s) (Appended n s) := by
  have hrule : Appends n fun t => (fetchBytes h t).andThen (litCopy n) := by
    simpa only [Nat.zero_add] using (appends_fetchBytes h).andThen (appends_litCopy n)
  rw [literalRecord, ← Flow.andThen_assoc]
  exact hrule.ran d s

/-- LIT_INIT passes to D_FETCH behind its literals (R193). -/
theorem literalRecord_toFetch_ran (h n : Nat) (d : DecState) (s : State) :
    ((literalRecord h n d s).andThen fun u => .ok (u.setDPhase .fetch)).Ends (RecordRan n .fetch s) (Appended n s) :=
  (literalRecord_ran h n d s).andThen fun _ hu => hu.setDPhase

theorem matchRecord_ran (h len dist k : Nat) (s : State) :
    (matchRecord h len dist k s).Ends (RecordRan (len + k) s.dPhase s) (Appended (len + k) s) := by
  have hrule : Appends len fun t => (fetchBytes h t).andThen (matchCopy dist len) := by
    simpa only [Nat.zero_add] using (appends_fetchBytes h).andThen (appends_matchCopy dist len)
  by_cases hk : k = 0
  · subst hk
    have heq : matchRecord h len dist 0 s =
        ((fetchBytes h s).andThen (matchCopy dist len)).andThen fun t => .ok (t.setDState (stateAfterMatch 0)) :=
      (Flow.andThen_assoc _ _ _).symm
    rw [heq]
    exact hrule.ran _ s
  · have heq : matchRecord h len dist k s =
        (((fetchBytes h s).andThen (matchCopy dist len)).andThen (litCopy k)).andThen
          fun t => .ok (t.setDState (stateAfterMatch k)) := by
      simp only [Flow.andThen_assoc, matchRecord]
      refine congrArg _ (funext fun t => ?_)
      simp only [matchTail, hk, if_false]
    rw [heq]
    exact (hrule.andThen (appends_litCopy k)).ran _ s

/-- A record's step: it went through, or the job ended after what it appended. -/
theorem frame_of_runRule {rule : State → Flow} {n : Nat} {p : DPhase} {s t : State}
    (hr : (rule s).Ends (RecordRan n p s) (Appended n s)) (hz : s.hazard = false) (h : runRule rule s = .next t) :
    (onlyDecoderMoved s t p ∨ onlyJobEnded s t) ∧ OutputAdvanced n s t := by
  obtain ⟨-, hanswer⟩ := runRule_next h
  obtain ⟨t', ht', hran | ⟨e, u, hu, rfl⟩⟩ := hr.answer
  · cases ht'.symm.trans hanswer
    exact ⟨.inl hran.frame, hran.advanced⟩
  · cases ht'.symm.trans hanswer
    obtain ⟨hended, hadvanced⟩ := hu.endJob hz e
    exact ⟨.inr hended, hadvanced⟩

end Sys2Proof.Machine

namespace Sys2Proof

/-- Settles O25: the three literal records are `literalRecord`, LIT_INIT with a pass to D_FETCH behind it. -/
theorem literalFrame : Obligations.LiteralFrame := by
  intro i n s t hop hz h
  cases i with
  | litInit m =>
    cases hop
    rw [if_pos rfl]
    exact frame_of_runRule (rule := fun u => (literalRecord 1 n (stateAfterLitInit n) u).andThen fun v =>
      .ok (v.setDPhase .fetch)) (literalRecord_toFetch_ran _ _ _ s) hz h
  | litShort m | litLong m =>
    cases hop
    rw [if_neg nofun]
    exact frame_of_runRule (literalRecord_ran _ _ _ s) hz h
  | _ => cases hop

/-- Settles O26: the seven match records are `matchRecord`. -/
theorem matchFrame : Obligations.MatchFrame := by
  intro i len dist k s t hop hz h
  rw [Nat.add_assoc]
  cases i with
  | m1a | m1b | m2 | m3 | m3Long | m4 | m4Long =>
    cases hop
    exact frame_of_runRule (matchRecord_ran _ _ _ _ s) hz h
  | _ => cases hop

end Sys2Proof
end

section
/-! PROOFS. The record headers (30_encoding.md R91 to R107) as a relation, row by row of the format tables, and the decoder: it
reads exactly these headers. -/

namespace Sys2Proof

/-! ### The headers of each record kind -/

/-- The decoder state an ordinary tag is read in: at the start of the stream it is S0 (R91). -/
def DecodeContext.tagState : DecodeContext → DecState
  | .start => .s0
  | .fetch d => d

/-- The tag `t` is not read as LIT_INIT by the start rule (R91). -/
def OrdinaryTag (c : DecodeContext) (t : Byte) : Prop := c = .start → t.toNat ≤ Config.litInitBias

/-- `IsHeader c i h`: in context `c` the bytes `h`, tag to last distance byte, are a header of the record `i`. The M4 forms are
EOF where `isEof` says so (R103). -/
inductive IsHeader (c : DecodeContext) : Instr → List Byte → Prop
  | litInit {t : Byte} (hc : c = .start) (ht : Config.litInitBias < t.toNat) :
    IsHeader c (.litInit (litInitCount t.toNat)) [t]
  | litShort {t : Byte} (hc : c.tagState = .s0) (h0 : t.toNat ≠ 0) (ht : t.toNat < 16) :
    IsHeader c (.litShort (litShortCount t.toNat)) [t]
  | litLong {C : Nat} (hc : c.tagState = .s0) (hC : 1 ≤ C) : IsHeader c (.litLong (litLongCount C)) (0#8 :: extBytes C)
  | m1a {t b : Byte} (hc : c = .fetch .s1) (ht : t.toNat < 16) :
    IsHeader c (.m1a (m1aDist t.toNat b.toNat) (sBits t.toNat)) [t, b]
  | m1b {t b : Byte} (hc : c = .fetch .s4) (ht : t.toNat < 16) :
    IsHeader c (.m1b (m1bDist t.toNat b.toNat) (sBits t.toNat)) [t, b]
  | m2 {t b : Byte} (hc : c ≠ .start) (ht : 64 ≤ t.toNat) :
    IsHeader c (.m2 (m2Len t.toNat) (m2Dist t.toNat b.toNat) (sBits t.toNat)) [t, b]
  | m3 {t b0 b1 : Byte} (hc : c ≠ .start) (hlo : 32 < t.toNat) (hhi : t.toNat < 64) :
    IsHeader c (.m3 (m3Len t.toNat) (m3Dist (distField b0 b1)) (sBits (distField b0 b1))) [t, b0, b1]
  | m3Long {C : Nat} {b0 b1 : Byte} (hc : c ≠ .start) (hC : 1 ≤ C) :
    IsHeader c (.m3Long (m3LongLen C) (m3Dist (distField b0 b1)) (sBits (distField b0 b1))) (32#8 :: (extBytes C ++ [b0, b1]))
  | m4 {t b0 b1 : Byte} (hc : OrdinaryTag c t) (hlo : 16 ≤ t.toNat) (hhi : t.toNat < 32) (hl : bits t.toNat 2 0 ≠ 0)
    (he : isEof t.toNat (distField b0 b1) = false) :
    IsHeader c (.m4 (m4Len t.toNat) (m4Dist t.toNat (distField b0 b1)) (sBits (distField b0 b1))) [t, b0, b1]
  | m4Long {t b0 b1 : Byte} {C : Nat} (hc : OrdinaryTag c t) (hlo : 16 ≤ t.toNat) (hhi : t.toNat < 32)
    (hl : bits t.toNat 2 0 = 0) (hC : 1 ≤ C) (he : isEof t.toNat (distField b0 b1) = false) :
    IsHeader c (.m4Long (m4LongLen C) (m4Dist t.toNat (distField b0 b1)) (sBits (distField b0 b1)))
      (t :: (extBytes C ++ [b0, b1]))
  | eof {t b0 b1 : Byte} (hc : OrdinaryTag c t) (hlo : 16 ≤ t.toNat) (hhi : t.toNat < 32) (hl : bits t.toNat 2 0 ≠ 0)
    (he : isEof t.toNat (distField b0 b1) = true) :
    IsHeader c (.eof (bits t.toNat 2 0) 0 (sBits (distField b0 b1))) [t, b0, b1]
  | eofLong {t b0 b1 : Byte} {C : Nat} (hc : OrdinaryTag c t) (hlo : 16 ≤ t.toNat) (hhi : t.toNat < 32)
    (hl : bits t.toNat 2 0 = 0) (hC : 1 ≤ C) (he : isEof t.toNat (distField b0 b1) = true) :
    IsHeader c (.eof 0 C (sBits (distField b0 b1))) (t :: (extBytes C ++ [b0, b1]))

/-- An ordinary tag from 18 on is read in D_FETCH only. -/
theorem OrdinaryTag.ne_start {c : DecodeContext} {t : Byte} (h : OrdinaryTag c t) (ht : Config.litInitBias < t.toNat) :
    c ≠ .start :=
  fun hc => absurd (h hc) (by omega)

/-- The start rule reads any other tag as LIT_INIT. -/
theorem start_of_not_ordinaryTag {c : DecodeContext} {t : Byte} (h : ¬OrdinaryTag c t) :
    c = .start ∧ Config.litInitBias < t.toNat := by
  simpa only [OrdinaryTag, Classical.not_imp, Nat.not_le] using h

theorem OrdinaryTag.of_lt {c : DecodeContext} {t : Byte} (ht : t.toNat < 16) : OrdinaryTag c t := fun _ => by
  simp only [Config.litInitBias]
  omega

theorem OrdinaryTag.of_ne_start {c : DecodeContext} {t : Byte} (h : c ≠ .start) : OrdinaryTag c t := fun hc => absurd hc h

/-- Beyond the start context the tag's state is the context's. -/
theorem DecodeContext.eq_fetch_of_tagState {c : DecodeContext} {d : DecState} (h : c.tagState = d) (hd : d ≠ .s0) :
    c = .fetch d := by
  cases c with
  | start => exact absurd h.symm hd
  | fetch d' => exact congrArg DecodeContext.fetch h

theorem DecodeContext.tagState_eq_s0_iff (c : DecodeContext) : c.tagState = .s0 ↔ c = .start ∨ c = .fetch .s0 := by
  cases c <;> simp [tagState]

/-! ### Which decoder a tag is given to -/

/-- An ordinary tag is given to `decodeTag` in every context (R91, R92). -/
theorem decode_cons_of_ordinaryTag {c : DecodeContext} {t : Byte} (rest : List Byte) (h : OrdinaryTag c t) :
    decode c (t :: rest) = decodeTag c.tagState (fun k => (t :: rest)[k]?) (rest.length + 1) t.toNat := by
  cases c with
  | start => exact if_neg (Nat.not_lt.2 (h rfl))
  | fetch d => rfl

/-- The ranges of an ordinary tag (R92). -/
theorem tag_range (t : Nat) :
    t < 16 ∨ (16 ≤ t ∧ t < 32) ∨ t = 32 ∨ (32 < t ∧ t < 64) ∨ 64 ≤ t := by omega

section Tags
variable (d : DecState) (rd : Nat → Option Byte) (fuel : Nat) {t : Nat}

theorem decodeTag_m2 (ht : 64 ≤ t) : decodeTag d rd fuel t = decodeM2 rd t := if_pos ht

theorem decodeTag_m3Long : decodeTag d rd fuel 32 = decodeM3Long rd fuel := rfl

theorem decodeTag_m3 (hlo : 32 < t) (hhi : t < 64) : decodeTag d rd fuel t = decodeM3 rd t := by
  rw [decodeTag.eq_def, if_neg (by omega), if_pos (by omega), if_neg (by omega)]

theorem decodeTag_m4Long (hlo : 16 ≤ t) (hhi : t < 32) (hl : bits t 2 0 = 0) :
    decodeTag d rd fuel t = decodeM4Long rd fuel t := by
  rw [decodeTag.eq_def, if_neg (by omega), if_neg (by omega), if_pos hlo, if_pos hl]

theorem decodeTag_m4 (hlo : 16 ≤ t) (hhi : t < 32) (hl : bits t 2 0 ≠ 0) : decodeTag d rd fuel t = decodeM4 rd t := by
  rw [decodeTag.eq_def, if_neg (by omega), if_neg (by omega), if_pos hlo, if_neg hl]

theorem decodeTag_litLong : decodeTag .s0 rd fuel 0 = decodeLitLong rd fuel := rfl

theorem decodeTag_litShort (h0 : t ≠ 0) (ht : t < 16) :
    decodeTag .s0 rd fuel t = .ok (.litShort (litShortCount t)) 1 := by
  rw [decodeTag.eq_def, if_neg (by omega), if_neg (by omega), if_neg (by omega)]
  exact if_neg h0

theorem decodeTag_m1a (ht : t < 16) : decodeTag .s1 rd fuel t = decodeM1a rd t := by
  rw [decodeTag.eq_def, if_neg (by omega), if_neg (by omega), if_neg (by omega)]

theorem decodeTag_m1b (ht : t < 16) : decodeTag .s4 rd fuel t = decodeM1b rd t := by
  rw [decodeTag.eq_def, if_neg (by omega), if_neg (by omega), if_neg (by omega)]

end Tags

/-! ### Continuations and distance fields in a list -/

/-- The encoder's continuation after a tag, whatever follows it, is read back (R105). -/
theorem extDecode_cons_extBytes (t : Byte) {x fuel : Nat} (rest : List Byte) (hx : 1 ≤ x) (hf : extLen x ≤ fuel) :
    extDecode (fun k => (t :: (extBytes x ++ rest))[k]?) fuel 1 0 = some (x, 1 + extLen x) := by
  rw [extDecode_ext _ x fuel 1 0 hx (fun j hj => ?_) hf, Nat.zero_add]
  rw [Nat.add_comm 1 j, List.getElem?_cons_succ, List.getElem?_append_left (by rwa [extBytes_length])]

/-- A continuation read after a tag is the encoder's (R105). -/
theorem extDecode_cons_inv {t : Byte} {rest : List Byte} {fuel C p : Nat}
    (h : extDecode (fun k => (t :: rest)[k]?) fuel 1 0 = some (C, p)) :
    1 ≤ C ∧ p = 1 + extLen C ∧ rest = extBytes C ++ (t :: rest).drop p := by
  obtain ⟨z, b, hb, hC, hp, hrest⟩ := extDecode_inv _ _ _ _ _ _ h
  rw [Nat.zero_add] at hC
  obtain ⟨hbytes, hlen⟩ := extBytes_run z b hb
  have hpos : b.toNat ≠ 0 := BitVec.toNat_ne.1 hb
  subst hC
  refine ⟨by omega, by omega, ?_⟩
  rw [hbytes, List.append_assoc]
  exact hrest

/-- Two bytes after a list's first `p` are the distance field at `p` (R101). -/
theorem readDistField_append {pre rest : List Byte} {b0 b1 : Byte} {p : Nat} (hp : p = pre.length) :
    readDistField (fun k => (pre ++ b0 :: b1 :: rest)[k]?) p = some (distField b0 b1) := by
  subst hp
  simp [readDistField]

/-- After a tag, the encoder's continuation and two bytes: the bytes are the distance field behind the continuation. -/
theorem readDistField_cons_extBytes (t : Byte) (x : Nat) (b0 b1 : Byte) (rest : List Byte) :
    readDistField (fun k => (t :: (extBytes x ++ b0 :: b1 :: rest))[k]?) (1 + extLen x) = some (distField b0 b1) :=
  readDistField_append (pre := t :: extBytes x) (by simp [extBytes_length, Nat.add_comm])

/-! ### The decoder reads exactly the headers -/

/-- A header is read whatever follows it. -/
theorem IsHeader.decode_append {c : DecodeContext} {i : Instr} {h : List Byte} (hh : IsHeader c i h) (rest : List Byte) :
    decode c (h ++ rest) = .ok i h.length := by
  have hfuel (x : Nat) (tail : List Byte) : extLen x ≤ (extBytes x ++ tail).length + 1 := by
    simp only [List.length_append, extBytes_length]
    omega
  have hlength (t : Byte) (x : Nat) (b0 b1 : Byte) : (t :: (extBytes x ++ [b0, b1])).length = 1 + extLen x + 2 := by
    simp only [List.length_cons, List.length_append, extBytes_length, List.length_nil]
    omega
  cases hh with
  | litInit hc ht =>
    subst hc
    exact if_pos ht
  | litShort hc h0 ht =>
    refine (decode_cons_of_ordinaryTag _ (.of_lt ht)).trans ?_
    rw [hc, decodeTag_litShort _ _ h0 ht]
    rfl
  | litLong hc hC =>
    refine (decode_cons_of_ordinaryTag _ (.of_lt (by decide))).trans ?_
    rw [hc]
    refine (decodeTag_litLong _ _).trans ?_
    rw [decodeLitLong, List.append_eq, extDecode_cons_extBytes _ _ hC (hfuel _ _), List.length_cons, extBytes_length,
      Nat.add_comm]
  | m1a hc ht =>
    subst hc
    exact decodeTag_m1a _ _ ht
  | m1b hc ht =>
    subst hc
    exact decodeTag_m1b _ _ ht
  | m2 hc ht => exact (decode_cons_of_ordinaryTag _ (.of_ne_start hc)).trans (decodeTag_m2 _ _ _ ht)
  | m3 hc hlo hhi => exact (decode_cons_of_ordinaryTag _ (.of_ne_start hc)).trans (decodeTag_m3 _ _ _ hlo hhi)
  | m3Long hc hC =>
    rw [hlength, List.cons_append, List.append_assoc, decode_cons_of_ordinaryTag _ (.of_ne_start hc)]
    refine (decodeTag_m3Long _ _ _).trans ?_
    simp only [decodeM3Long, extDecode_cons_extBytes _ _ hC (hfuel _ _), List.cons_append, List.nil_append,
      readDistField_cons_extBytes]
  | m4 hc hlo hhi hl he =>
    refine (decode_cons_of_ordinaryTag _ hc).trans ((decodeTag_m4 _ _ _ hlo hhi hl).trans ?_)
    exact if_neg (by simp [he])
  | m4Long hc hlo hhi hl hC he =>
    rw [hlength, List.cons_append, List.append_assoc, decode_cons_of_ordinaryTag _ hc, decodeTag_m4Long _ _ _ hlo hhi hl]
    simp only [decodeM4Long, extDecode_cons_extBytes _ _ hC (hfuel _ _), List.cons_append, List.nil_append,
      readDistField_cons_extBytes, he, Bool.false_eq_true, if_false]
  | eof hc hlo hhi hl he =>
    refine (decode_cons_of_ordinaryTag _ hc).trans ((decodeTag_m4 _ _ _ hlo hhi hl).trans ?_)
    exact if_pos he
  | eofLong hc hlo hhi hl hC he =>
    rw [hlength, List.cons_append, List.append_assoc, decode_cons_of_ordinaryTag _ hc, decodeTag_m4Long _ _ _ hlo hhi hl]
    simp only [decodeM4Long, extDecode_cons_extBytes _ _ hC (hfuel _ _), List.cons_append, List.nil_append,
      readDistField_cons_extBytes, he, if_true]

/-- In context `c` the `bytes` begin with a header of `n` bytes of the record `i`. -/
def BeginsWith (c : DecodeContext) (bytes : List Byte) (i : Instr) (n : Nat) : Prop :=
  ∃ h rest, IsHeader c i h ∧ h.length = n ∧ bytes = h ++ rest

section Inversion
variable {c : DecodeContext} {t : Byte} {rest : List Byte} {fuel : Nat} {i : Instr} {n : Nat}

/-- Two distance bytes after the tag. -/
theorem readDistField_cons_inv {D : Nat} (h : readDistField (fun k => (t :: rest)[k]?) 1 = some D) :
    ∃ b0 b1 rest', D = distField b0 b1 ∧ t :: rest = [t, b0, b1] ++ rest' := by
  obtain ⟨b0, b1, hD, hrest⟩ := readDistField_inv h
  exact ⟨b0, b1, _, hD, congrArg (t :: ·) hrest⟩

/-- A continuation after the tag, then two distance bytes. -/
theorem extDecode_readDistField_cons_inv {C p D : Nat} (hC : extDecode (fun k => (t :: rest)[k]?) fuel 1 0 = some (C, p))
    (hD : readDistField (fun k => (t :: rest)[k]?) p = some D) :
    1 ≤ C ∧ ∃ b0 b1 rest', D = distField b0 b1 ∧ (t :: (extBytes C ++ [b0, b1])).length = p + 2 ∧
      t :: rest = t :: (extBytes C ++ [b0, b1]) ++ rest' := by
  obtain ⟨hpos, hp, hrest⟩ := extDecode_cons_inv hC
  obtain ⟨b0, b1, hD, hdrop⟩ := readDistField_inv hD
  refine ⟨hpos, b0, b1, (t :: rest).drop (p + 2), hD, ?_, ?_⟩
  · simp only [List.length_cons, List.length_append, extBytes_length, List.length_nil]
    omega
  · rw [List.cons_append, List.append_assoc]
    exact congrArg (t :: ·) (hrest.trans (congrArg (extBytes C ++ ·) hdrop))

/-- LIT_LONG after its tag (R96). -/
theorem beginsWith_of_decodeLitLong (hc : c.tagState = .s0) (ht : t = 0#8)
    (h : decodeLitLong (fun k => (t :: rest)[k]?) fuel = .ok i n) : BeginsWith c (t :: rest) i n := by
  unfold decodeLitLong at h
  split at h
  · cases h
  next C p hC =>
    cases h
    obtain ⟨hpos, hp, hrest⟩ := extDecode_cons_inv hC
    refine ⟨_, (t :: rest).drop n, .litLong hc hpos, ?_, ?_⟩
    · rw [List.length_cons, extBytes_length, hp, Nat.add_comm]
    · rw [ht] at hrest ⊢
      exact congrArg (0#8 :: ·) hrest

/-- M3 after its tag (R101). -/
theorem beginsWith_of_decodeM3 (hc : c ≠ .start) (hlo : 32 < t.toNat) (hhi : t.toNat < 64)
    (h : decodeM3 (fun k => (t :: rest)[k]?) t.toNat = .ok i n) : BeginsWith c (t :: rest) i n := by
  unfold decodeM3 at h
  split at h
  · cases h
  next D hD =>
    cases h
    obtain ⟨b0, b1, rest', rfl, hbytes⟩ := readDistField_cons_inv hD
    exact ⟨_, rest', .m3 hc hlo hhi, rfl, hbytes⟩

/-- M3_LONG after its tag (R101). -/
theorem beginsWith_of_decodeM3Long (hc : c ≠ .start) (ht : t = 32#8)
    (h : decodeM3Long (fun k => (t :: rest)[k]?) fuel = .ok i n) : BeginsWith c (t :: rest) i n := by
  unfold decodeM3Long at h
  split at h
  · cases h
  next C p hC =>
    split at h
    · cases h
    next D hD =>
      cases h
      obtain ⟨hpos, b0, b1, rest', rfl, hlength, hbytes⟩ := extDecode_readDistField_cons_inv hC hD
      subst ht
      exact ⟨_, rest', .m3Long hc hpos, hlength, hbytes⟩

section M4
variable (hc : OrdinaryTag c t) (hlo : 16 ≤ t.toNat) (hhi : t.toNat < 32)
include hc hlo hhi

/-- M4 or EOF after its tag (R102, R103). -/
theorem beginsWith_of_decodeM4 (hl : bits t.toNat 2 0 ≠ 0)
    (h : decodeM4 (fun k => (t :: rest)[k]?) t.toNat = .ok i n) : BeginsWith c (t :: rest) i n := by
  unfold decodeM4 at h
  split at h
  · cases h
  next D hD =>
    obtain ⟨b0, b1, rest', rfl, hbytes⟩ := readDistField_cons_inv hD
    split at h <;> cases h
    next he => exact ⟨_, rest', .eof hc hlo hhi hl he, rfl, hbytes⟩
    next he => exact ⟨_, rest', .m4 hc hlo hhi hl (Bool.eq_false_iff.2 he), rfl, hbytes⟩

/-- M4_LONG or EOF after its tag (R102, R103). -/
theorem beginsWith_of_decodeM4Long (hl : bits t.toNat 2 0 = 0)
    (h : decodeM4Long (fun k => (t :: rest)[k]?) fuel t.toNat = .ok i n) : BeginsWith c (t :: rest) i n := by
  unfold decodeM4Long at h
  split at h
  · cases h
  next C p hC =>
    split at h
    · cases h
    next D hD =>
      obtain ⟨hpos, b0, b1, rest', rfl, hlength, hbytes⟩ := extDecode_readDistField_cons_inv hC hD
      split at h <;> cases h
      next he => exact ⟨_, rest', .eofLong hc hlo hhi hl hpos he, hlength, hbytes⟩
      next he => exact ⟨_, rest', .m4Long hc hlo hhi hl hpos (Bool.eq_false_iff.2 he), hlength, hbytes⟩

end M4

/-- A tag below 16, read by the state (R92). -/
theorem beginsWith_of_decodeTag_low (ht : t.toNat < 16)
    (h : decodeTag c.tagState (fun k => (t :: rest)[k]?) fuel t.toNat = .ok i n) : BeginsWith c (t :: rest) i n := by
  cases hd : c.tagState <;> rw [hd] at h
  case s0 =>
    by_cases h0 : t.toNat = 0
    · rw [h0] at h
      exact beginsWith_of_decodeLitLong hd (BitVec.eq_of_toNat_eq h0) h
    · rw [decodeTag_litShort _ _ h0 ht] at h
      cases h
      exact ⟨[t], rest, .litShort hd h0 ht, rfl, rfl⟩
  case s1 =>
    rw [decodeTag_m1a _ _ ht] at h
    cases rest with
    | nil => cases h
    | cons b rest =>
      cases h
      exact ⟨[t, b], rest, .m1a (c.eq_fetch_of_tagState hd nofun) ht, rfl, rfl⟩
  case s4 =>
    rw [decodeTag_m1b _ _ ht] at h
    cases rest with
    | nil => cases h
    | cons b rest =>
      cases h
      exact ⟨[t, b], rest, .m1b (c.eq_fetch_of_tagState hd nofun) ht, rfl, rfl⟩

/-- An ordinary tag, by its range (R92). -/
theorem beginsWith_of_decodeTag (hc : OrdinaryTag c t)
    (h : decodeTag c.tagState (fun k => (t :: rest)[k]?) fuel t.toNat = .ok i n) : BeginsWith c (t :: rest) i n := by
  obtain hlow | ⟨hlo, hhi⟩ | hm3Long | ⟨hlo, hhi⟩ | hm2 := tag_range t.toNat
  · exact beginsWith_of_decodeTag_low hlow h
  · by_cases hl : bits t.toNat 2 0 = 0
    · rw [decodeTag_m4Long _ _ _ hlo hhi hl] at h
      exact beginsWith_of_decodeM4Long hc hlo hhi hl h
    · rw [decodeTag_m4 _ _ _ hlo hhi hl] at h
      exact beginsWith_of_decodeM4 hc hlo hhi hl h
  · rw [hm3Long, decodeTag_m3Long] at h
    exact beginsWith_of_decodeM3Long (hc.ne_start (by rw [hm3Long]; decide)) (BitVec.eq_of_toNat_eq hm3Long) h
  · rw [decodeTag_m3 _ _ _ hlo hhi] at h
    exact beginsWith_of_decodeM3 (hc.ne_start (Nat.lt_trans (by decide) hlo)) hlo hhi h
  · rw [decodeTag_m2 _ _ _ hm2] at h
    cases rest with
    | nil => cases h
    | cons b rest =>
      cases h
      exact ⟨[t, b], rest, .m2 (hc.ne_start (Nat.lt_of_lt_of_le (by decide) hm2)) hm2, rfl, rfl⟩

end Inversion

/-- What the decoder reads is a header at the front of the bytes. -/
theorem beginsWith_of_decode {c : DecodeContext} {bytes : List Byte} {i : Instr} {n : Nat} (h : decode c bytes = .ok i n) :
    BeginsWith c bytes i n := by
  cases bytes with
  | nil => cases h
  | cons t rest =>
    by_cases hc : OrdinaryTag c t
    · rw [decode_cons_of_ordinaryTag _ hc] at h
      exact beginsWith_of_decodeTag hc h
    · obtain ⟨rfl, ht⟩ := start_of_not_ordinaryTag hc
      rw [show decode .start (t :: rest) = .ok (.litInit (litInitCount t.toNat)) 1 from if_pos ht] at h
      cases h
      exact ⟨[t], rest, .litInit rfl ht, rfl, rfl⟩

end Sys2Proof
end

section
/-! PROOFS. The encoder writes exactly the headers (30_encoding.md R94 to R103, R106): the record of a header is well formed, met
in its context and encoded as that header, and every well-formed record's encoding is a header of it. -/

namespace Sys2Proof

/-! ### The record of a header -/

/-- A byte is the one of its value. -/
theorem ofNat_eq_of_eq_toNat {k : Nat} {b : Byte} (h : k = b.toNat) : BitVec.ofNat 8 k = b := by
  subst h
  simp

theorem sBits_le (v : Nat) : sBits v ≤ 3 := by
  simp only [sBits, bits]
  omega

theorem m3Dist_range (D : Nat) : 1 ≤ m3Dist D ∧ m3Dist D ≤ Config.m3MaxOffset := by
  simp only [m3Dist, bits, Config.m3MaxOffset]
  omega

theorem isEof_iff (t D : Nat) : isEof t D = true ↔ bits t 3 3 = 0 ∧ bits D 15 2 = 0 := by
  simp only [isEof, Bool.and_eq_true, decide_eq_true_eq]

/-- The M4 distances that are not EOF's (R102). -/
theorem m4Dist_range {t D : Nat} (h : isEof t D = false) :
    Config.m4Bias < m4Dist t D ∧ m4Dist t D ≤ Config.m4MaxOffset := by
  have hne : ¬(bits t 3 3 = 0 ∧ bits D 15 2 = 0) := fun he => Bool.false_ne_true (h.symm.trans ((isEof_iff t D).2 he))
  simp only [m4Dist, bits, Config.m4Bias, Config.m4MaxOffset] at hne ⊢
  omega

/-- The records of a header are well formed (R94 to R103). -/
theorem IsHeader.wf {c : DecodeContext} {i : Instr} {h : List Byte} (hh : IsHeader c i h) : i.wf = true := by
  cases hh with simp only [Instr.wf, Bool.and_eq_true, decide_eq_true_eq]
  | @litInit t hc ht =>
    simp only [litInitCount, Config.litInitBias, Config.firstLitMax] at ht ⊢
    omega
  | litShort hc h0 ht =>
    simp only [litShortCount, bits]
    omega
  | litLong hc hC =>
    simp only [litLongCount]
    omega
  | @m1a t b hc ht =>
    refine ⟨?_, sBits_le _⟩
    simp only [m1aDist, bits]
    omega
  | @m1b t b hc ht =>
    refine ⟨?_, sBits_le _⟩
    simp only [m1bDist, bits, Config.m1bBias]
    omega
  | @m2 t b hc ht =>
    refine ⟨?_, sBits_le _⟩
    simp only [m2Len, m2Dist, bits, Config.m2MaxLen, Config.m2MaxOffset]
    omega
  | @m3 t b0 b1 hc hlo hhi =>
    refine ⟨⟨⟨?_, (m3Dist_range _).1⟩, (m3Dist_range _).2⟩, sBits_le _⟩
    simp only [m3Len, bits, Config.m3MaxLen]
    omega
  | m3Long hc hC =>
    refine ⟨⟨⟨?_, (m3Dist_range _).1⟩, (m3Dist_range _).2⟩, sBits_le _⟩
    simp only [m3LongLen]
    omega
  | m4 hc hlo hhi hl he =>
    refine ⟨⟨⟨?_, (m4Dist_range he).1⟩, (m4Dist_range he).2⟩, sBits_le _⟩
    simp only [m4Len, bits, Config.m4MaxLen] at hl ⊢
    omega
  | m4Long hc hlo hhi hl hC he =>
    refine ⟨⟨⟨?_, (m4Dist_range he).1⟩, (m4Dist_range he).2⟩, sBits_le _⟩
    simp only [m4LongLen]
    omega
  | eof hc hlo hhi hl he =>
    refine ⟨⟨?_, sBits_le _⟩, by rw [if_neg hl]; rfl⟩
    simp only [bits]
    omega
  | eofLong hc hlo hhi hl hC he => exact ⟨⟨Nat.zero_le _, sBits_le _⟩, decide_eq_true hC⟩

/-- The M4 tags of the start context are 16 and 17, whose bit 3 is 0 (R92). -/
theorem m4Dist_lt_of_start {t : Byte} {D : Nat} (hc : OrdinaryTag .start t) (hlo : 16 ≤ t.toNat) :
    bits t.toNat 2 0 ≤ 1 ∧ m4Dist t.toNat D < 0x8000 := by
  have ht := hc rfl
  simp only [bits, m4Dist, Config.m4Bias, Config.litInitBias] at ht ⊢
  omega

/-- The records of a header are met in its context (R91, R92). -/
theorem IsHeader.metIn {c : DecodeContext} {i : Instr} {h : List Byte} (hh : IsHeader c i h) : i.metIn c = true := by
  cases hh with
  | litInit hc | m1a hc | m1b hc | m2 hc | m3 hc | m3Long hc => exact decide_eq_true hc
  | litShort hc | litLong hc =>
    simpa only [Instr.metIn, Bool.or_eq_true, decide_eq_true_eq] using c.tagState_eq_s0_iff.1 hc
  | @m4 t b0 b1 hc hlo hhi hl he =>
    cases c with
    | fetch d => rfl
    | start =>
      obtain ⟨hl1, hdist⟩ := m4Dist_lt_of_start (D := distField b0 b1) hc hlo
      simp only [Instr.metIn, m4Len, hdist]
      simp
      omega
  | @m4Long t b0 b1 C hc hlo hhi hl hC he =>
    cases c with
    | fetch d => rfl
    | start => exact decide_eq_true (m4Dist_lt_of_start hc hlo).2
  | eof hc hlo hhi hl he =>
    cases c with
    | fetch d => rfl
    | start => exact decide_eq_true (m4Dist_lt_of_start (D := 0) hc hlo).1
  | eofLong => exact Bool.or_true _

theorem m3Dist_sub_one (D : Nat) : m3Dist D - 1 = bits D 15 2 := Nat.add_sub_cancel_left ..

/-- Bit 14 of an M4 distance above its bias is the tag's bit 3, the bits below are the field's (R102). -/
theorem m4Dist_parts (t D : Nat) :
    (m4Dist t D - Config.m4Bias) / 0x4000 = bits t 3 3 ∧ (m4Dist t D - Config.m4Bias) % 0x4000 = bits D 15 2 := by
  simp only [m4Dist, bits, Config.m4Bias]
  omega

/-- An M4 tag from its fields (R102). -/
theorem m4Tag_eq {t : Byte} (hlo : 16 ≤ t.toNat) (hhi : t.toNat < 32) :
    16 + 8 * bits t.toNat 3 3 + bits t.toNat 2 0 = t.toNat := by
  simp only [bits]
  omega

/-- The bytes of an M1A or M1B header from their fields (R98, R99). -/
theorem m1Bytes_eq {t b : Byte} (ht : t.toNat < 16) :
    [BitVec.ofNat 8 (4 * ((bits t.toNat 3 2 + 4 * b.toNat) % 4) + sBits t.toNat),
      BitVec.ofNat 8 ((bits t.toNat 3 2 + 4 * b.toNat) / 4)] = [t, b] := by
  simp only [bits, sBits]
  rw [ofNat_eq_of_eq_toNat (b := t) (by omega), ofNat_eq_of_eq_toNat (b := b) (by omega)]

/-- A header is the encoding of its record: no bit of it is dropped (R94 to R103). -/
theorem IsHeader.encode_eq {c : DecodeContext} {i : Instr} {h : List Byte} (hh : IsHeader c i h) : encode i = h := by
  cases hh with simp only [encode]
  | litInit hc ht =>
    rw [litInitCount, Nat.add_sub_cancel' (Nat.le_of_lt ht), ofNat_eq_of_eq_toNat rfl]
  | @litShort t hc h0 ht =>
    simp only [litShortCount, bits]
    rw [ofNat_eq_of_eq_toNat (b := t) (by omega)]
  | litLong hc hC => rw [litLongCount, Nat.add_sub_cancel_left]
  | @m1a t b hc ht =>
    rw [m1aDist, Nat.add_assoc, Nat.add_sub_cancel_left, m1Bytes_eq ht]
  | @m1b t b hc ht =>
    rw [m1bDist, Nat.add_assoc, Nat.add_assoc, Nat.add_sub_cancel_left, Nat.add_sub_cancel_left, m1Bytes_eq ht]
  | @m2 t b hc ht =>
    simp only [m2Len, m2Dist, bits, sBits]
    rw [ofNat_eq_of_eq_toNat (b := t) (by omega), ofNat_eq_of_eq_toNat (b := b) (by omega)]
  | @m3 t b0 b1 hc hlo hhi =>
    rw [m3Dist_sub_one, distBytes_distField, m3Len, Nat.add_sub_cancel, ofNat_eq_of_eq_toNat (b := t)]
    simp only [bits]
    omega
  | m3Long hc hC => rw [m3Dist_sub_one, distBytes_distField, m3LongLen, Nat.add_sub_cancel_left]
  | @m4 t b0 b1 hc hlo hhi hl he =>
    obtain ⟨hhigh, hlow⟩ := m4Dist_parts t.toNat (distField b0 b1)
    rw [hhigh, hlow, distBytes_distField, m4Len, Nat.add_sub_cancel, ofNat_eq_of_eq_toNat (m4Tag_eq hlo hhi)]
  | @m4Long t b0 b1 C hc hlo hhi hl hC he =>
    obtain ⟨hhigh, hlow⟩ := m4Dist_parts t.toNat (distField b0 b1)
    have htag := m4Tag_eq hlo hhi
    rw [hl, Nat.add_zero] at htag
    rw [hhigh, hlow, distBytes_distField, m4LongLen, Nat.add_sub_cancel_left, ofNat_eq_of_eq_toNat htag]
  | @eof t b0 b1 hc hlo hhi hl he =>
    obtain ⟨hhigh, hlow⟩ := (isEof_iff _ _).1 he
    have htag := m4Tag_eq hlo hhi
    have hdist := distBytes_distField b0 b1
    rw [hhigh, Nat.mul_zero, Nat.add_zero] at htag
    rw [hlow] at hdist
    rw [if_neg hl, hdist, ofNat_eq_of_eq_toNat htag, List.nil_append]
  | @eofLong t b0 b1 C hc hlo hhi hl hC he =>
    obtain ⟨hhigh, hlow⟩ := (isEof_iff _ _).1 he
    have htag := m4Tag_eq hlo hhi
    have hdist := distBytes_distField b0 b1
    rw [hhigh, hl] at htag
    rw [hlow] at hdist
    rw [if_pos trivial, hdist, ofNat_eq_of_eq_toNat htag]

/-! ### The header of a record -/

/-- A value of at most 255 is its byte's (R12). -/
theorem toNat_ofNat_of_le {k : Nat} (h : k ≤ 255) : (BitVec.ofNat 8 k).toNat = k := Nat.mod_eq_of_lt (Nat.lt_succ_of_le h)

/-- A header of an equal record. -/
theorem IsHeader.congr {c : DecodeContext} {i j : Instr} {h : List Byte} (hh : IsHeader c i h) (hij : i = j) : IsHeader c j h :=
  hij ▸ hh

theorem isHeader_encode_litInit {c : DecodeContext} {n : Nat} (hwf : (Instr.litInit n).wf = true) (hc : c = .start) :
    IsHeader c (.litInit n) (encode (.litInit n)) := by
  simp only [Instr.wf, Config.firstLitMax, Bool.and_eq_true, decide_eq_true_eq] at hwf
  obtain ⟨hlo, hhi⟩ := hwf
  have ht : (BitVec.ofNat 8 (Config.litInitBias + n)).toNat = Config.litInitBias + n :=
    toNat_ofNat_of_le (by rw [Config.litInitBias]; omega)
  refine (IsHeader.litInit hc (by omega)).congr ?_
  rw [litInitCount, ht, Nat.add_sub_cancel_left]

theorem isHeader_encode_litShort {c : DecodeContext} {n : Nat} (hwf : (Instr.litShort n).wf = true) (hc : c.tagState = .s0) :
    IsHeader c (.litShort n) (encode (.litShort n)) := by
  simp only [Instr.wf, Bool.and_eq_true, decide_eq_true_eq] at hwf
  obtain ⟨hlo, hhi⟩ := hwf
  have ht : (BitVec.ofNat 8 (n - 3)).toNat = n - 3 := toNat_ofNat_of_le (by omega)
  have hn : litShortCount (n - 3) = n := by
    simp only [litShortCount, bits]
    omega
  exact (IsHeader.litShort hc (by omega) (by omega)).congr (by rw [ht, hn])

theorem isHeader_encode_litLong {c : DecodeContext} {n : Nat} (hwf : (Instr.litLong n).wf = true) (hc : c.tagState = .s0) :
    IsHeader c (.litLong n) (encode (.litLong n)) := by
  have hn : 19 ≤ n := of_decide_eq_true hwf
  exact (IsHeader.litLong hc (Nat.sub_pos_of_lt hn)).congr (by rw [litLongCount, Nat.add_sub_cancel' (by omega)])

/-- What the distance field of an encoded distance holds (R101). -/
theorem field_distBytes {d s : Nat} (hd : d < 16384) (hs : s ≤ 3) :
    bits (distField (BitVec.ofNat 8 (4 * (d % 64) + s)) (BitVec.ofNat 8 (d / 64))) 15 2 = d ∧
      sBits (distField (BitVec.ofNat 8 (4 * (d % 64) + s)) (BitVec.ofNat 8 (d / 64))) = s := by
  rw [distField_distBytes d s hd hs]
  simp only [bits, sBits]
  omega

theorem isHeader_encode_m3 {c : DecodeContext} {len dist s : Nat} (hwf : (Instr.m3 len dist s).wf = true) (hc : c ≠ .start) :
    IsHeader c (.m3 len dist s) (encode (.m3 len dist s)) := by
  simp only [Instr.wf, Config.m3MaxLen, Config.m3MaxOffset, Bool.and_eq_true, decide_eq_true_eq] at hwf
  obtain ⟨⟨⟨⟨hl3, hl33⟩, hd1⟩, hdMax⟩, hs⟩ := hwf
  obtain ⟨hD, hsD⟩ := field_distBytes (d := dist - 1) (by omega) hs
  have ht : (BitVec.ofNat 8 (32 + (len - 2))).toNat = 32 + (len - 2) := toNat_ofNat_of_le (by omega)
  have hlen : m3Len (32 + (len - 2)) = len := by
    simp only [m3Len, bits]
    omega
  refine (IsHeader.m3 hc (by omega) (by omega)).congr ?_
  rw [m3Dist, hD, hsD, ht, hlen, Nat.add_sub_cancel' hd1]

theorem isHeader_encode_m3Long {c : DecodeContext} {len dist s : Nat} (hwf : (Instr.m3Long len dist s).wf = true)
    (hc : c ≠ .start) : IsHeader c (.m3Long len dist s) (encode (.m3Long len dist s)) := by
  simp only [Instr.wf, Config.m3MaxOffset, Bool.and_eq_true, decide_eq_true_eq] at hwf
  obtain ⟨⟨⟨hl33, hd1⟩, hdMax⟩, hs⟩ := hwf
  obtain ⟨hD, hsD⟩ := field_distBytes (d := dist - 1) (by omega) hs
  refine (IsHeader.m3Long hc (Nat.sub_pos_of_lt hl33)).congr ?_
  rw [m3Dist, hD, hsD, m3LongLen, Nat.add_sub_cancel' hd1, Nat.add_sub_cancel' (Nat.le_of_lt hl33)]

/-- What an encoded M4 tag holds (R102). -/
theorem m4Tag_fields {H L : Nat} (hH : H ≤ 1) (hL : L ≤ 7) :
    (BitVec.ofNat 8 (16 + 8 * H + L)).toNat = 16 + 8 * H + L ∧
      bits (BitVec.ofNat 8 (16 + 8 * H + L)).toNat 3 3 = H ∧ bits (BitVec.ofNat 8 (16 + 8 * H + L)).toNat 2 0 = L := by
  simp only [BitVec.toNat_ofNat, bits]
  omega

/-- The M4 tags 16 and 17 are ordinary in every context (R92). -/
theorem m4Tag_ordinary {c : DecodeContext} {H L : Nat} (hH : H ≤ 1) (hL : L ≤ 7) (hc : c = .start → H = 0 ∧ L ≤ 1) :
    OrdinaryTag c (BitVec.ofNat 8 (16 + 8 * H + L)) := by
  intro hstart
  obtain ⟨hH0, hL1⟩ := hc hstart
  rw [(m4Tag_fields hH hL).1, Config.litInitBias]
  omega

/-- The high part of an M4 distance is one bit, 0 below 0x8000 (R102). -/
theorem m4High_range {dist : Nat} (h : dist ≤ Config.m4MaxOffset) :
    (dist - Config.m4Bias) / 0x4000 ≤ 1 ∧ (dist < 0x8000 → (dist - Config.m4Bias) / 0x4000 = 0) := by
  simp only [Config.m4MaxOffset, Config.m4Bias] at h ⊢
  omega

/-- An M4 distance from its parts, which are not EOF's (R102, R103). -/
theorem m4Dist_eq_of_fields {t D dist : Nat} (hlo : Config.m4Bias < dist)
    (hH : bits t 3 3 = (dist - Config.m4Bias) / 0x4000) (hD : bits D 15 2 = (dist - Config.m4Bias) % 0x4000) :
    m4Dist t D = dist ∧ isEof t D = false := by
  refine ⟨?_, Bool.eq_false_iff.2 fun he => ?_⟩
  · rw [m4Dist, hH, hD]
    omega
  · rw [isEof_iff, hH, hD] at he
    omega

theorem isHeader_encode_m4 {c : DecodeContext} {len dist s : Nat} (hwf : (Instr.m4 len dist s).wf = true)
    (hc : (Instr.m4 len dist s).metIn c = true) : IsHeader c (.m4 len dist s) (encode (.m4 len dist s)) := by
  simp only [Instr.wf, Config.m4MaxLen, Bool.and_eq_true, decide_eq_true_eq] at hwf
  obtain ⟨⟨⟨⟨hl3, hl9⟩, hdlo⟩, hdhi⟩, hs⟩ := hwf
  obtain ⟨hH1, hH0⟩ := m4High_range hdhi
  have hL7 : len - 2 ≤ 7 := by omega
  obtain ⟨ht, hH, hL⟩ := m4Tag_fields hH1 hL7
  obtain ⟨hD, hsD⟩ := field_distBytes (Nat.mod_lt (dist - Config.m4Bias) (y := 0x4000) (by decide)) hs
  obtain ⟨hdist, he⟩ := m4Dist_eq_of_fields hdlo hH hD
  have hord := m4Tag_ordinary (c := c) hH1 hL7 fun hstart => by
    obtain ⟨hl, hd⟩ : len = 3 ∧ dist < 0x8000 := by simpa [Instr.metIn, hstart] using hc
    exact ⟨hH0 hd, by omega⟩
  refine (IsHeader.m4 hord (by omega) (by omega) (by omega) he).congr ?_
  rw [hdist, hsD, m4Len, hL, Nat.sub_add_cancel (Nat.le_of_lt hl3)]

theorem isHeader_encode_m4Long {c : DecodeContext} {len dist s : Nat} (hwf : (Instr.m4Long len dist s).wf = true)
    (hc : (Instr.m4Long len dist s).metIn c = true) : IsHeader c (.m4Long len dist s) (encode (.m4Long len dist s)) := by
  simp only [Instr.wf, Bool.and_eq_true, decide_eq_true_eq] at hwf
  obtain ⟨⟨⟨hl9, hdlo⟩, hdhi⟩, hs⟩ := hwf
  obtain ⟨hH1, hH0⟩ := m4High_range hdhi
  obtain ⟨ht, hH, hL⟩ := m4Tag_fields hH1 (Nat.zero_le 7)
  have hord := m4Tag_ordinary (c := c) hH1 (Nat.zero_le 7) fun hstart =>
    ⟨hH0 (by simpa [Instr.metIn, hstart] using hc), Nat.zero_le 1⟩
  rw [Nat.add_zero] at ht hH hL hord
  obtain ⟨hD, hsD⟩ := field_distBytes (Nat.mod_lt (dist - Config.m4Bias) (y := 0x4000) (by decide)) hs
  obtain ⟨hdist, he⟩ := m4Dist_eq_of_fields hdlo hH hD
  refine (IsHeader.m4Long hord (by omega) (by omega) hL (Nat.sub_pos_of_lt hl9) he).congr ?_
  rw [hdist, hsD, m4LongLen, Nat.add_sub_cancel' (Nat.le_of_lt hl9)]

theorem isHeader_encode_eof {c : DecodeContext} {l3 x s : Nat} (hwf : (Instr.eof l3 x s).wf = true)
    (hc : (Instr.eof l3 x s).metIn c = true) : IsHeader c (.eof l3 x s) (encode (.eof l3 x s)) := by
  simp only [Instr.wf, Bool.and_eq_true, decide_eq_true_eq] at hwf
  obtain ⟨⟨hl3, hs⟩, hx⟩ := hwf
  obtain ⟨ht, hH, hL⟩ := m4Tag_fields (Nat.zero_le 1) hl3
  obtain ⟨hD, hsD⟩ := field_distBytes (d := 0) (by decide) hs
  have he := (isEof_iff _ _).2 ⟨hH, hD⟩
  have hord := m4Tag_ordinary (c := c) (Nat.zero_le 1) hl3 fun hstart => ⟨rfl, by simpa [Instr.metIn, hstart] using hc⟩
  by_cases h0 : l3 = 0
  · subst h0
    exact (IsHeader.eofLong hord (by omega) (by omega) hL (of_decide_eq_true hx) he).congr (by rw [hsD])
  · rw [if_neg h0, decide_eq_true_eq] at hx
    subst hx
    rw [encode, if_neg h0]
    exact (IsHeader.eof hord (by omega) (by omega) (by rwa [hL]) he).congr (by rw [hsD, hL])

/-- An encoding has its header's length (R107), by the record's kind. -/
theorem length_encode (i : Instr) : (encode i).length = headerLen i := by
  cases i with
  | litInit n => exact (Laws.HeaderBytes.litInit n).1
  | litShort n => exact (Laws.HeaderBytes.litShort n).1
  | litLong n => exact (Laws.HeaderBytes.litLong n).1
  | m1a dist s => exact (Laws.HeaderBytes.m1a dist s).1
  | m1b dist s => exact (Laws.HeaderBytes.m1b dist s).1
  | m2 len dist s => exact (Laws.HeaderBytes.m2 len dist s).1
  | m3 len dist s => exact (Laws.HeaderBytes.m3 len dist s).1
  | m3Long len dist s => exact (Laws.HeaderBytes.m3Long len dist s).1
  | m4 len dist s => exact (Laws.HeaderBytes.m4 len dist s).1
  | m4Long len dist s => exact (Laws.HeaderBytes.m4Long len dist s).1
  | eof l3 x s => exact (Laws.HeaderBytes.eof l3 x s).1

/-- The encoding of a well-formed record is its header in every context the record is met in (R94 to R103). -/
theorem isHeader_encode {i : Instr} {c : DecodeContext} (hwf : i.wf = true) (hc : i.metIn c = true) :
    IsHeader c i (encode i) := by
  cases i with
  | litInit n => exact isHeader_encode_litInit hwf (of_decide_eq_true hc)
  | litShort n =>
    simp only [Instr.metIn, Bool.or_eq_true, decide_eq_true_eq] at hc
    exact isHeader_encode_litShort hwf (c.tagState_eq_s0_iff.2 hc)
  | litLong n =>
    simp only [Instr.metIn, Bool.or_eq_true, decide_eq_true_eq] at hc
    exact isHeader_encode_litLong hwf (c.tagState_eq_s0_iff.2 hc)
  | m1a dist s =>
    simp only [Instr.wf, Bool.and_eq_true, decide_eq_true_eq] at hwf
    refine (IsHeader.m1a (of_decide_eq_true hc) ?_).congr ?_
    all_goals
      simp only [Instr.m1a.injEq, m1aDist, sBits, bits, BitVec.toNat_ofNat]
      omega
  | m1b dist s =>
    simp only [Instr.wf, Bool.and_eq_true, decide_eq_true_eq] at hwf
    refine (IsHeader.m1b (of_decide_eq_true hc) ?_).congr ?_
    all_goals
      simp only [Instr.m1b.injEq, m1bDist, sBits, bits, BitVec.toNat_ofNat, Config.m1bBias]
      omega
  | m2 len dist s =>
    simp only [Instr.wf, Config.m2MaxLen, Config.m2MaxOffset, Bool.and_eq_true, decide_eq_true_eq] at hwf
    refine (IsHeader.m2 (of_decide_eq_true hc) ?_).congr ?_
    all_goals
      simp only [Instr.m2.injEq, m2Len, m2Dist, sBits, bits, BitVec.toNat_ofNat]
      omega
  | m3 len dist s => exact isHeader_encode_m3 hwf (of_decide_eq_true hc)
  | m3Long len dist s => exact isHeader_encode_m3Long hwf (of_decide_eq_true hc)
  | m4 len dist s => exact isHeader_encode_m4 hwf hc
  | m4Long len dist s => exact isHeader_encode_m4Long hwf hc
  | eof l3 x s => exact isHeader_encode_eof hwf hc

end Sys2Proof
end

section
/-! PROOFS. The obligations about encoding, O1 to O5, from the headers that the decoder reads and the encoder writes. -/

namespace Sys2Proof

/-! ### Continuing bytes to a header -/

/-- Bytes followed by 1, 0, 0 begin with two distance bytes. -/
theorem exists_two_append (l : List Byte) : ∃ b0 b1 rest, l ++ [1#8, 0#8, 0#8] = b0 :: b1 :: rest := by
  rcases l with _ | ⟨x, _ | ⟨y, l⟩⟩ <;> exact ⟨_, _, _, rfl⟩

/-- Bytes followed by 1, 0, 0 begin with a continuation and two distance bytes (R105). -/
theorem exists_extBytes_append (l : List Byte) :
    ∃ C b0 b1 rest, 1 ≤ C ∧ l ++ [1#8, 0#8, 0#8] = extBytes C ++ b0 :: b1 :: rest := by
  suffices h : ∃ z b b0 b1 rest, b ≠ 0#8 ∧ l ++ [1#8, 0#8, 0#8] = List.replicate z 0#8 ++ b :: b0 :: b1 :: rest by
    obtain ⟨z, b, b0, b1, rest, hb, hl⟩ := h
    have hpos : b.toNat ≠ 0 := BitVec.toNat_ne.1 hb
    refine ⟨255 * z + b.toNat, b0, b1, rest, by omega, ?_⟩
    rw [(extBytes_run z b hb).1, hl, List.append_assoc, List.singleton_append]
  induction l with
  | nil => exact ⟨0, 1#8, 0#8, 0#8, [], by decide, rfl⟩
  | cons t l ih =>
    by_cases ht : t = 0#8
    · obtain ⟨z, b, b0, b1, rest, hb, hl⟩ := ih
      exact ⟨z + 1, b, b0, b1, rest, hb, by rw [ht, List.cons_append, hl]; rfl⟩
    · obtain ⟨b0, b1, rest, hl⟩ := exists_two_append l
      exact ⟨0, t, b0, b1, rest, ht, congrArg (t :: ·) hl⟩

/-- No tag is reserved (R108): with enough bytes behind it every tag begins a header in every context. -/
theorem exists_beginsWith (c : DecodeContext) (t : Byte) (l : List Byte) :
    ∃ i n, BeginsWith c (t :: (l ++ [1#8, 0#8, 0#8])) i n := by
  obtain ⟨b0, b1, rest, htwo⟩ := exists_two_append l
  obtain ⟨C, d0, d1, rest', hC, hext⟩ := exists_extBytes_append l
  have hlong (u : Byte) : u :: (l ++ [1#8, 0#8, 0#8]) = u :: (extBytes C ++ [d0, d1]) ++ rest' := by
    rw [hext, List.cons_append, List.append_assoc]
    rfl
  by_cases hc : OrdinaryTag c t
  · obtain hlow | ⟨hlo, hhi⟩ | hm3Long | ⟨hlo, hhi⟩ | hm2 := tag_range t.toNat
    · cases hd : c.tagState
      case s0 =>
        by_cases h0 : t.toNat = 0
        · obtain rfl : t = 0#8 := BitVec.eq_of_toNat_eq h0
          exact ⟨_, _, _, _, .litLong hd hC, rfl, congrArg (0#8 :: ·) hext⟩
        · exact ⟨_, _, [t], _, .litShort hd h0 hlow, rfl, rfl⟩
      case s1 => exact ⟨_, _, _, _, .m1a (c.eq_fetch_of_tagState hd nofun) hlow, rfl, congrArg (t :: ·) htwo⟩
      case s4 => exact ⟨_, _, _, _, .m1b (c.eq_fetch_of_tagState hd nofun) hlow, rfl, congrArg (t :: ·) htwo⟩
    · by_cases hl : bits t.toNat 2 0 = 0
      · cases he : isEof t.toNat (distField d0 d1)
        · exact ⟨_, _, _, _, .m4Long hc hlo hhi hl hC he, rfl, hlong t⟩
        · exact ⟨_, _, _, _, .eofLong hc hlo hhi hl hC he, rfl, hlong t⟩
      · cases he : isEof t.toNat (distField b0 b1)
        · exact ⟨_, _, _, _, .m4 hc hlo hhi hl he, rfl, congrArg (t :: ·) htwo⟩
        · exact ⟨_, _, _, _, .eof hc hlo hhi hl he, rfl, congrArg (t :: ·) htwo⟩
    · obtain rfl : t = 32#8 := BitVec.eq_of_toNat_eq hm3Long
      exact ⟨_, _, _, _, .m3Long (hc.ne_start (by decide)) hC, rfl, hlong _⟩
    · exact ⟨_, _, _, _, .m3 (hc.ne_start (Nat.lt_trans (by decide) hlo)) hlo hhi, rfl, congrArg (t :: ·) htwo⟩
    · exact ⟨_, _, _, _, .m2 (hc.ne_start (Nat.lt_of_lt_of_le (by decide) hm2)) hm2, rfl, congrArg (t :: ·) htwo⟩
  · obtain ⟨hstart, ht⟩ := start_of_not_ordinaryTag hc
    exact ⟨_, _, [t], _, .litInit hstart ht, rfl, rfl⟩

/-! ### The obligations -/

/-- Settles O1, by running the decoder. -/
theorem exampleWordsDecode : Obligations.ExampleWordsDecode := by
  unfold Obligations.ExampleWordsDecode
  decide

/-- Settles O2: the encoding is a header of the record (`isHeader_encode`), and the decoder reads every header. -/
theorem decodeInvertsEncode : Obligations.DecodeInvertsEncode := by
  intro i c rest hwf hc
  rw [(isHeader_encode hwf hc).decode_append rest, length_encode]

/-- Settles O3: the decoder reads headers only (`beginsWith_of_decode`), and a header is the encoding of its record. -/
theorem encodeInvertsDecode : Obligations.EncodeInvertsDecode := by
  intro c bytes i n h
  obtain ⟨header, rest, hheader, rfl, rfl⟩ := beginsWith_of_decode h
  refine ⟨hheader.wf, hheader.metIn, ?_, ?_⟩
  · rw [← length_encode, hheader.encode_eq]
  · rw [hheader.encode_eq, List.take_left]

/-- Settles O4: with the bytes 1, 1, 0, 0 behind them any bytes begin with a header; it is longer than the bytes, since they
would decode to its record otherwise. -/
theorem onlyShortInputFailsToDecode : Obligations.OnlyShortInputFailsToDecode := by
  intro c bytes e herror
  obtain ⟨t, l, hl⟩ : ∃ t l, bytes ++ [1#8, 1#8, 0#8, 0#8] = t :: (l ++ [1#8, 0#8, 0#8]) := by
    cases bytes with
    | nil => exact ⟨1#8, [], rfl⟩
    | cons t l => exact ⟨t, l ++ [1#8], by simp⟩
  obtain ⟨i, n, header, rest, hheader, rfl, hbytes⟩ := exists_beginsWith c t l
  refine ⟨[1#8, 1#8, 0#8, 0#8], i, header.length, ?_, Nat.lt_of_not_le fun hle => ?_⟩
  · rw [hl, hbytes, hheader.decode_append]
  · have htake : bytes.take header.length = header := by
      rw [← List.take_append_of_le_length hle, hl, hbytes, List.take_left]
    rw [← List.take_append_drop header.length bytes, htake, hheader.decode_append] at herror
    cases herror

/-- Settles O5: the bytes are the header of LIT_LONG with the continuation of value `255 * z + b`. -/
theorem continuationAddsUp : Obligations.ContinuationAddsUp := by
  intro z b rest hb
  obtain ⟨hbytes, hlen⟩ := extBytes_run z b hb
  have hpos : b.toNat ≠ 0 := BitVec.toNat_ne.1 hb
  have h := (IsHeader.litLong (c := .fetch .s0) (C := 255 * z + b.toNat) rfl (by omega)).decode_append rest
  rw [List.length_cons, extBytes_length, hlen, hbytes, List.cons_append, List.append_assoc, List.singleton_append] at h
  exact h

end Sys2Proof
end

section
/-! PROOFS. START with good windows (R260, R131, R190): O31. -/

open Sys2Proof Sys2Proof.Machine

namespace Sys2Proof.Machine

/-- A write of CTRL with START = 1 while no job runs is START (R21, R260). -/
theorem writeCtrl_start (v : Word) (s : State) (hb : s.statusBusy = false) (hv : v.getLsbD 0 = true) :
    writeCtrl v s = startJob (modeOfBit (v.getLsbD 1)) (v.getLsbD 2) s := by
  simp only [writeCtrl, hb, hv, Bool.false_eq_true, if_false, if_true]

/-- START has written CTRL and STATUS, the engine's registers not yet (R260). -/
def jobAccepted (mode : Mode) (ie : Bool) (s : State) : State :=
  { s with
    ctrlMode := mode, ctrlIe := ie, statusErr := .ok, statusDone := false, statusBusy := true, hazard := overlapsOther s }

/-- The job of `mode` has begun (R131, R190). -/
def jobBegun (mode : Mode) (ie : Bool) (s : State) : State :=
  match mode with
  | .comp => startCompress (jobAccepted .comp ie s)
  | .dec => startDecompress (jobAccepted .dec ie s)

/-- START with its windows placed on ordinary memory begins the job of its mode (R260, R261). -/
theorem startJob_placed (mode : Mode) (ie : Bool) {s : State} (hp : placementOk s = true) (hd : windowOnDevice s = false) :
    startJob mode ie s = .next (jobBegun mode ie s) := by
  have hdevice : ¬windowOnDevice s = true := by simp only [hd, Bool.false_eq_true, not_false_eq_true]
  cases mode <;> exact (if_pos hp).trans (if_neg hdevice)

end Sys2Proof.Machine

namespace Sys2Proof

/-- Settles O31: the write is START, which begins the job that bit 1 names (`startJob_placed`). -/
theorem startBeginsJob : Obligations.StartBeginsJob := by
  intro s v rest h hb hv hp hd
  have hstep : step s = startJob (modeOfBit (v.getLsbD 1)) (v.getLsbD 2) { s with host := rest } := by
    rw [step_regWrite h (by decide) (by decide)]
    exact writeCtrl_start v _ hb hv
  rw [hstep]
  constructor <;> intro hmode <;> rw [hmode] <;> exact startJob_placed _ _ hp hd

end Sys2Proof
end

section
/-! PROOFS. The match finder's phases up to a match (40_match_finder.md): the whole next state of C_SEG, C_ADVANCE and C_PROBE.
O41 to O44. -/

open Sys2Proof Sys2Proof.Machine Sys2Proof.Statements

namespace Sys2Proof.Machine

/-- The step of a running compress job is the rule of its phase (R130, R264). -/
theorem step_of_running_comp {s : State} (h : running .comp s) : step s = (compressorRule s).answer := by
  obtain ⟨hhost, hb, hmode, hp⟩ := h
  rw [step_of_no_host hhost, engineStep, if_pos hb, hmode]
  exact runRule_placed compressorRule s hp

/-- The invariant of a running compress job. -/
theorem compInv_of_running {s : State} (h : running .comp s) (hinv : s.inv = true) : CompInv s := by
  obtain ⟨-, hb, hmode, -⟩ := h
  exact (inv_iff_comp hb hmode).1 hinv

theorem compressorRule_seg {s : State} (h : s.cPhase = .seg) : compressorRule s = phaseSeg s := by rw [compressorRule, h]
theorem compressorRule_advance {s : State} (h : s.cPhase = .advance) : compressorRule s = phaseAdvance s := by
  rw [compressorRule, h]
theorem compressorRule_probe {s : State} (h : s.cPhase = .probe) : compressorRule s = phaseProbe s := by
  rw [compressorRule, h]
theorem compressorRule_matched {s : State} (h : s.cPhase = .matched) : compressorRule s = phaseMatch s := by
  rw [compressorRule, h]
theorem compressorRule_flush {s : State} (h : s.cPhase = .flush) : compressorRule s = phaseFlush s := by
  rw [compressorRule, h]

/-! ### The hash -/

theorem hashIndex_eq (v : Word) : hashIndex v = Config.hashMult.toNat * v.toNat % 2 ^ 32 / 2 ^ Config.hashShift := by
  rw [hashIndex, BitVec.toNat_ushiftRight, BitVec.toNat_mul, Nat.shiftRight_eq_div_pow]

/-! ### C_SEG -/

/-- At most 20 bytes left are not compressed (R132). -/
theorem phaseSeg_of_rem_le {s : State} (h : s.cRem.toNat ≤ 20) : phaseSeg s = .ok (s.setCPhase .flush) := if_pos h

/-- The next segment's length (R133). -/
def lengthChosen (s : State) : State := { s with cLl := cursor (min s.cRem.toNat Config.segMax) }

theorem lengthChosen_cLl (s : State) : (lengthChosen s).cLl.toNat = min s.cRem.toNat Config.segMax := by
  have := s.cRem.isLt
  exact cursor_toNat_of_lt (by omega)

/-- With more than 20 bytes left the carried literals and the segment decide (R133). -/
theorem phaseSeg_of_lt_rem {s : State} (h : 20 < s.cRem.toNat) :
    phaseSeg s =
      if (s.cT.toNat + min s.cRem.toNat Config.segMax) / 32 = 0 then .ok ((lengthChosen s).setCPhase .flush)
      else .ok (segmentSetUp (lengthChosen s)) := by
  rw [← lengthChosen_cLl]
  exact if_neg (Nat.not_le.2 h)

/-! ### C_PROBE -/

theorem phaseProbe_at_end {s : State} (hseg : segmentOk s = true) (h : s.cIpend.toNat ≤ s.cIp.toNat) :
    phaseProbe s = .ok (segmentEnd s) := by
  rw [phaseProbe, if_pos hseg, if_pos h]

theorem phaseProbe_below_end {s : State} (hseg : segmentOk s = true) (h : s.cIp.toNat < s.cIpend.toNat) :
    phaseProbe s = probeAt s := by
  rw [phaseProbe, if_pos hseg, if_neg (Nat.not_le.2 h)]

end Sys2Proof.Machine

namespace Sys2Proof

/-- Settles O41: R135's formula and the table's size. -/
theorem hashIsAnIndex : Obligations.HashIsAnIndex := fun v => ⟨hashIndex_eq v, hashIndex_lt v⟩

/-- Settles O42: the three ways out of C_SEG. -/
theorem segmentPhase : Obligations.SegmentPhase := by
  intro s hrun hphase
  rw [step_of_running_comp hrun, compressorRule_seg hphase]
  refine ⟨fun hrem => ?_, fun hrem hshort => ?_, fun hrem hlong => ?_⟩
  · rw [phaseSeg_of_rem_le hrem]
    rfl
  · rw [phaseSeg_of_lt_rem hrem, if_pos (Nat.div_eq_of_lt hshort)]
    rfl
  · rw [phaseSeg_of_lt_rem hrem, if_neg (by simp only [Config.segMax]; omega)]
    refine ⟨_, rfl, fun h => rfl, ?_⟩
    simp only [segmentSetUp, lengthChosen_cLl]
    rfl

/-- Settles O43: R137's sum as the 32-bit register c_ip holds it. -/
theorem advancePhase : Obligations.AdvancePhase := by
  intro s hrun hphase
  rw [step_of_running_comp hrun, compressorRule_advance hphase]
  exact ⟨_, rfl, rfl, cursor_toNat _⟩

/-- Settles O44: the segment's end, or the probe with its table update (`sparseGet_set`). -/
theorem probePhase : Obligations.ProbePhase := by
  intro s hrun hphase hseg hwf h cand
  rw [step_of_running_comp hrun, compressorRule_probe hphase]
  refine ⟨fun hend => ?_, fun hlt hcand => ?_⟩
  · rw [phaseProbe_at_end hseg hend]
    rfl
  · rw [phaseProbe_below_end hseg hlt]
    exact ⟨_, congrArg Flow.answer (if_pos hcand), fun a => sparseGet_set s.ht _ a _ hwf, rfl⟩

end Sys2Proof
end

section
/-! PROOFS. Match extension (R140): the XOR of two chunks in bytes, and how the loop over pairs of chunks ends. O45. -/

open Sys2Proof Sys2Proof.Machine

namespace Sys2Proof.Machine

/-! ### The first difference of two chunks -/

/-- The bytes at match length `k` agree (R140). -/
def byteMatches (s : State) (k : Nat) : Prop := inByte s (s.cIp.toNat + k) = inByte s (s.cCand.toNat + k)

/-- `ctz32` finds the lowest set bit of a nonzero word. -/
theorem getLsbD_ctz32 {v : Word} (h : v ≠ 0#32) : v.getLsbD (ctz32 v) = true ∧ ∀ i, i < ctz32 v → v.getLsbD i = false := by
  have hne : v.toNat ≠ 0 := fun h0 => h (BitVec.eq_of_toNat_eq h0)
  obtain ⟨-, q, hq⟩ := trailingZeros_spec 32 v.toNat hne v.isLt
  have hbit : ∀ i, v.getLsbD i = (decide (ctz32 v ≤ i) && (2 * q + 1).testBit (i - ctz32 v)) := by
    intro i
    rw [BitVec.getLsbD, hq, Nat.testBit_two_pow_mul]
    rfl
  refine ⟨?_, fun i hi => ?_⟩
  · simp [hbit]
  · simp [hbit, Nat.not_le.2 hi]

/-- The bits of `LE32` are those of its bytes, the first lowest (R65). -/
theorem le32_getLsbD (s : State) (i : Nat) {k b : Nat} (hk : k < 4) (hb : b < 8) :
    (le32 s i).getLsbD (8 * k + b) = (inByte s (i + k)).getLsbD b := by
  rw [le32_append, BitVec.getLsbD_append, BitVec.getLsbD_append, BitVec.getLsbD_append]
  match k, hk with
  | 0, _ => rw [if_pos (by omega), Nat.mul_zero, Nat.zero_add, Nat.add_zero]
  | 1, _ => rw [if_neg (by omega), if_pos (by omega)]; congr 1; omega
  | 2, _ => rw [if_neg (by omega), if_neg (by omega), if_pos (by omega)]; congr 1; omega
  | 3, _ => rw [if_neg (by omega), if_neg (by omega), if_neg (by omega)]; congr 1; omega

/-- Byte `k` of `X(m)` compares the bytes at match length `m + k` (R140). -/
theorem chunkXor_getLsbD (s : State) (m : Nat) {k b : Nat} (hk : k < 4) (hb : b < 8) :
    (chunkXor s m).getLsbD (8 * k + b) =
      ((inByte s (s.cIp.toNat + (m + k))).getLsbD b ^^ (inByte s (s.cCand.toNat + (m + k))).getLsbD b) := by
  rw [chunkXor, BitVec.getLsbD_xor, le32_getLsbD s _ hk hb, le32_getLsbD s _ hk hb, Nat.add_assoc, Nat.add_assoc]

/-- The bytes below match length `n` agree. -/
def MatchesBelow (s : State) (n : Nat) : Prop := ∀ k, k < n → byteMatches s k

theorem MatchesBelow.append {s : State} {m n : Nat} (hm : MatchesBelow s m) (hn : ∀ k, k < n → byteMatches s (m + k)) :
    MatchesBelow s (m + n) := by
  intro k hk
  rcases Nat.lt_or_ge k m with hlt | hge
  · exact hm k hlt
  · rw [← Nat.add_sub_of_le hge]
    exact hn _ (by omega)

/-- Bytes whose bits all agree are equal. -/
theorem byteMatches_of_chunkXor {s : State} {m k : Nat} (hk : k < 4)
    (h : ∀ b, b < 8 → (chunkXor s m).getLsbD (8 * k + b) = false) : byteMatches s (m + k) := by
  refine BitVec.eq_of_getLsbD_eq fun b hb => ?_
  have hxor := h b hb
  rw [chunkXor_getLsbD s m hk hb] at hxor
  simpa using hxor

/-- Where `X(m)` is 0 the four bytes from match length `m` on agree. -/
theorem MatchesBelow.chunk {s : State} {m : Nat} (hm : MatchesBelow s m) (h : ¬chunkXor s m ≠ 0#32) :
    MatchesBelow s (m + 4) :=
  hm.append fun _ hk => byteMatches_of_chunkXor hk fun b _ => by rw [not_not.1 h, BitVec.getLsbD_zero]

/-- Where `X(m)` is not 0, the bytes below byte `ctz32 (X m) / 8` agree. -/
theorem MatchesBelow.below_difference {s : State} {m : Nat} (hm : MatchesBelow s m) (h : chunkXor s m ≠ 0#32) :
    MatchesBelow s (m + ctz32 (chunkXor s m) / 8) := by
  have hlt := ctz32_div_lt h
  exact hm.append fun k hk => byteMatches_of_chunkXor (by omega) fun b hb => (getLsbD_ctz32 h).2 _ (by omega)

/-- Where `X(m)` is not 0, byte `ctz32 (X m) / 8` differs. -/
theorem not_byteMatches_difference {s : State} {m : Nat} (h : chunkXor s m ≠ 0#32) :
    ¬byteMatches s (m + ctz32 (chunkXor s m) / 8) := by
  intro heq
  have hset := (getLsbD_ctz32 h).1
  rw [← Nat.div_add_mod (ctz32 (chunkXor s m)) 8, chunkXor_getLsbD s m (ctz32_div_lt h) (Nat.mod_lt _ (by decide)), heq,
    Bool.xor_self] at hset
  cases hset

/-! ### The loop -/

/-- How extension ends: at a byte that differs, or at the clamp, after the second chunk of a pair (R140). -/
def ExtensionStops (s : State) (n : Nat) : Prop :=
  ¬byteMatches s n ∨ ∃ j, 1 ≤ j ∧ n = 4 + 8 * j ∧ s.cIpend.toNat ≤ s.cIp.toNat + n

/-- The loop passes equal bytes only, where `X(m)` is 0 as it starts. -/
theorem matchesBelow_extendLoop {s : State} (fuel : Nat) {m : Nat} (hm : MatchesBelow s (m + 4)) :
    MatchesBelow s (extendLoop s fuel m) := by
  induction fuel generalizing m with
  | zero => exact fun k hk => hm k (Nat.lt_add_right 4 hk)
  | succ fuel ih =>
    unfold extendLoop
    split
    case isTrue hdiff => exact hm.below_difference hdiff
    case isFalse hsame =>
      have hpair : MatchesBelow s (m + 8) := hm.chunk hsame
      split
      · exact hpair
      · split
        case isTrue hdiff => exact hpair.below_difference hdiff
        case isFalse hsame => exact ih (hpair.chunk hsame)

/-- From the end of a pair below `c_ipend` the loop stops before its passes are used up. -/
theorem extendLoop_stops {s : State} (fuel : Nat) {j : Nat} (hlt : s.cIp.toNat + 8 * j < s.cIpend.toNat)
    (hfuel : s.cIpend.toNat ≤ s.cIp.toNat + 8 * (j + fuel)) : ExtensionStops s (extendLoop s fuel (4 + 8 * j)) := by
  induction fuel generalizing j with
  | zero => omega
  | succ fuel ih =>
    unfold extendLoop
    split
    case isTrue hdiff => exact .inl (not_byteMatches_difference hdiff)
    case isFalse =>
      split
      case isTrue hclamp => exact .inr ⟨j + 1, by omega, by omega, hclamp⟩
      case isFalse =>
        split
        case isTrue hdiff => exact .inl (not_byteMatches_difference hdiff)
        case isFalse => exact ih (j := j + 1) (by omega) (by omega)

/-- The loop passes no clamp: each pair that ends between its start and its end does so below `c_ipend`. -/
theorem extendLoop_unclamped {s : State} (fuel : Nat) {i j : Nat} (hij : i < j)
    (hj : 4 + 8 * j < extendLoop s fuel (4 + 8 * i)) : s.cIp.toNat + (4 + 8 * j) < s.cIpend.toNat := by
  induction fuel generalizing i with
  | zero =>
    simp only [extendLoop] at hj
    omega
  | succ fuel ih =>
    unfold extendLoop at hj
    split at hj
    case isTrue hdiff =>
      have := ctz32_div_lt hdiff
      omega
    case isFalse =>
      split at hj
      · omega
      · split at hj
        case isTrue hdiff =>
          have := ctz32_div_lt hdiff
          have : j = i + 1 := by omega
          omega
        case isFalse =>
          rcases Nat.lt_or_ge (i + 1) j with hnext | hlast
          · exact ih (i := i + 1) hnext hj
          · omega

/-! ### Extension -/

/-- Extension ends in the chunk behind the first 4 bytes, or is the loop's from there on (R140). -/
theorem extend_cases (s : State) :
    (chunkXor s 4 ≠ 0#32 ∧ extend s = 4 + ctz32 (chunkXor s 4) / 8) ∨
    (¬chunkXor s 4 ≠ 0#32 ∧ extend s = extendLoop s s.cIpend.toNat 4) := by
  unfold extend
  split
  case isTrue hdiff => exact .inl ⟨hdiff, rfl⟩
  case isFalse hsame => exact .inr ⟨hsame, rfl⟩

/-- After a hit extension passes equal bytes only (R136, R140). -/
theorem matchesBelow_extend {s : State} (h : le32 s s.cCand.toNat = le32 s s.cIp.toNat) : MatchesBelow s (extend s) := by
  have hhit : chunkXor s 0 = 0#32 := by simp only [chunkXor, Nat.add_zero, h, BitVec.xor_self]
  have hmin : MatchesBelow s 4 := MatchesBelow.chunk (m := 0) nofun (not_not.2 hhit)
  rcases extend_cases s with ⟨hdiff, heq⟩ | ⟨hsame, heq⟩ <;> rw [heq]
  · exact hmin.below_difference hdiff
  · exact matchesBelow_extendLoop _ (hmin.chunk hsame)

end Sys2Proof.Machine

namespace Sys2Proof

/-- Settles O45: the bytes extension passes, how it stops (`extendLoop_stops`) and the clamps it passes. -/
theorem extensionFindsEqualBytes : Obligations.ExtensionFindsEqualBytes := by
  intro s
  refine ⟨fun hhit => ⟨extend_ge s, matchesBelow_extend hhit⟩, fun hlt => ⟨?_, fun j hj hlong => ?_, extend_le hlt⟩⟩
  · rcases extend_cases s with ⟨hdiff, h⟩ | ⟨-, h⟩ <;> rw [h]
    · exact .inl (not_byteMatches_difference hdiff)
    · exact extendLoop_stops _ (j := 0) (by omega) (by omega)
  · rcases extend_cases s with ⟨hdiff, h⟩ | ⟨-, h⟩ <;> rw [h] at hlong
    · have := ctz32_div_lt hdiff
      omega
    · exact extendLoop_unclamped _ (i := 0) hj hlong

end Sys2Proof
end

section
/-! PROOFS. C_MATCH and the patch of the s-bits (R138, R162 to R164, R170) where the output has room: the records written as
the list of their bytes, and where the bytes stand. O46 and O47. -/

open Sys2Proof Sys2Proof.Machine Sys2Proof.Statements

namespace Sys2Proof.Machine

/-! ### Bytes behind the output -/

@[simp] theorem afterPut_outCap (bs : List Byte) (s : State) : (afterPut bs s).outCap = s.outCap := rfl

/-- Bytes put behind the output read back. -/
theorem outBytes_afterPut {s : State} (hs : OutputReady s) {bs : List Byte} (h : s.cOp.toNat + bs.length ≤ s.outCap.toNat) :
    outBytes (afterPut bs s) s.cOp.toNat bs.length = bs := by
  have hout := placementOk_out hs.placed
  refine List.ext_getElem (by simp [outBytes]) fun k _ hk => ?_
  simp only [outBytes, List.getElem_map, List.getElem_range, outByte, ← Nat.add_assoc]
  exact memRead_memWriteAll _ _ _ k hk hs.memWf (by omega)

/-- Bytes put behind the output change no other byte. -/
theorem memoryKept_afterPut (bs : List Byte) (s : State) :
    memoryKept s (afterPut bs s) s.cOp.toNat (s.cOp.toNat + bs.length) :=
  fun _ hx => memRead_memWriteAll_outside _ _ _ _ (by omega)

/-- Bytes put behind the output leave the output so far. -/
theorem outByte_afterPut_of_lt (bs : List Byte) {s : State} {j : Nat} (h : j < s.cOp.toNat) :
    outByte (afterPut bs s) j = outByte s j :=
  memRead_memWriteAll_outside _ _ _ _ (.inl (Nat.add_lt_add_left h _))

/-- Input bytes stay as they are while the output grows (R61, R62). -/
theorem OutputGrew.inByte_eq {k i : Nat} {s t : State} (h : OutputGrew k s t) (hs : OutputReady s) (hi : i < s.inLen.toNat) :
    inByte t i = inByte s i :=
  inByte_of_outside (by rw [h.frame]) hs.placed h.kept i hi

theorem OutputGrew.inBytes_eq {k i n : Nat} {s t : State} (h : OutputGrew k s t) (hs : OutputReady s)
    (hin : i + n ≤ s.inLen.toNat) : inBytes t i n = inBytes s i n := by
  refine List.map_congr_left fun j hj => h.inByte_eq hs ?_
  have := List.mem_range.1 hj
  omega

@[simp] theorem inBytes_length (s : State) (i n : Nat) : (inBytes s i n).length = n := by simp [inBytes]

/-- A run of input bytes that fits is put (R162, R170). -/
theorem putInput_ok {start n : Nat} {s : State} (hp : placementOk s = true) (hin : start + n ≤ s.inLen.toNat)
    (hfit : s.cOp.toNat + n ≤ s.outCap.toNat) : putInput start n s = .ok (afterPut (inBytes s start n) s) := by
  rw [putInput_eq start n s hp hin]
  exact putAll_ok (bs := inBytes s start n) (by rwa [inBytes_length])

/-! ### The patch of the s-bits -/

/-- The state with a run's count `n` in the s-bits of the record before (R163). -/
def sPatched (n : Nat) (s : State) : State :=
  outWrite s (s.cOp.toNat - 2) (outByte s (s.cOp.toNat - 2) ||| lowByte n)

@[simp] theorem sPatched_cOp (n : Nat) (s : State) : (sPatched n s).cOp = s.cOp := rfl
@[simp] theorem sPatched_outBase (n : Nat) (s : State) : (sPatched n s).outBase = s.outBase := rfl

theorem outputGrew_sPatched {s : State} (hs : OutputReady s) (h : 2 ≤ s.cOp.toNat) (n : Nat) :
    OutputGrew 0 s (sPatched n s) := by
  have hends := sPatch_ends (t := n) hs h
  rwa [sPatch_ok h hs.cOp_le] at hends

/-- The patched byte (R163). -/
theorem outByte_sPatched (n : Nat) {s : State} (hm : Memory.wf s.mem = true) :
    outByte (sPatched n s) (s.cOp.toNat - 2) = outByte s (s.cOp.toNat - 2) ||| lowByte n :=
  (memRead_memWrite _ _ _ _ hm).trans (if_pos rfl)

/-- The patch changes its byte alone. -/
theorem memRead_sPatched_ne (n : Nat) {s : State} {x : Nat} (h : x ≠ s.outBase.toNat + (s.cOp.toNat - 2)) :
    memRead (sPatched n s).mem x = memRead s.mem x :=
  memRead_memWrite_ne _ _ _ _ h

theorem outByte_sPatched_ne (n : Nat) {s : State} {j : Nat} (h : j ≠ s.cOp.toNat - 2) :
    outByte (sPatched n s) j = outByte s j :=
  memRead_sPatched_ne n (mt Nat.add_left_cancel h)

/-- A run of 1 to 3 literals behind a record: its count in the record's s-bits, then the literals (R163, R170). -/
theorem sPatch_putInput {start n : Nat} {s : State} (hs : OutputReady s) (h2 : 2 ≤ s.cOp.toNat)
    (hin : start + n ≤ s.inLen.toNat) (hfit : s.cOp.toNat + n ≤ s.outCap.toNat) :
    (sPatch n s).andThen (putInput start n) = .ok (afterPut (inBytes s start n) (sPatched n s)) := by
  have hgrew := outputGrew_sPatched hs h2 n
  rw [sPatch_ok h2 hs.cOp_le, Flow.andThen_ok, ← sPatched, putInput_ok (hgrew.ready hs).placed hin hfit,
    hgrew.inBytes_eq hs hin]

/-- Where the bytes stand after a patch by `n` and `bs` put behind the output: the two record bytes before the output's end,
`bs`, and all others. -/
structure PatchedAndPut (n : Nat) (bs : List Byte) (s t : State) : Prop where
  patched : outByte t (s.cOp.toNat - 2) = outByte s (s.cOp.toNat - 2) ||| lowByte n
  last : outByte t (s.cOp.toNat - 1) = outByte s (s.cOp.toNat - 1)
  put : outBytes t s.cOp.toNat bs.length = bs
  kept : memoryKept s t (s.cOp.toNat - 2) (s.cOp.toNat + bs.length)

/-- A patch, then bytes put behind the output: each byte stands where it should. -/
theorem patchedAndPut {s : State} (hs : OutputReady s) (h2 : 2 ≤ s.cOp.toNat) (n : Nat) {bs : List Byte}
    (hfit : s.cOp.toNat + bs.length ≤ s.outCap.toNat) : PatchedAndPut n bs s (afterPut bs (sPatched n s)) where
  patched := by rw [outByte_afterPut_of_lt bs (by rw [sPatched_cOp]; omega), outByte_sPatched n hs.memWf]
  last := by rw [outByte_afterPut_of_lt bs (by rw [sPatched_cOp]; omega), outByte_sPatched_ne n (by omega)]
  put := outBytes_afterPut ((outputGrew_sPatched hs h2 n).ready hs) hfit
  kept x hx := by
    rw [memoryKept_afterPut bs (sPatched n s) x (by rw [sPatched_outBase, sPatched_cOp]; omega)]
    exact memRead_sPatched_ne n (by omega)

/-! ### The pending literals of C_MATCH -/

/-- 4 pending literals and more: a tag, then the literals (R162). -/
theorem emitLiterals_tagged {start n : Nat} {s : State} (hs : OutputReady s) (hn : 4 ≤ n)
    (hin : start + n ≤ s.inLen.toNat) (hfit : s.cOp.toNat + (literalTag n ++ inBytes s start n).length ≤ s.outCap.toNat) :
    emitLiterals start n s = .ok (afterPut (literalTag n ++ inBytes s start n) s) := by
  rw [List.length_append, inBytes_length] at hfit
  have hcap := s.outCap.isLt
  have hgrew := outputGrew_afterPut hs (bs := literalTag n) (by omega)
  have hop : (afterPut (literalTag n) s).cOp.toNat = s.cOp.toNat + (literalTag n).length := afterPut_cOp (by omega)
  have hroom : (afterPut (literalTag n) s).cOp.toNat + n ≤ s.outCap.toNat := by omega
  rw [emitLiterals, if_neg (by omega), if_neg (by omega), putAll_ok (by omega), Flow.andThen_ok,
    putInput_ok (hgrew.ready hs).placed hin hroom, hgrew.inBytes_eq hs hin, ← afterPut_append _ _ _ (by omega)]

/-- The bytes that a run of no literal, or of 4 and more, adds to the output (R162). -/
def taggedRun (s : State) (start n : Nat) : List Byte := if n = 0 then [] else literalTag n ++ inBytes s start n

/-- Where no patch is due, the pending literals are put as one list of bytes (R162). -/
theorem emitLiterals_ok {start n : Nat} {s : State} (hs : OutputReady s) (hn : n = 0 ∨ 4 ≤ n)
    (hin : start + n ≤ s.inLen.toNat) (hfit : s.cOp.toNat + (taggedRun s start n).length ≤ s.outCap.toNat) :
    emitLiterals start n s = .ok (afterPut (taggedRun s start n) s) := by
  rcases hn with rfl | hn
  · exact congrArg Flow.ok (afterPut_nil s).symm
  · rw [taggedRun, if_neg (by omega)] at hfit ⊢
    exact emitLiterals_tagged hs hn hin hfit

/-- 1 to 3 pending literals: `sPatch_putInput` (R162, R163). -/
theorem emitLiterals_patched {start n : Nat} {s : State} (hs : OutputReady s) (hn : 1 ≤ n) (hn3 : n ≤ 3)
    (h2 : 2 ≤ s.cOp.toNat) (hin : start + n ≤ s.inLen.toNat) (hfit : s.cOp.toNat + n ≤ s.outCap.toNat) :
    emitLiterals start n s = .ok (afterPut (inBytes s start n) (sPatched n s)) := by
  rw [emitLiterals, if_neg (by omega), if_pos hn3]
  exact sPatch_putInput hs h2 hin hfit

/-! ### The match of C_MATCH -/

/-- C_MATCH before its match is put, with memory `m` after the s-bits' patch or without one. -/
def matchTaken (m : List Host.Cell) (s : State) : State :=
  { s with
    mem := m, cT := 0#32, cMlen := cursor (extend s), cMoff := cursor (s.cIp.toNat - s.cCand.toNat)
    cIp := cursor (s.cIp.toNat + extend s), cIi := cursor (s.cIp.toNat + extend s) }

/-- The match is found behind the bytes that the pending literals put. -/
theorem matchFound_afterPut (m : List Host.Cell) (run : List Byte) (s : State) :
    matchFound (extend s) (s.cIp.toNat - s.cCand.toNat) (afterPut run ((runFlushed s).setMem m)) =
      afterPut run (matchTaken m s) := rfl

@[simp] theorem matchTaken_cOp (m : List Host.Cell) (s : State) : (matchTaken m s).cOp = s.cOp := rfl
@[simp] theorem matchTaken_outCap (m : List Host.Cell) (s : State) : (matchTaken m s).outCap = s.outCap := rfl

/-- Under the invariant the pending run lies in the input, and a run short enough for the s-bits comes after a record (R138,
R163). -/
theorem CompInv.pendingRun {s : State} (hs : CompInv s) (hp : s.cPhase = .matched) :
    s.cIi.toNat - s.cT.toNat + (s.cIp.toNat - (s.cIi.toNat - s.cT.toNat)) ≤ s.inLen.toNat ∧
    (s.cIp.toNat - (s.cIi.toNat - s.cT.toNat) ≤ 3 → 2 ≤ s.cOp.toNat) := by
  obtain ⟨hseg, -, -, hlt, -, hfresh⟩ := (phaseInv_matched hp).1 hs.phase
  obtain ⟨hinput, hipend, _, _, _, ht, hpos, hii, _, hrun⟩ := hseg
  have hne := hs.cOp_ne
  omega

/-- Extension compares input bytes, so what is written before it does not change the match (R62, R67, R141). -/
theorem extend_of_grew {s t : State} (hs : CompInv s) (hp : s.cPhase = .matched) {k : Nat}
    (h : OutputGrew k (runFlushed s) t) : extend t = extend s := by
  obtain ⟨hseg, -, hcand, hlt, -, -⟩ := (phaseInv_matched hp).1 hs.phase
  have hip : t.cIp = s.cIp := by rw [h.frame]; rfl
  have hcand' : t.cCand = s.cCand := by rw [h.frame]; rfl
  have hipend : t.cIpend = s.cIpend := by rw [h.frame]; rfl
  refine extend_congr (by rw [hip]) (by rw [hcand']) (by rw [hipend]) (Nat.le_of_lt hcand) hlt fun i hi => ?_
  exact h.inByte_eq (s := runFlushed s) { hs.ready with } (Nat.lt_of_lt_of_le hi (hseg.ipend ▸ hseg.inInput))

/-- C_MATCH with room, where its pending literals put the bytes `run`: the match's record follows them (R138, R164). -/
theorem phaseMatch_ok {s : State} (hs : CompInv s) (hp : s.cPhase = .matched) {m : List Host.Cell} {run : List Byte}
    (hlit : emitLiterals (s.cIi.toNat - s.cT.toNat) (s.cIp.toNat - (s.cIi.toNat - s.cT.toNat)) (runFlushed s) =
      .ok (afterPut run ((runFlushed s).setMem m)))
    (hfit : s.cOp.toNat + (run ++ matchBytes (extend s) (s.cIp.toNat - s.cCand.toNat)).length ≤ s.outCap.toNat) :
    phaseMatch s = .ok
      ((afterPut (run ++ matchBytes (extend s) (s.cIp.toNat - s.cCand.toNat)) (matchTaken m s)).setCPhase .probe) := by
  obtain ⟨hseg, -, hcand, hlt, -, -⟩ := (phaseInv_matched hp).1 hs.phase
  have ht := hseg.t_pos.trans hseg.pos_ii
  obtain ⟨hlit_in, hlit_patch⟩ := hs.pendingRun hp
  have hends := emitLiterals_ends (s := runFlushed s) { hs.ready with } hlit_in hlit_patch
  rw [hlit] at hends
  have hext : extend (afterPut run ((runFlushed s).setMem m)) = extend s := extend_of_grew hs hp hends
  rw [List.length_append] at hfit
  have hcap := s.outCap.isLt
  have hrun : (matchTaken m s).cOp.toNat + run.length < 2 ^ 32 := by
    rw [matchTaken_cOp]
    omega
  have hroom : (afterPut run (matchTaken m s)).cOp.toNat +
      (matchBytes (extend s) (s.cIp.toNat - s.cCand.toNat)).length ≤ (afterPut run (matchTaken m s)).outCap.toNat := by
    rw [afterPut_cOp hrun, afterPut_outCap, matchTaken_cOp, matchTaken_outCap]
    omega
  have hdist : (afterPut run ((runFlushed s).setMem m)).cIp.toNat - (afterPut run ((runFlushed s).setMem m)).cCand.toNat =
      s.cIp.toNat - s.cCand.toNat := rfl
  rw [phaseMatch_eq hseg.ok hcand hlt ht hseg.ii_ip, hlit, Flow.andThen_ok, hext, hdist, matchFound_afterPut, emitMatch,
    putAll_ok hroom, Flow.andThen_ok, ← afterPut_append run _ (matchTaken m s) hrun]

/-! ### The final run behind a match -/

/-- C_FLUSH with 1 to 3 literals behind a record, and room: `sPatch_putInput` (R163, R170). -/
theorem phaseFlush_patched {s : State} (hs : CompInv s) (hp : s.cPhase = .flush) (h2 : 2 ≤ s.cOp.toNat) {n : Nat}
    (hn : n = s.cT.toNat + s.cRem.toNat) (hpos : 1 ≤ n) (hn3 : n ≤ 3) (hfit : s.cOp.toNat + n ≤ s.outCap.toNat) :
    phaseFlush s = .ok ((afterPut (inBytes s (s.inLen.toNat - n) n) (sPatched n (restTaken s))).setCPhase .finish) := by
  subst hn
  obtain ⟨ht, -⟩ := (phaseInv_between (.inr hp)).1 hs.phase
  have htotal := hs.total
  have hle : s.cT.toNat + s.cRem.toNat ≤ s.inLen.toNat := by omega
  have hnotFirst : ¬((restTaken s).cOp.toNat = 0 ∧ s.cT.toNat + s.cRem.toNat ≤ Config.firstLitMax) :=
    fun h => absurd h.1 (Nat.ne_of_gt (Nat.lt_of_lt_of_le (by decide) h2))
  rw [phaseFlush_eq hle, if_pos (Nat.lt_of_succ_le hpos), finalRunHeader, if_neg hnotFirst, if_pos hn3,
    sPatch_putInput (s := restTaken s) { hs.ready with } h2 (Nat.sub_add_cancel hle).le hfit]
  rfl

end Sys2Proof.Machine

namespace Sys2Proof

/-- Settles O46: the run's record or none is put (`emitLiterals_ok`), then the match's. -/
theorem matchPhaseEmitsRecords : Obligations.MatchPhaseEmitsRecords := by
  intro s hrun hphase hinv start n len dist bytes hn hfit
  have hs := compInv_of_running hrun hinv
  have hready : OutputReady (runFlushed s) := { hs.ready with }
  have hlit := emitLiterals_ok hready hn (hs.pendingRun hphase).1 (by
    rw [List.length_append] at hfit
    exact Nat.le_trans (Nat.add_le_add_left (Nat.le_add_right _ _) _) hfit)
  rw [step_of_running_comp hrun, compressorRule_matched hphase, phaseMatch_ok hs hphase (m := s.mem) hlit hfit]
  refine ⟨_, rfl, rfl, ?_, ?_⟩
  · exact outBytes_afterPut (s := matchTaken s.mem s) { hs.ready with } hfit
  · exact memoryKept_afterPut bytes (matchTaken s.mem s)

/-- Settles O47: C_MATCH patches and goes on as without pending literals (`phaseMatch_ok`), C_FLUSH ends behind the run. -/
theorem pendingLiteralsPatchStateByte : Obligations.PendingLiteralsPatchStateByte := by
  intro s hinv
  constructor
  · intro hrun hphase start n len dist bytes hn hn3 hfit
    have hs := compInv_of_running hrun hinv
    have h2 := (hs.pendingRun hphase).2 hn3
    have hlit := emitLiterals_patched (s := runFlushed s) { hs.ready with } hn hn3 h2 (hs.pendingRun hphase).1 (by
      simp only [bytes, List.length_append, inBytes_length] at hfit
      exact Nat.le_trans (Nat.add_le_add_left (Nat.le_add_right _ _) _) hfit)
    rw [step_of_running_comp hrun, compressorRule_matched hphase,
      phaseMatch_ok hs hphase (m := (sPatched n (runFlushed s)).mem) hlit hfit]
    obtain ⟨hpatched, hlast, hput, hkept⟩ := patchedAndPut hs.ready h2 n hfit
    exact ⟨h2, _, rfl, rfl, hpatched, hlast, hput, hkept⟩
  · intro hrun hphase hne n hn hn3 hfit
    have hs := compInv_of_running hrun hinv
    have h2 : 2 ≤ s.cOp.toNat := (Nat.two_le_iff _).2 ⟨hne, hs.cOp_ne⟩
    rw [step_of_running_comp hrun, compressorRule_flush hphase, phaseFlush_patched hs hphase h2 rfl hn hn3 hfit]
    obtain ⟨hpatched, hlast, hput, hkept⟩ :=
      patchedAndPut hs.ready h2 n (bs := inBytes s (s.inLen.toNat - n) n) (by rwa [inBytes_length])
    rw [inBytes_length] at hput hkept
    refine ⟨h2, _, rfl, ?_, hpatched, hlast, hput, hkept⟩
    simp only [afterPut, inBytes_length]
    rfl

end Sys2Proof
end

section
/-! PROOFS. The bytes that the compressor emits for a record (R161 to R167) are the encoder's (R94 to R103), also after the patch
of the s-bits. O7. -/

open Sys2Proof Sys2Proof.Machine Sys2Proof.Statements

namespace Sys2Proof.Machine

/-! ### Bytes and distance fields -/

/-- A byte keeps the low 8 bits alone, so a mask of them before it changes nothing. -/
theorem lowByte_and_0xFF (v : Nat) : lowByte (v &&& 0xFF) = lowByte v := by
  refine BitVec.eq_of_toNat_eq ?_
  simp only [lowByte, BitVec.toNat_ofNat, Nat.and_two_pow_sub_one_eq_mod v 8, Nat.mod_mod]

/-- The distance bytes that the compressor emits are the encoder's of the low 14 bits, with no s-bits (R166, R167). -/
theorem emittedDistBytes_eq (d : Nat) : [lowByte (d <<< 2), lowByte (d >>> 6)] = distBytes (d % 0x4000) 0 := by
  have hlow : lowByte (d <<< 2) = BitVec.ofNat 8 (4 * (d % 0x4000 % 64) + 0) := by
    refine BitVec.eq_of_toNat_eq ?_
    simp only [lowByte, BitVec.toNat_ofNat, Nat.shiftLeft_eq]
    omega
  have hhigh : lowByte (d >>> 6) = BitVec.ofNat 8 (d % 0x4000 / 64) := by
    refine BitVec.eq_of_toNat_eq ?_
    simp only [lowByte, BitVec.toNat_ofNat, Nat.shiftRight_eq_div_pow]
    omega
  rw [distBytes, hlow, hhigh]

/-! ### A match's record -/

/-- `emit_m2` writes an M2 (R165, R100). -/
theorem emitM2_eq (len dist : Nat) : emitM2 len dist = encode (.m2 len dist 0) := by
  have hd : (dist - 1) &&& 7 = (dist - 1) % 8 := Nat.and_two_pow_sub_one_eq_mod (dist - 1) 3
  have hfield : ((dist - 1) % 8) <<< 2 = 4 * ((dist - 1) % 8) := by rw [Nat.shiftLeft_eq, Nat.mul_comm]
  rw [emitM2, encode, hd, shiftLeft_or _ _ _ (by omega), hfield, Nat.shiftRight_eq_div_pow]
  rfl

/-- `emit_m3` writes an M3 or, past 33 bytes, an M3_LONG (R166, R101). -/
theorem emitM3_eq {len dist : Nat} (hdist : dist ≤ Config.m3MaxOffset) :
    emitM3 len dist = encode (if len ≤ Config.m3MaxLen then .m3 len dist 0 else .m3Long len dist 0) := by
  have hd : (dist - 1) % 0x4000 = dist - 1 := Nat.mod_eq_of_lt (by simp only [Config.m3MaxOffset] at hdist; omega)
  rw [emitM3, lowByte_and_0xFF, emittedDistBytes_eq, hd]
  split
  case isTrue hlen =>
    have htag : 0x20 ||| (len - 2) = 32 + (len - 2) :=
      shiftLeft_or 1 (len - 2) 5 (by simp only [Config.m3MaxLen] at hlen; omega)
    rw [htag]
    rfl
  case isFalse hlen =>
    rw [emitExt_eq _ (Nat.sub_pos_of_lt (Nat.lt_of_not_le hlen))]
    rfl

/-- The tag bit `H` of an M4 distance above its bias (R102, R167). -/
theorem m4HighBit_eq {d : Nat} (h : d < 0x8000) : (d >>> 11) &&& 8 = 8 * (d / 0x4000) := by
  have hbit : (d >>> 11) &&& 8 = d / 2 ^ 11 / 2 ^ 3 % 2 * 2 ^ 3 := by
    rw [← Nat.toNat_testBit, ← Nat.shiftRight_eq_div_pow d 11]
    exact Nat.and_two_pow (d >>> 11) 3
  omega

/-- An M4 tag is the sum of its fields (R102). -/
theorem m4Tag_or {H L : Nat} (hH : H ≤ 1) (hL : L ≤ 7) : 0x10 ||| 8 * H ||| L = 16 + 8 * H + L := by
  have hhigh : 0x10 ||| 8 * H = (2 + H) <<< 3 := by interval_cases H <;> rfl
  rw [hhigh, shiftLeft_or _ _ _ (by omega)]
  omega

/-- `emit_m4` writes an M4 or, past 9 bytes, an M4_LONG (R167, R102). -/
theorem emitM4_eq {len dist : Nat} (hdist : dist ≤ Config.m4MaxOffset) :
    emitM4 len dist = encode (if len ≤ Config.m4MaxLen then .m4 len dist 0 else .m4Long len dist 0) := by
  have hH := (m4High_range hdist).1
  have hd : (dist - Config.m4Bias) < 0x8000 := by simp only [Config.m4MaxOffset, Config.m4Bias] at hdist ⊢; omega
  simp only [emitM4, lowByte_and_0xFF, emittedDistBytes_eq, m4HighBit_eq hd]
  split
  case isTrue hlen =>
    rw [m4Tag_or hH (by simp only [Config.m4MaxLen] at hlen; omega)]
    rfl
  case isFalse hlen =>
    have htag := m4Tag_or hH (Nat.zero_le 7)
    rw [Nat.or_zero, Nat.add_zero] at htag
    rw [htag, emitExt_eq _ (Nat.sub_pos_of_lt (Nat.lt_of_not_le hlen))]
    rfl

/-- The classifier's bytes are its record's (R164). -/
theorem matchBytes_eq_encode {len dist : Nat} (hdist : dist ≤ Config.m4MaxOffset) :
    matchBytes len dist = encode (classified len dist 0) := by
  unfold matchBytes classified
  split
  · exact emitM2_eq len dist
  · split
    · exact emitM3_eq ‹_›
    · exact emitM4_eq hdist

/-! ### The patch of the s-bits -/

/-- The s-bits are the low bits of a record's last byte but one, and of no other byte (R97, R100 to R102). -/
theorem encode_classified_sBits (len dist : Nat) :
    ∃ front x last, ∀ k, encode (classified len dist k) = front ++ [BitVec.ofNat 8 (4 * x + k), last] := by
  unfold classified
  split
  · refine ⟨[], 8 * (len - 1) + (dist - 1) % 8, BitVec.ofNat 8 ((dist - 1) / 8), fun k => ?_⟩
    rw [encode, Nat.mul_add, ← Nat.mul_assoc]
    rfl
  · split
    · split
      · exact ⟨[_], _, _, fun k => rfl⟩
      · exact ⟨32#8 :: extBytes _, _, _, fun k => rfl⟩
    · split
      · exact ⟨[_], _, _, fun k => rfl⟩
      · exact ⟨_ :: extBytes _, _, _, fun k => rfl⟩

/-- The patch of a state byte with no s-bits (R163). -/
theorem stateByte_or_lowByte (x : Nat) {k : Nat} (hk : k ≤ 3) :
    BitVec.ofNat 8 (4 * x + 0) ||| lowByte k = BitVec.ofNat 8 (4 * x + k) := by
  have hor : 4 * x ||| k = 4 * x + k := by
    simpa only [Nat.shiftLeft_eq, Nat.mul_comm x, Nat.reducePow] using shiftLeft_or x k 2 (by omega)
  rw [lowByte, ← BitVec.ofNat_or, Nat.add_zero, hor]

/-- Patching the last byte but one of a match's record gives the record with those s-bits (R163, R97). -/
theorem encode_classified_patched {len dist k : Nat} (hk : k ≤ 3) {front : List Byte} {st last : Byte}
    (h : encode (classified len dist 0) = front ++ [st, last]) :
    front ++ [st ||| lowByte k, last] = encode (classified len dist k) := by
  obtain ⟨front', x, last', henc⟩ := encode_classified_sBits len dist
  rw [henc 0] at h
  obtain ⟨hfront, htail⟩ := List.append_inj' h rfl
  cases htail
  rw [henc k, ← hfront, stateByte_or_lowByte x hk]

/-! ### A literal run's tag -/

/-- The tag of a run of 4 or more literals is that of LIT_SHORT or LIT_LONG (R162, R95, R96). -/
theorem literalTag_eq_encode (t : Nat) :
    literalTag t = encode (if t ≤ 18 then .litShort t else .litLong t) := by
  unfold literalTag
  split
  · rfl
  · rw [emitExt_eq _ (by omega)]
    rfl

end Sys2Proof.Machine

namespace Sys2Proof

/-- Settles O7: the bytes are the record's (`matchBytes_eq_encode`), and the patch sets its s-bits alone. -/
theorem emittedBytesAreTheirRecords : Obligations.EmittedBytesAreTheirRecords := by
  refine ⟨fun len dist _ _ hdist => ⟨matchBytes_eq_encode hdist, fun k front st last hk h => ?_⟩,
    fun t _ => literalTag_eq_encode t⟩
  exact encode_classified_patched hk ((matchBytes_eq_encode hdist).symm.trans h)

end Sys2Proof
end

section
/-! PROOFS. `put` (R160) and the last phases of a compress job where the output has room: C_FLUSH with a tag of its own or with
nothing left (R170), C_END (R171, R252). O48, O49 and O50. -/

open Sys2Proof Sys2Proof.Machine Sys2Proof.Statements

namespace Sys2Proof.Machine

/-! ### The final run of C_FLUSH -/

/-- `put` is `putAll` of one byte (R160). -/
theorem putAll_singleton (v : Byte) (s : State) : putAll [v] s = put v s := by
  rw [putAll]
  cases put v s <;> rfl

/-- The record at the head of the final run of `n` literals, where it is no patch: LIT_INIT at the output's start, else
LIT_SHORT or LIT_LONG (R170). -/
def finalRunRecord (s : State) (n : Nat) : Instr :=
  if s.cOp.toNat = 0 ∧ n ≤ Config.firstLitMax then .litInit n else if n ≤ 18 then .litShort n else .litLong n

/-- The final run's header is its record's encoding (R170). -/
theorem finalRunHeader_eq {s : State} {n : Nat} (h : s.cOp.toNat = 0 ∨ 4 ≤ n) :
    finalRunHeader n s = putAll (encode (finalRunRecord s n)) s := by
  unfold finalRunHeader finalRunRecord
  split
  · exact (putAll_singleton _ s).symm
  · have hn : ¬n ≤ 3 := by simp only [Config.firstLitMax] at *; omega
    rw [if_neg hn, literalTag_eq_encode]

/-- Bytes put and a run of input bytes behind them, with room for both, are one list of bytes (R162, R170). -/
theorem putAll_putInput {bs : List Byte} {start n : Nat} {s : State} (hs : OutputReady s) (hin : start + n ≤ s.inLen.toNat)
    (hfit : s.cOp.toNat + (bs ++ inBytes s start n).length ≤ s.outCap.toNat) :
    (putAll bs s).andThen (putInput start n) = .ok (afterPut (bs ++ inBytes s start n) s) := by
  rw [List.length_append, inBytes_length] at hfit
  have hcap := s.outCap.isLt
  have hgrew := outputGrew_afterPut hs (bs := bs) (by omega)
  have hop : (afterPut bs s).cOp.toNat = s.cOp.toNat + bs.length := afterPut_cOp (by omega)
  have hroom : (afterPut bs s).cOp.toNat + n ≤ s.outCap.toNat := by omega
  rw [putAll_ok (by omega), Flow.andThen_ok, putInput_ok (hgrew.ready hs).placed hin hroom, hgrew.inBytes_eq hs hin,
    ← afterPut_append _ _ _ (by omega)]

/-- The final run with room, where its header is no patch: the header, then the literals (R170). -/
theorem finalRun_ok {start n : Nat} {s : State} (hs : OutputReady s) (h : s.cOp.toNat = 0 ∨ 4 ≤ n)
    (hin : start + n ≤ s.inLen.toNat)
    (hfit : s.cOp.toNat + (encode (finalRunRecord s n) ++ inBytes s start n).length ≤ s.outCap.toNat) :
    (finalRunHeader n s).andThen (putInput start n) =
      .ok (afterPut (encode (finalRunRecord s n) ++ inBytes s start n) s) := by
  rw [finalRunHeader_eq h]
  exact putAll_putInput hs hin hfit

/-- The bytes of the final run of `n` literals, where its header is no patch (R170). -/
def taggedFinalRun (s : State) (n : Nat) : List Byte :=
  if n = 0 then [] else encode (finalRunRecord s n) ++ inBytes s (s.inLen.toNat - n) n

/-- C_FLUSH with room, where no patch is due: the final run follows the output (R170). -/
theorem phaseFlush_tagged {s : State} (hs : CompInv s) (hp : s.cPhase = .flush) {n : Nat} (hn : n = s.cT.toNat + s.cRem.toNat)
    (htag : n = 0 ∨ s.cOp.toNat = 0 ∨ 4 ≤ n) (hfit : s.cOp.toNat + (taggedFinalRun s n).length ≤ s.outCap.toNat) :
    phaseFlush s = .ok ((afterPut (taggedFinalRun s n) (restTaken s)).setCPhase .finish) := by
  subst hn
  obtain ⟨ht, -⟩ := (phaseInv_between (.inr hp)).1 hs.phase
  have htotal := hs.total
  have hle : s.cT.toNat + s.cRem.toNat ≤ s.inLen.toNat := by omega
  rw [phaseFlush_eq hle]
  unfold taggedFinalRun at hfit ⊢
  by_cases h0 : s.cT.toNat + s.cRem.toNat = 0
  · rw [if_neg (by omega), if_pos h0, afterPut_nil]
    rfl
  · rw [if_neg h0] at hfit ⊢
    rw [if_pos (Nat.pos_of_ne_zero h0), finalRun_ok (s := restTaken s) { hs.ready with } (htag.resolve_left h0)
      (Nat.sub_add_cancel hle).le hfit]
    rfl

/-! ### C_END -/

theorem compressorRule_finish {s : State} (h : s.cPhase = .finish) : compressorRule s = phaseEnd s := by
  rw [compressorRule, h]

/-- C_END with the marker put and OUT_LEN and IN_POS written, before the job's end (R171). -/
def markerWritten (s : State) : State :=
  { afterPut Config.endMarker s with outLen := cursor (s.cOp.toNat + 3), inPos := s.inLen }

/-- C_END with room: the end marker, then the job's end (R171, R252). -/
theorem phaseEnd_ok {s : State} (h : s.cOp.toNat + 3 ≤ s.outCap.toNat) :
    phaseEnd s = .ok (endJob .ok (markerWritten s)) := by
  rw [phaseEnd, putAll_ok (bs := Config.endMarker) h]
  rfl

end Sys2Proof.Machine

namespace Sys2Proof

/-- Settles O48: the final run is one list of bytes put behind the output (`phaseFlush_tagged`). -/
theorem flushPhaseEmitsFinalRun : Obligations.FlushPhaseEmitsFinalRun := by
  intro s hrun hphase hinv n tag bytes hn hfit
  have hs := compInv_of_running hrun hinv
  have hbytes : bytes = taggedFinalRun s n := by
    simp only [bytes, tag, taggedFinalRun, finalRunRecord, apply_ite encode]
  rw [hbytes] at hfit ⊢
  rw [step_of_running_comp hrun, compressorRule_flush hphase, phaseFlush_tagged hs hphase rfl hn hfit]
  refine ⟨_, rfl, rfl, ?_, ?_⟩
  · exact outBytes_afterPut (s := restTaken s) { hs.ready with } hfit
  · exact memoryKept_afterPut _ (restTaken s)

/-- Settles O49: the marker is put behind the output, and the job ends undisturbed (`endJob_quiet`). -/
theorem endPhaseWritesMarker : Obligations.EndPhaseWritesMarker := by
  intro s hrun hphase hz hwf hfit
  have ⟨_, _, _, hp⟩ := hrun
  have hready : OutputReady s := ⟨hp, hwf, by omega⟩
  rw [step_of_running_comp hrun, compressorRule_finish hphase, phaseEnd_ok hfit, Flow.answer_ok,
    endJob_quiet .ok (markerWritten s) hz]
  refine ⟨_, rfl, ?_, ?_, rfl⟩
  · exact outBytes_afterPut hready (bs := Config.endMarker) hfit
  · exact memoryKept_afterPut Config.endMarker s

/-- Settles O50: a full window raises (`put_full`), else one byte is put (`put_eq_afterPut`). -/
theorem putChecksCapacity : Obligations.PutChecksCapacity := by
  intro v s hwf
  refine ⟨put_full, fun hlt => ⟨_, put_eq_afterPut hlt, ?_, rfl, memoryKept_afterPut [v] s⟩⟩
  exact (memRead_memWrite _ _ _ _ hwf).trans (if_pos rfl)

end Sys2Proof
end

section
/-! PROOFS. The records of a decompress job (42_decoder.md): the whole next state of a literal or a match record that fits, the
errors of a match's trailing literals, and EOF. O10 to O17, O20 and O27. -/

open Sys2Proof Sys2Proof.Machine Sys2Proof.Statements

namespace Sys2Proof.Machine

/-- A rule of an undisturbed decompress job that raises an error of its own ends the job there (R252, R27, R28). -/
theorem runRule_failed {rule : State → Flow} {e : ErrCode} {s u : State} (hp : placementOk s = true)
    (hraise : rule s = .raise e u) (hz : u.hazard = false) (hmode : u.ctrlMode = .dec) (hok : e ≠ .ok)
    (hconfig : e ≠ .configError) : runRule rule s = .next (failed e u) := by
  rw [runRule_placed rule s hp, hraise, Flow.answer_raise, endJob_quiet e u hz]
  cases e with
  | ok => exact absurd rfl hok
  | configError => exact absurd rfl hconfig
  | _ => simp only [writeCursors, hmode, failed]

/-! ### Literal records -/

/-- A literal record that fits leaves its literals behind the output (R193 to R195). -/
theorem literalRecord_ok {h n : Nat} {s : State} (hfits : literalFits h n s) (d : DecState) :
    literalRecord h n d s = .ok { afterLiteral h n s with dState := d } := by
  obtain ⟨-, hin, hout⟩ := hfits
  have hlen := s.inLen.isLt
  have hip : (s.setDIp (s.dIp.toNat + h)).dIp.toNat = s.dIp.toNat + h := cursor_toNat_of_lt (by omega)
  have hcopy := litCopy_ok (n := n) (s := s.setDIp (s.dIp.toNat + h)) hout (by rw [hip]; exact hin)
  rw [literalRecord, fetchBytes_ok (by omega), Flow.andThen_ok, hcopy, Flow.andThen_ok, hip]
  rfl

/-! ### Match records -/

/-- Each of the seven match records is a `matchRecord` of its operands (R196 to R202). -/
theorem exec_of_matchOperands {i : Instr} {len dist k : Nat} (h : matchOperands i = some (len, dist, k)) (s : State) :
    exec i s = runRule (matchRecord (headerLen i) len dist k) s := by
  cases i with
  | m1a | m1b | m2 | m3 | m3Long | m4 | m4Long => cases h; rfl
  | litInit | litShort | litLong | eof => cases h

/-- The state between a match's copy and its trailing literals (R204). -/
def matchCopied (h len dist : Nat) (s : State) : State :=
  { s with
    mem := copyBytes s.mem (s.outBase.toNat + (s.dOp.toNat - dist)) (s.outBase.toNat + s.dOp.toNat) len
    dIp := cursor (s.dIp.toNat + h)
    dOp := cursor (s.dOp.toNat + len) }

section MatchCopied
variable {h len dist k : Nat} {s : State}

theorem matchCopied_dIp (hin : s.dIp.toNat + h ≤ s.inLen.toNat) : (matchCopied h len dist s).dIp.toNat = s.dIp.toNat + h :=
  cursor_toNat_of_lt (Nat.lt_of_le_of_lt hin s.inLen.isLt)

theorem matchCopied_dOp (hout : s.dOp.toNat + len ≤ s.outCap.toNat) :
    (matchCopied h len dist s).dOp.toNat = s.dOp.toNat + len :=
  cursor_toNat_of_lt (Nat.lt_of_le_of_lt hout s.outCap.isLt)

/-- A match record whose header is whole and whose copy fits comes to its trailing literals (R204). -/
theorem matchRecord_copied (hin : s.dIp.toNat + h ≤ s.inLen.toNat) (hdist : dist ≤ s.dOp.toNat)
    (hout : s.dOp.toNat + len ≤ s.outCap.toNat) :
    matchRecord h len dist k s =
      if k = 0 then .ok ((matchCopied h len dist s).setDState (stateAfterMatch k))
      else (litCopy k (matchCopied h len dist s)).andThen fun u => .ok (u.setDState (stateAfterMatch k)) := by
  have hcopy := matchCopy_ok (s := s.setDIp (s.dIp.toNat + h)) hdist hout
  rw [matchRecord, fetchBytes_ok hin, Flow.andThen_ok, matchTail, hcopy, Flow.andThen_ok]
  rfl

/-- A match record that fits leaves its match, and behind it its trailing literals (R204). -/
theorem matchRecord_ok (hfits : matchFits h len dist k s) : matchRecord h len dist k s = .ok (afterMatch h len dist k s) := by
  obtain ⟨-, hin, hdist, hout⟩ := hfits
  have hip : (matchCopied h len dist s).dIp.toNat = s.dIp.toNat + h := matchCopied_dIp (by omega)
  have hop : (matchCopied h len dist s).dOp.toNat = s.dOp.toNat + len := matchCopied_dOp (by omega)
  rw [matchRecord_copied (by omega) hdist (by omega)]
  by_cases hk : k = 0
  · subst hk
    rfl
  · have hlit := litCopy_ok (n := k) (s := matchCopied h len dist s) (by rw [hop]; exact hout) (by rw [hip]; exact hin)
    rw [if_neg hk, hlit, Flow.andThen_ok, hip, hop]
    simp only [afterMatch, matchCopied, stateAfterMatch, State.setDState, State.setDOp, State.setDIp, State.setMem]

/-- An error of a match's trailing literals is raised behind its copy (R204, R257). -/
theorem matchRecord_raise {e : ErrCode} (hin : s.dIp.toNat + h ≤ s.inLen.toNat) (hdist : dist ≤ s.dOp.toNat)
    (hout : s.dOp.toNat + len ≤ s.outCap.toNat) (hk : k ≠ 0)
    (hlit : litCopy k (matchCopied h len dist s) = .raise e (matchCopied h len dist s)) :
    matchRecord h len dist k s = .raise e (matchCopied h len dist s) := by
  rw [matchRecord_copied hin hdist hout, if_neg hk, hlit, Flow.andThen_raise]

end MatchCopied

/-- A match record that fits answers the next state of its rule (R196 to R202, R204). -/
theorem exec_match_fits {i : Instr} {len dist k : Nat} {s : State} (hop : matchOperands i = some (len, dist, k))
    (hfits : matchFits (headerLen i) len dist k s) : exec i s = .next (afterMatch (headerLen i) len dist k s) := by
  rw [exec_of_matchOperands hop, runRule_placed _ s hfits.1, matchRecord_ok hfits, Flow.answer_ok]

/-! ### EOF -/

theorem endOfStream_trailing {s : State} (h : s.dIp.toNat < s.inLen.toNat) : endOfStream s = .raise .trailingData s :=
  if_pos h

theorem endOfStream_mismatch {s : State} (hi : s.inLen.toNat ≤ s.dIp.toNat) (ho : s.dOp.toNat ≠ s.outCap.toNat) :
    endOfStream s = .raise .lengthMismatch s := by
  rw [endOfStream, if_neg (Nat.not_lt.2 hi), if_pos ho]

theorem endOfStream_ok {s : State} (hi : s.inLen.toNat ≤ s.dIp.toNat) (ho : s.dOp.toNat = s.outCap.toNat) :
    endOfStream s = .ok (endJob .ok { s with outLen := s.dOp, inPos := s.dIp, dPhase := .halt }) := by
  rw [endOfStream, if_neg (Nat.not_lt.2 hi), if_neg (not_not_intro ho)]

/-- EOF's header and check, in the order of R203. -/
def eofRule (h : Nat) (s : State) : Flow := (fetchBytes h s).andThen endOfStream

theorem exec_eof (l3 c k : Nat) (s : State) : exec (.eof l3 c k) s = runRule (eofRule (headerLen (.eof l3 c k))) s := rfl

theorem eofRule_whole {h : Nat} {s : State} (hle : s.dIp.toNat + h ≤ s.inLen.toNat) :
    eofRule h s = endOfStream (s.setDIp (s.dIp.toNat + h)) := by
  rw [eofRule, fetchBytes_ok hle, Flow.andThen_ok]

theorem eofRule_short {h : Nat} {s : State} (hlt : s.inLen.toNat < s.dIp.toNat + h) :
    eofRule h s = .raise .truncatedInput (s.setDIp (max s.dIp.toNat s.inLen.toNat)) := by
  rw [eofRule, fetchBytes_short hlt, Flow.andThen_raise]

/-- EOF's check ends the job, with an error as it stands or OK behind its writes of OUT_LEN, IN_POS and D_HALT (R203). -/
theorem endOfStream_answer (s : State) :
    ∃ e outLen inPos p, (endOfStream s).answer = .next (endJob e { s with outLen := outLen, inPos := inPos, dPhase := p }) := by
  unfold endOfStream
  split
  · exact ⟨.trailingData, _, _, _, rfl⟩
  · split
    · exact ⟨.lengthMismatch, _, _, _, rfl⟩
    · exact ⟨.ok, _, _, _, rfl⟩

/-- EOF ends the job in every case; before that it moved `d_ip` and may have written OUT_LEN, IN_POS and D_HALT (R203). -/
theorem exec_eof_endsJob {l3 c k : Nat} {s t : State} (h : exec (.eof l3 c k) s = .next t) :
    ∃ e dIp outLen inPos p, t = endJob e { s with dIp := dIp, outLen := outLen, inPos := inPos, dPhase := p } := by
  rw [exec_eof] at h
  obtain ⟨-, hanswer⟩ := runRule_next h
  rcases Nat.lt_or_ge s.inLen.toNat (s.dIp.toNat + headerLen (.eof l3 c k)) with hshort | hwhole
  · rw [eofRule_short hshort] at hanswer
    cases hanswer
    exact ⟨.truncatedInput, _, _, _, _, rfl⟩
  · rw [eofRule_whole hwhole] at hanswer
    obtain ⟨e, outLen, inPos, p, hend⟩ := endOfStream_answer (s.setDIp (s.dIp.toNat + headerLen (.eof l3 c k)))
    cases hend.symm.trans hanswer
    exact ⟨e, _, outLen, inPos, p, rfl⟩

end Sys2Proof.Machine

namespace Sys2Proof

/-- Settles O10: a `literalRecord` that fits, with the pass to D_FETCH behind it. -/
theorem litInitCompletes : Obligations.LitInitCompletes := by
  intro n s hfits
  rw [exec, execLitInit, runRule_placed _ s hfits.1, literalRecord_ok hfits, Flow.andThen_ok]
  rfl

/-- Settles O11: both are a `literalRecord` that fits. -/
theorem literalRunsComplete : Obligations.LiteralRunsComplete := by
  refine ⟨fun n s hfits => ?_, fun n s hfits => ?_⟩
  · rw [exec, execLitShort, runRule_placed _ s hfits.1, literalRecord_ok hfits]
    rfl
  · rw [exec, execLitLong, runRule_placed _ s hfits.1, literalRecord_ok hfits]
    rfl

/-- Settles O12: both are a match record that fits. -/
theorem shortMatchesComplete : Obligations.ShortMatchesComplete :=
  ⟨fun dist k _ hfits => exec_match_fits (i := .m1a dist k) rfl hfits,
    fun dist k _ hfits => exec_match_fits (i := .m1b dist k) rfl hfits⟩

/-- Settles O13: M2 is a match record that fits. -/
theorem m2Completes : Obligations.M2Completes :=
  fun len dist k _ hfits => exec_match_fits (i := .m2 len dist k) rfl hfits

/-- Settles O14: both are a match record that fits. -/
theorem m3MatchesComplete : Obligations.M3MatchesComplete :=
  ⟨fun len dist k _ hfits => exec_match_fits (i := .m3 len dist k) rfl hfits,
    fun len dist k _ hfits => exec_match_fits (i := .m3Long len dist k) rfl hfits⟩

/-- Settles O15: both are a match record that fits. -/
theorem m4MatchesComplete : Obligations.M4MatchesComplete :=
  ⟨fun len dist k _ hfits => exec_match_fits (i := .m4 len dist k) rfl hfits,
    fun len dist k _ hfits => exec_match_fits (i := .m4Long len dist k) rfl hfits⟩

/-- Settles O16: behind the header `d_ip` is IN_LEN and `d_op` is OUT_CAP, so the check passes. -/
theorem eofCompletes : Obligations.EofCompletes := by
  intro l3 c k s hz hp hin hout
  have hip : s.setDIp (s.dIp.toNat + headerLen (.eof l3 c k)) = { s with dIp := s.inLen } := by
    rw [hin, State.setDIp, cursor_of_toNat]
  have hop : s.dOp = s.outCap := BitVec.eq_of_toNat_eq hout
  have hcheck := endOfStream_ok (s := { s with dIp := s.inLen }) (Nat.le_refl _) hout
  rw [exec_eof, runRule_placed _ s hp, eofRule_whole hin.le, hip, hcheck, Flow.answer_ok]
  have hquiet := endJob_quiet .ok { s with dIp := s.inLen, outLen := s.dOp, inPos := s.inLen, dPhase := .halt } hz
  rw [hquiet, ← hop]
  rfl

/-- Settles O17: a whole header leaves the check of TrailingData, then of LengthMismatch; a short one has failed before. -/
theorem eofErrors : Obligations.EofErrors := by
  intro l3 c k s hz hp hmode h
  have hip (hle : s.dIp.toNat + h ≤ s.inLen.toNat) : (s.setDIp (s.dIp.toNat + h)).dIp.toNat = s.dIp.toNat + h :=
    cursor_toNat_of_lt (Nat.lt_of_le_of_lt hle s.inLen.isLt)
  refine ⟨fun hmore => ?_, fun hend hshort => ?_, fun hcut => ?_⟩
  · have hraise := endOfStream_trailing (by rw [hip hmore.le]; exact hmore)
    exact runRule_failed hp ((eofRule_whole hmore.le).trans hraise) hz hmode (by decide) (by decide)
  · have hraise := endOfStream_mismatch (s := s.setDIp (s.dIp.toNat + h)) (by rw [hip hend.le]; exact hend.ge) hshort
    exact runRule_failed hp ((eofRule_whole hend.le).trans hraise) hz hmode (by decide) (by decide)
  · exact runRule_failed hp (eofRule_short hcut) hz hmode (by decide) (by decide)

/-- Settles O20: the checks of `litCopy`, in its order, in the state behind the match's copy. -/
theorem trailingLiteralErrors : Obligations.TrailingLiteralErrors := by
  intro i len dist k s hop hz hp hmode hk hin hdist hout
  have hdIp := matchCopied_dIp (len := len) (dist := dist) hin
  have hdOp := matchCopied_dOp (h := headerLen i) (dist := dist) hout
  rw [exec_of_matchOperands hop]
  refine ⟨fun hfull => ?_, fun hfits hcut => ?_⟩
  · have hlit := litCopy_overflow (by rw [hdOp]; exact hfull)
    exact runRule_failed hp (matchRecord_raise hin hdist hout (by omega) hlit) hz hmode (by decide) (by decide)
  · have hlit := litCopy_truncated (by rw [hdOp]; exact hfits) (by rw [hdIp]; exact hcut)
    exact runRule_failed hp (matchRecord_raise hin hdist hout (by omega) hlit) hz hmode (by decide) (by decide)

/-- Settles O27: before the end of the job, which writes no memory, only registers changed (`exec_eof_endsJob`). -/
theorem eofFrame : Obligations.EofFrame := by
  intro l3 c k s t hz h
  obtain ⟨e, dIp, outLen, inPos, p, rfl⟩ := exec_eof_endsJob h
  have hquiet := endJob_quiet e { s with dIp := dIp, outLen := outLen, inPos := inPos, dPhase := p } hz
  rw [hquiet, writeCursors_eq]
  exact ⟨rfl, rfl, fun _ => rfl⟩

end Sys2Proof
end

section
/-! PROOFS. The decompressor's step on the bytes at `d_ip` (R191, R192), the engine's turn between accesses of the outside (R264,
R296), and the number of steps of a decompress job (R207, R297). O8 and O57. -/

open Sys2Proof Sys2Proof.Machine Sys2Proof.Statements

namespace Sys2Proof.Machine

/-! ### The record at `d_ip` -/

/-- The stream left, byte by byte, is what the decoder is given (R230). -/
theorem streamLeft_getElem? (s : State) (k : Nat) : (streamLeft s)[k]? = streamByte s k := by
  simp only [streamLeft, streamByte, List.getElem?_map]
  by_cases hk : s.dIp.toNat + k < s.inLen.toNat
  · rw [List.getElem?_range (by omega), if_pos hk, Option.map_some]
  · rw [List.getElem?_eq_none (by simp; omega), if_neg hk, Option.map_none]

/-- The engine fetches the record that the bytes at `d_ip` decode to (R192). -/
theorem fetchRecord_eq_decode (c : DecodeContext) (s : State) : fetchRecord c s = decode c (streamLeft s) := by
  have hlen : (streamLeft s).length = s.inLen.toNat - s.dIp.toNat := by simp [streamLeft]
  rw [fetchRecord, decode, hlen, funext (streamLeft_getElem? s)]

theorem runRecord_ok {c : DecodeContext} {s : State} {i : Instr} {n : Nat} (h : decode c (streamLeft s) = .ok i n) :
    runRecord c s = exec i s := by
  rw [runRecord, fetchRecord_eq_decode, h]

/-- The start rule meets a LIT_INIT exactly where the stream left decodes to one (R91, R191). -/
theorem startsLitInit_iff (s : State) :
    startsLitInit s = true ↔ ∃ m n, decode .start (streamLeft s) = .ok (.litInit m) n := by
  constructor
  · intro h
    obtain ⟨m, hm⟩ := fetchRecord_start h
    exact ⟨m, 1, (fetchRecord_eq_decode .start s).symm.trans hm⟩
  · rintro ⟨m, n, h⟩
    obtain ⟨header, rest, hheader, -, hbytes⟩ := beginsWith_of_decode h
    cases hheader with
    | @litInit t hc ht =>
      have hfirst : streamByte s 0 = some t := by rw [← streamLeft_getElem?, hbytes]; rfl
      rw [startsLitInit, hfirst]
      exact decide_eq_true ht

/-- The step of a running decompress job is the decompressor's (R264). -/
theorem step_of_running_dec {s : State} (h : running .dec s) : step s = decompressorStep s := by
  obtain ⟨hhost, hb, hmode, -⟩ := h
  rw [step_of_no_host hhost, engineStep, if_pos hb, hmode]

theorem decompressorStep_fetch {s : State} (hp : placementOk s = true) (h : s.dPhase = .fetch) :
    decompressorStep s = runRecord (.fetch s.dState) s := by
  rw [decompressorStep, if_pos hp, h]

theorem decompressorStep_start {s : State} (hp : placementOk s = true) (h : s.dPhase = .start) :
    decompressorStep s = if startsLitInit s then runRecord .start s else .next (s.setDPhase .fetch) := by
  rw [decompressorStep, if_pos hp, h]

/-- An engine turn in the list is the engine's step with the events behind it waiting (R264, R296; log entry 4). -/
theorem step_engineTurn {s : State} {rest : List HostAction} (h : s.host = .engineTurn :: rest) :
    step s = withWaiting rest (step { s with host := [] }) := by
  have hwait : ∀ r, withWaiting rest r = Result.setHost rest r := fun r => by cases r <;> rfl
  rw [step_of_host h, step_of_no_host (s := { s with host := [] }) rfl, hwait]
  exact engineStep_host { s with host := [] } rest

/-! ### A record consumes an input byte or ends the job -/

/-- The job has ended, or `d_ip` has moved up (R207). -/
def EndedOrConsumed (s t : State) : Prop := t.statusBusy = false ∨ s.dIp.toNat < t.dIp.toNat

theorem endedOrConsumed_endJob (s u : State) (e : ErrCode) : EndedOrConsumed s (endJob e u) := .inl (endJob_statusBusy e u)

/-- A header consumes its bytes, and what follows in the record does not move `d_ip` back. -/
theorem fetchBytes_andThen_consumes {k : Nat} {g : State → Flow} {s : State} (hk : 1 ≤ k) (hg : MovesDecoder g)
    (hs : DecoderReady s) :
    ((fetchBytes k s).andThen g).Ends (fun t => s.dIp.toNat < t.dIp.toNat) (fun _ => True) := by
  have hmoved := movesDecoder_fetchBytes k s hs
  rcases fetchBytes_cases k s with ⟨-, hf⟩ | ⟨hle, hf⟩
  · rw [hf]
    exact trivial
  · rw [hf] at hmoved ⊢
    have hip : (s.setDIp (s.dIp.toNat + k)).dIp.toNat = s.dIp.toNat + k :=
      cursor_toNat_of_lt (Nat.lt_of_le_of_lt hle s.inLen.isLt)
    exact (hg _ (hmoved.ready hs)).mono (fun t ht => by have := ht.dIp_ge; omega) (fun _ _ => trivial)

theorem runRule_endedOrConsumed {rule : State → Flow} {s t : State}
    (hr : (rule s).Ends (fun t => s.dIp.toNat < t.dIp.toNat) (fun _ => True)) (h : runRule rule s = .next t) :
    EndedOrConsumed s t := by
  obtain ⟨-, hanswer⟩ := runRule_next h
  obtain ⟨t', ht', hlt | ⟨e, u, -, rfl⟩⟩ := hr.answer
  · cases ht'.symm.trans hanswer
    exact .inr hlt
  · cases ht'.symm.trans hanswer
    exact endedOrConsumed_endJob s u e

theorem literalRecord_consumes {h n : Nat} (hh : 1 ≤ h) (d : DecState) {s : State} (hs : DecoderReady s) :
    (literalRecord h n d s).Ends (fun t => s.dIp.toNat < t.dIp.toNat) (fun _ => True) :=
  fetchBytes_andThen_consumes hh ((movesDecoder_litCopy n).andThen (movesDecoder_setDState d)) hs

/-- Every record consumes an input byte or ends the job (R207). -/
theorem exec_endedOrConsumed {i : Instr} {s t : State} (hs : DecoderReady s) (h : exec i s = .next t) :
    EndedOrConsumed s t := by
  cases i with
  | litInit n =>
    exact runRule_endedOrConsumed (rule := fun u => (literalRecord 1 n (stateAfterLitInit n) u).andThen fun v =>
      .ok (v.setDPhase .fetch)) ((literalRecord_consumes (Nat.le_refl 1) _ hs).andThen fun _ hlt => hlt) h
  | litShort n => exact runRule_endedOrConsumed (literalRecord_consumes (headerLen_pos (.litShort n)) _ hs) h
  | litLong n => exact runRule_endedOrConsumed (literalRecord_consumes (headerLen_pos (.litLong n)) _ hs) h
  | eof l3 c k =>
    obtain ⟨e, dIp, outLen, inPos, p, rfl⟩ := exec_eof_endsJob h
    exact endedOrConsumed_endJob s _ e
  | m1a | m1b | m2 | m3 | m3Long | m4 | m4Long =>
    rw [exec_of_matchOperands rfl] at h
    exact runRule_endedOrConsumed (fetchBytes_andThen_consumes (headerLen_pos _) (movesDecoder_matchTail _ _ _) hs) h

/-- A fetched record consumes an input byte or ends the job; so does a header cut short, which ends it (R207, R230). -/
theorem runRecord_endedOrConsumed {c : DecodeContext} {s t : State} (hs : DecoderReady s) (h : runRecord c s = .next t) :
    EndedOrConsumed s t := by
  unfold runRecord at h
  split at h
  · exact exec_endedOrConsumed hs h
  · cases h
    exact endedOrConsumed_endJob s _ _

/-! ### The length of a decompress job -/

/-- The bound on the steps that a decompress job still takes: one a byte left, one to end, and D_START's own (R207). -/
def stepsLeft (s : State) : Nat := s.inLen.toNat - s.dIp.toNat + 1 + (if s.dPhase = .start then 1 else 0)

/-- A step ends the job, consumes an input byte, or passes from D_START to D_FETCH (R191, R207). -/
theorem decompressorStep_endedOrConsumed {s t : State} (hs : DecInv s) (h : decompressorStep s = .next t) :
    EndedOrConsumed s t ∨ (s.dPhase = .start ∧ t = s.setDPhase .fetch) := by
  rcases hs.atWork with hp | hp
  · rw [decompressorStep_start hs.placed hp] at h
    split at h
    · exact .inl (runRecord_endedOrConsumed hs.ready h)
    · cases h
      exact .inr ⟨hp, rfl⟩
  · rw [decompressorStep_fetch hs.placed hp] at h
    exact .inl (runRecord_endedOrConsumed hs.ready h)

/-- A step that does not end the job leaves a decompress job with a smaller bound. -/
theorem step_ends_or_stepsLeft_lt {s : State} (hrun : running .dec s) (hinv : s.inv = true) :
    ∃ t, step s = .next t ∧
      (t.statusBusy = false ∨ (running .dec t ∧ t.inv = true ∧ stepsLeft t < stepsLeft s)) := by
  obtain ⟨hhost, hb, hmode, hp⟩ := hrun
  have hs := (inv_iff_dec hb hmode).1 hinv
  obtain ⟨t, ht, hstepped⟩ := decompressorStep_stepped hs.ready hs.atWork
  have hcases := decompressorStep_endedOrConsumed hs ht
  have hinvt := hstepped.inv hs hb hmode
  refine ⟨t, (step_of_running_dec ⟨hhost, hb, hmode, hp⟩).trans ht, ?_⟩
  cases hstepped with
  | ends hu e outLen inPos p => exact .inl (endJob_statusBusy e _)
  | @goesOn u hu =>
    obtain ⟨hframe, -, -, hle, -, -, -⟩ := hu
    have hbt : (u.setDPhase .fetch).statusBusy = true := by rw [hframe]; exact hb
    have hin : u.inLen = s.inLen := by rw [hframe]
    refine .inr ⟨⟨by rw [hframe]; exact hhost, hbt, by rw [hframe]; exact hmode, by rw [hframe]; exact hp⟩, hinvt, ?_⟩
    have hleft : stepsLeft (u.setDPhase .fetch) = s.inLen.toNat - u.dIp.toNat + 1 := by
      simp [stepsLeft, hin]
    rw [hleft, stepsLeft]
    rcases hcases with (hended | hlt) | ⟨hstart, hpassed⟩
    · rw [hbt] at hended
      cases hended
    · simp only [State.setDPhase_dIp] at hlt
      omega
    · have hip : u.dIp = s.dIp := by simpa only [State.setDPhase_dIp] using congrArg State.dIp hpassed
      rw [hip, if_pos hstart]
      omega

/-- A decompress job ends within its bound (R207, R297). -/
theorem ends_within_stepsLeft {s : State} (hrun : running .dec s) (hinv : s.inv = true) :
    ∃ k t, k ≤ stepsLeft s ∧ Host.Core.run core k s = .next t ∧ t.statusBusy = false := by
  obtain ⟨t, ht, hended | ⟨hrunt, hinvt, hlt⟩⟩ := step_ends_or_stepsLeft_lt hrun hinv
  · exact ⟨1, t, by simp only [stepsLeft]; omega, by simp only [Host.Core.run, core, ht], hended⟩
  · obtain ⟨k, v, hk, hv, hend⟩ := ends_within_stepsLeft hrunt hinvt
    exact ⟨k + 1, v, by omega, by simpa only [Host.Core.run, core, ht] using hv, hend⟩
termination_by stepsLeft s

end Sys2Proof.Machine

namespace Sys2Proof

/-- Settles O8: the engine fetches what the stream left decodes to, and its step does not depend on the events waiting. -/
theorem stepRunsTheDecodedRecord : Obligations.StepRunsTheDecodedRecord := by
  refine ⟨fun s rest h => step_engineTurn h, fun s hrun => ?_⟩
  rw [step_of_running_dec hrun]
  obtain ⟨-, -, -, hp⟩ := hrun
  refine ⟨fun i n hfetch hdec => ?_, fun m n hstart hdec => ?_, fun hstart hother => ?_⟩
  · rw [decompressorStep_fetch hp hfetch, runRecord_ok hdec]
  · rw [decompressorStep_start hp hstart, if_pos ((startsLitInit_iff s).2 ⟨m, n, hdec⟩), runRecord_ok hdec]
  · have hnot : ¬startsLitInit s = true := fun h => by
      obtain ⟨m, n, hdec⟩ := (startsLitInit_iff s).1 h
      exact hother m n hdec
    rw [decompressorStep_start hp hstart, if_neg hnot]
    rfl

/-- Settles O57: the bound is `stepsLeft`, which every step that does not end the job lowers. -/
theorem decompressJobEnds : Obligations.DecompressJobEnds := fun _ hrun hinv => ends_within_stepsLeft hrun hinv

end Sys2Proof
end

section
/-! PROOFS. The copy unit (43_copy_unit.md): what its two copies leave in memory, the closed form of the overlapping copy and its
equality with a copy in groups. O21 to O24. -/

open Sys2Proof Sys2Proof.Machine Sys2Proof.Statements

namespace Sys2Proof.Machine

/-! ### Copies of memory -/

/-- A forward copy repeats the `dist` bytes before its destination, as they were (R236). -/
theorem memRead_copyBytes_periodic (m : List Host.Cell) (src dist n k : Nat) (hk : k < n) (hd : 1 ≤ dist)
    (h : Memory.wf m = true) (hb : src + dist + n ≤ Config.addrSpace) :
    memRead (copyBytes m src (src + dist) n) (src + dist + k) = memRead m (src + k % dist) := by
  induction k using Nat.strong_induction_on with
  | h k ih =>
    have hforward := memRead_copyBytes_forward m src (src + dist) n k hk (by omega) h hb
    rw [hforward]
    rcases Nat.lt_or_ge k dist with hlt | hge
    · rw [memRead_copyBytes_outside _ _ _ _ _ (.inl (by omega)), Nat.mod_eq_of_lt hlt]
    · have hprev := ih (k - dist) (by omega) (by omega)
      rw [Nat.mod_eq_sub_mod hge, ← hprev]
      congr 1
      omega

/-- A copy whose destination lies above its source writes the source's bytes as they were. -/
theorem copyBytes_eq_memWriteAll (m : List Host.Cell) (src dst n : Nat) (h : src + n ≤ dst) :
    copyBytes m src dst n = memWriteAll m dst ((List.range n).map fun k => memRead m (src + k)) := by
  induction n generalizing m src dst with
  | zero => rfl
  | succ n ih =>
    rw [copyBytes, ih _ _ _ (by omega), List.range_succ_eq_map, List.map_cons, List.map_map]
    refine congrArg (memWriteAll (memWrite m dst (memRead m src)) (dst + 1)) (List.map_congr_left fun k hk => ?_)
    have hk := List.mem_range.1 hk
    rw [memRead_memWrite_ne _ _ _ _ (by omega), Nat.add_assoc, Nat.add_comm 1 k]
    rfl

/-- Groups that end before the destination begins give the byte-by-byte copy (R237). -/
theorem copyGroups_eq_copyBytes (m : List Host.Cell) (src dst : Nat) (sizes : List Nat) (h : ∀ w ∈ sizes, src + w ≤ dst) :
    copyGroups m src dst sizes = copyBytes m src dst sizes.sum := by
  induction sizes generalizing m src dst with
  | nil => rfl
  | cons w sizes ih =>
    have hrest : ∀ v ∈ sizes, src + w + v ≤ dst + w := fun v hv => by
      have := h v (List.mem_cons_of_mem w hv)
      omega
    rw [copyGroups, ih _ _ _ hrest, ← copyBytes_eq_memWriteAll _ _ _ _ (h w List.mem_cons_self), List.sum_cons,
      copyBytes_add]

/-! ### The two copies of a record -/

/-- A literal copy that goes through has passed both checks (R232). -/
theorem litCopy_inv {n : Nat} {s t : State} (h : litCopy n s = .ok t) :
    s.dOp.toNat + n ≤ s.outCap.toNat ∧ s.dIp.toNat + n ≤ s.inLen.toNat ∧
      t = ((s.setMem (copyBytes s.mem (s.inBase.toNat + s.dIp.toNat) (s.outBase.toNat + s.dOp.toNat) n)).setDIp
        (s.dIp.toNat + n)).setDOp (s.dOp.toNat + n) := by
  rcases litCopy_cases n s with ⟨e, hraise, -, -⟩ | ⟨ho, hi, hok⟩
  · cases hraise.symm.trans h
  · cases hok.symm.trans h
    exact ⟨ho, hi, rfl⟩

/-- A match copy that goes through has passed both checks (R235). -/
theorem matchCopy_inv {dist len : Nat} {s t : State} (h : matchCopy dist len s = .ok t) :
    dist ≤ s.dOp.toNat ∧ s.dOp.toNat + len ≤ s.outCap.toNat ∧
      t = (s.setMem (copyBytes s.mem (s.outBase.toNat + (s.dOp.toNat - dist)) (s.outBase.toNat + s.dOp.toNat) len)).setDOp
        (s.dOp.toNat + len) := by
  rcases matchCopy_cases dist len s with ⟨e, hraise, -, -⟩ | ⟨hdist, ho, hok⟩
  · cases hraise.symm.trans h
  · cases hok.symm.trans h
    exact ⟨hdist, ho, rfl⟩

section Copied
variable {s t : State} (hm : Memory.wf s.mem = true) (hp : placementOk s = true)
include hm hp

/-- The next input bytes stand behind the old output, since the windows do not meet (R232, R261). -/
theorem outBytes_of_litCopy {n : Nat} (hn : 1 ≤ n) (h : litCopy n s = .ok t) :
    outBytes t s.dOp.toNat n = inBytes s s.dIp.toNat n := by
  obtain ⟨ho, hi, rfl⟩ := litCopy_inv h
  have hfits := placementOk_out hp
  have hapart : s.inBase.toNat + s.dIp.toNat + n ≤ s.outBase.toNat + s.dOp.toNat ∨
      s.outBase.toNat + s.dOp.toNat + n ≤ s.inBase.toNat + s.dIp.toNat := by
    simp only [placementOk, Bool.and_eq_true, Bool.or_eq_true, decide_eq_true_eq] at hp
    omega
  refine List.map_congr_left fun k hk => ?_
  simp only [outByte, inByte, State.setDOp_mem, State.setDIp_mem, State.setMem_mem, State.setDOp_outBase,
    State.setDIp_outBase, State.setMem_outBase, ← Nat.add_assoc]
  exact memRead_copyBytes_disjoint _ _ _ _ _ (List.mem_range.1 hk) hapart hm (by omega)

section Match
variable {dist len k : Nat} (hd : 1 ≤ dist) (h : matchCopy dist len s = .ok t) (hk : k < len)
include hd h hk

/-- Each new output byte is the one `dist` before it, as the copy leaves it (R235). -/
theorem outByte_of_matchCopy : outByte t (s.dOp.toNat + k) = outByte t (s.dOp.toNat + k - dist) := by
  obtain ⟨hdist, ho, rfl⟩ := matchCopy_inv h
  have hfits := placementOk_out hp
  simp only [outByte, State.setDOp_mem, State.setMem_mem, State.setDOp_outBase, State.setMem_outBase,
    Nat.sub_add_comm hdist, ← Nat.add_assoc]
  exact memRead_copyBytes_forward _ _ _ _ _ hk (by omega) hm (by omega)

/-- The new output repeats the `dist` bytes before it, as they were (R236). -/
theorem outByte_of_matchCopy_periodic :
    outByte t (s.dOp.toNat + k) = outByte s (s.dOp.toNat - dist + k % dist) := by
  obtain ⟨hdist, ho, rfl⟩ := matchCopy_inv h
  have hfits := placementOk_out hp
  have hdst : s.outBase.toNat + s.dOp.toNat = s.outBase.toNat + (s.dOp.toNat - dist) + dist := by omega
  simp only [outByte, State.setDOp_mem, State.setMem_mem, State.setDOp_outBase, State.setMem_outBase, ← Nat.add_assoc, hdst]
  exact memRead_copyBytes_periodic _ _ _ _ _ hk hd hm (by omega)

end Match

end Copied

end Sys2Proof.Machine

namespace Sys2Proof

/-- Settles O21: the checks are `litCopy`'s, and its source and destination lie in windows that do not meet. -/
theorem literalCopyCopiesInput : Obligations.LiteralCopyCopiesInput := by
  intro n s hm hp hn
  refine ⟨litCopy_overflow, litCopy_truncated, fun ho hi => ⟨_, litCopy_ok ho hi, rfl, ?_, fun x hx => ?_⟩⟩
  · exact outBytes_of_litCopy hm hp hn (litCopy_ok ho hi)
  · exact memRead_copyBytes_outside _ _ _ _ _ (by omega)

/-- Settles O22: the checks are `matchCopy`'s, and its destination lies `dist` above its source. -/
theorem matchCopyOverlaps : Obligations.MatchCopyOverlaps := by
  intro dist len s hm hp hd _
  refine ⟨matchCopy_lookbehind, matchCopy_overflow,
    fun hdist ho => ⟨_, matchCopy_ok hdist ho, rfl, fun k hk => ?_, fun x hx => ?_⟩⟩
  · exact outByte_of_matchCopy hm hp hd (matchCopy_ok hdist ho) hk
  · exact memRead_copyBytes_outside _ _ _ _ _ (by omega)

/-- Settles O23: the copy's destination lies `dist` above its source, so its bytes repeat with period `dist`. -/
theorem matchCopyIsPeriodic : Obligations.MatchCopyIsPeriodic :=
  fun _ _ _ _ hm hp hd hcopy _ hk => outByte_of_matchCopy_periodic hm hp hd hcopy hk

/-- Settles O24: no group is longer than `dist`, so each is read from bytes that it does not write. -/
theorem groupCopyEquivalent : Obligations.GroupCopyEquivalent := by
  intro w g r dist dst m _ hw hr hdist _ a
  have hsizes : ∀ v ∈ List.replicate g w ++ [r], dst - dist + v ≤ dst := fun v hv => by
    have hle : v ≤ w := by
      rcases List.mem_append.1 hv with hv | hv
      · exact (List.eq_of_mem_replicate hv).le
      · exact (List.mem_singleton.1 hv).trans_le hr
    omega
  have hsum : (List.replicate g w ++ [r]).sum = g * w + r := by simp
  rw [copyGroups_eq_copyBytes _ _ _ _ hsizes, hsum]

end Sys2Proof
end

section
/-! PROOFS. Record headers against the length of the stream and the errors of a record before its first byte is copied
(42_decoder.md, 43_copy_unit.md R230 to R238, 60_exceptions.md R256, R257). O6, O9, O18 and O19. -/

open Sys2Proof Sys2Proof.Machine Sys2Proof.Statements

namespace Sys2Proof

/-! ### Lengths (R238) -/

/-- The decoder reads no further than the stream. -/
theorem headerLen_le_of_decode {c : DecodeContext} {bytes : List Byte} {i : Instr} {n : Nat} (h : decode c bytes = .ok i n) :
    headerLen i ≤ bytes.length := by
  obtain ⟨header, rest, hheader, -, rfl⟩ := beginsWith_of_decode h
  rw [← length_encode, hheader.encode_eq, List.length_append]
  exact Nat.le_add_right _ _

theorem wf_of_decode {c : DecodeContext} {bytes : List Byte} {i : Instr} {n : Nat} (h : decode c bytes = .ok i n) :
    i.wf = true := by
  obtain ⟨header, rest, hheader, -, -⟩ := beginsWith_of_decode h
  exact hheader.wf

/-- A value is at most 255 for each byte of its continuation (R105). -/
theorem le_extLen (x : Nat) : x ≤ 255 * extLen x := by
  simp only [extLen]
  omega

/-- A match length is at most 255 for each byte of the header. -/
theorem matchLength_le {i : Instr} {len dist k : Nat} (hwf : i.wf = true) (hop : matchOperands i = some (len, dist, k)) :
    len ≤ 255 * headerLen i := by
  cases i with
  | litInit | litShort | litLong | eof => cases hop
  | m1a | m1b | m2 | m3 | m4 =>
    cases hop
    simp only [Instr.wf, Bool.and_eq_true, decide_eq_true_eq, Config.m2MaxLen, Config.m3MaxLen, Config.m4MaxLen] at hwf
    simp only [headerLen]
    omega
  | m3Long | m4Long =>
    cases hop
    have hext := le_extLen (len - Config.m3MaxLen)
    have hext' := le_extLen (len - Config.m4MaxLen)
    simp only [headerLen, Config.m3MaxLen, Config.m4MaxLen] at hext hext' ⊢
    omega

/-- A literal count is at most 255 for each byte of the header. -/
theorem literalCount_le {i : Instr} {n : Nat} (hwf : i.wf = true) (hop : literalOperand i = some n) :
    n ≤ 255 * headerLen i := by
  cases i with
  | m1a | m1b | m2 | m3 | m3Long | m4 | m4Long | eof => cases hop
  | litInit | litShort =>
    cases hop
    simp only [Instr.wf, Bool.and_eq_true, decide_eq_true_eq, Config.firstLitMax] at hwf
    simp only [headerLen]
    omega
  | litLong =>
    cases hop
    have hext := le_extLen (n - 18)
    simp only [headerLen]
    omega

end Sys2Proof

namespace Sys2Proof.Machine

/-! ### Errors before the first byte -/

/-- A header cut short by the stream's end raises TruncatedInput at IN_LEN (R230). -/
theorem fetchBytes_short_andThen {h : Nat} {s : State} (hlt : s.inLen.toNat < s.dIp.toNat + h) (g : State → Flow) :
    (fetchBytes h s).andThen g = .raise .truncatedInput (s.setDIp (max s.dIp.toNat s.inLen.toNat)) := by
  rw [fetchBytes_short hlt, Flow.andThen_raise]

/-- A literal record that raises the same error whatever `d_state` it would leave ends the job with it (R193 to R195). -/
theorem exec_literal_failed {i : Instr} {n : Nat} {e : ErrCode} {s u : State} (hop : literalOperand i = some n)
    (hp : placementOk s = true) (hraise : ∀ d, literalRecord (headerLen i) n d s = .raise e u) (hz : u.hazard = false)
    (hmode : u.ctrlMode = .dec) (hok : e ≠ .ok) (hconfig : e ≠ .configError) : exec i s = .next (failed e u) := by
  cases i with
  | m1a | m1b | m2 | m3 | m3Long | m4 | m4Long | eof => cases hop
  | litInit =>
    cases hop
    have hrule : (literalRecord 1 n (stateAfterLitInit n) s).andThen (fun v => .ok (v.setDPhase .fetch)) = .raise e u :=
      congrArg (Flow.andThen · _) (hraise _)
    exact runRule_failed (rule := fun t => (literalRecord 1 n (stateAfterLitInit n) t).andThen fun v =>
      .ok (v.setDPhase .fetch)) hp hrule hz hmode hok hconfig
  | litShort | litLong =>
    cases hop
    exact runRule_failed hp (hraise _) hz hmode hok hconfig

section Raised
variable {h : Nat} {s : State} (hin : s.dIp.toNat + h ≤ s.inLen.toNat)
include hin

theorem setDIp_header_dIp : (s.setDIp (s.dIp.toNat + h)).dIp.toNat = s.dIp.toNat + h :=
  cursor_toNat_of_lt (Nat.lt_of_le_of_lt hin s.inLen.isLt)

/-- Behind a whole header a literal record raises what its copy raises (R193 to R195, R232). -/
theorem literalRecord_raise {n : Nat} {e : ErrCode} {u : State} (hlit : litCopy n (s.setDIp (s.dIp.toNat + h)) = .raise e u)
    (d : DecState) : literalRecord h n d s = .raise e u := by
  rw [literalRecord, fetchBytes_ok hin, Flow.andThen_ok, hlit, Flow.andThen_raise]

/-- Behind a whole header a match record raises what its copy raises (R204, R235). -/
theorem matchRecord_copy_raise {len dist k : Nat} {e : ErrCode} {u : State}
    (hcopy : matchCopy dist len (s.setDIp (s.dIp.toNat + h)) = .raise e u) : matchRecord h len dist k s = .raise e u := by
  rw [matchRecord, fetchBytes_ok hin, Flow.andThen_ok, matchTail, hcopy, Flow.andThen_raise]

end Raised

/-- A header cut short ends an undisturbed decompress job with TruncatedInput (R230, R252). -/
theorem runRecord_short {c : DecodeContext} {s : State} {e : DecodeError} (h : decode c (streamLeft s) = .error e)
    (hz : s.hazard = false) (hmode : s.ctrlMode = .dec) :
    runRecord c s = .next (failed .truncatedInput (s.setDIp (max s.dIp.toNat s.inLen.toNat))) := by
  have hend := endJob_quiet .truncatedInput (s.setDIp (max s.dIp.toNat s.inLen.toNat)) hz
  simp only [runRecord, fetchRecord_eq_decode, h, Flow.answer_raise, hend, writeCursors, State.setDIp_ctrlMode, hmode, failed]

end Sys2Proof.Machine

namespace Sys2Proof

/-- Settles O6: a length is at most 255 for each of the fewer than `2 ^ 32` bytes of the header it was read from. -/
theorem lengthsFitAccumulator : Obligations.LengthsFitAccumulator := by
  intro c bytes i n hbytes hdec
  have hwf := wf_of_decode hdec
  have hheader := headerLen_le_of_decode hdec
  have hfits : ∀ v, v ≤ 255 * headerLen i → v < 2 ^ Config.accWidth := fun v hv => by
    simp only [Config.accWidth]
    omega
  exact ⟨fun len dist k hop => hfits _ (matchLength_le hwf hop), fun m hop => hfits _ (literalCount_le hwf hop)⟩

/-- Settles O9: the step fetches what the stream left decodes to, and `d_ip` stops at IN_LEN. -/
theorem shortHeaderIsTruncatedInput : Obligations.ShortHeaderIsTruncatedInput := by
  intro s e hrun hz hfetch hle hdec
  have hstep := step_of_running_dec hrun
  obtain ⟨-, -, hmode, hp⟩ := hrun
  have hip : s.setDIp (max s.dIp.toNat s.inLen.toNat) = { s with dIp := s.inLen } := by
    rw [Nat.max_eq_right hle, State.setDIp, cursor_of_toNat]
  rw [hstep, decompressorStep_fetch hp hfetch, runRecord_short hdec hz hmode, hip]

/-- Settles O18: a short header fails before the copy; behind a whole one the checks are `litCopy`'s, in its order. -/
theorem literalErrors : Obligations.LiteralErrors := by
  intro i n s hop hz hp hmode
  refine ⟨fun hcut => ?_, fun hin hfull => ?_, fun hin hfits hcut => ?_⟩
  · exact exec_literal_failed hop hp (fun _ => fetchBytes_short_andThen hcut _) hz hmode (by decide) (by decide)
  · have hlit := litCopy_overflow (s := s.setDIp (s.dIp.toNat + headerLen i)) hfull
    exact exec_literal_failed hop hp (literalRecord_raise hin hlit) hz hmode (by decide) (by decide)
  · have hlit := litCopy_truncated (s := s.setDIp (s.dIp.toNat + headerLen i)) hfits
      (by rw [setDIp_header_dIp hin]; exact hcut)
    exact exec_literal_failed hop hp (literalRecord_raise hin hlit) hz hmode (by decide) (by decide)

/-- Settles O19: a short header fails before the copy; behind a whole one the checks are `matchCopy`'s, in its order. -/
theorem matchErrors : Obligations.MatchErrors := by
  intro i len dist k s hop hz hp hmode
  rw [exec_of_matchOperands hop]
  refine ⟨fun hcut => ?_, fun hin hback => ?_, fun hin hdist hfull => ?_⟩
  · exact runRule_failed hp (fetchBytes_short_andThen hcut _) hz hmode (by decide) (by decide)
  · have hcopy := matchCopy_lookbehind (len := len) (s := s.setDIp (s.dIp.toNat + headerLen i)) hback
    exact runRule_failed hp (matchRecord_copy_raise hin hcopy) hz hmode (by decide) (by decide)
  · have hcopy := matchCopy_overflow (s := s.setDIp (s.dIp.toNat + headerLen i)) hdist hfull
    exact runRule_failed hp (matchRecord_copy_raise hin hcopy) hz hmode (by decide) (by decide)

end Sys2Proof
end

section
/-! PROOFS. The end of a job (R252), START with bad windows (R260, R261) and the core with no job (R275, R281). O28, O32 and
O39. -/

open Sys2Proof Sys2Proof.Machine

namespace Sys2Proof.Machine

/-- The error of a compress job writes its output and segment cursors (R252, R27, R28). -/
theorem writeCursors_comp {e : ErrCode} {s : State} (hok : e ≠ .ok) (hconfig : e ≠ .configError)
    (hmode : s.ctrlMode = .comp) : writeCursors e s = { s with outLen := s.cOp, inPos := s.cPos } := by
  cases e with
  | ok => exact absurd rfl hok
  | configError => exact absurd rfl hconfig
  | _ => simp only [writeCursors, hmode]

/-- The error of a decompress job writes its cursors (R252, R27, R28). -/
theorem writeCursors_dec {e : ErrCode} {s : State} (hok : e ≠ .ok) (hconfig : e ≠ .configError)
    (hmode : s.ctrlMode = .dec) : writeCursors e s = { s with outLen := s.dOp, inPos := s.dIp } := by
  cases e with
  | ok => exact absurd rfl hok
  | configError => exact absurd rfl hconfig
  | _ => simp only [writeCursors, hmode]

/-- START with bad windows: the job that was accepted ends before it accesses memory (R260, R261). -/
theorem startJob_misplaced (mode : Mode) (ie : Bool) {s : State} (hp : placementOk s = false) :
    startJob mode ie s = .next (endJob .configError { jobAccepted mode ie s with hazard := false }) :=
  if_neg fun h => Bool.false_ne_true (hp.symm.trans h)

/-- The engine's turn with no job (R275). -/
theorem engineStep_idle {s : State} (hb : s.statusBusy = false) : engineStep s = .next s := by
  rw [engineStep, hb, if_neg Bool.false_ne_true]

end Sys2Proof.Machine

namespace Sys2Proof

/-- Settles O28: an undisturbed end is `endJob_quiet`, and `writeCursors` has a case for OK, for ConfigError and for each
engine. -/
theorem jobEndWritesStatus : Obligations.JobEndWritesStatus := by
  intro e s hz t
  have ht : t = { writeCursors e s with
      statusErr := e, statusBusy := false, statusDone := true, cPhase := .idle, dPhase := .idle } := endJob_quiet e s hz
  rw [ht]
  refine ⟨rfl, rfl, rfl, rfl, rfl, writeCursors_mem e s, ?_, ?_, fun hok hconfig hmode => ?_, fun hok hconfig hmode => ?_⟩
  · rintro rfl
    exact ⟨rfl, rfl⟩
  · rintro rfl
    exact ⟨rfl, rfl⟩
  · rw [writeCursors_comp hok hconfig hmode]
    exact ⟨rfl, rfl⟩
  · rw [writeCursors_dec hok hconfig hmode]
    exact ⟨rfl, rfl⟩

/-- Settles O32: the write is START, whose job ends undisturbed with ConfigError (`startJob_misplaced`, `endJob_quiet`). -/
theorem startRefusesBadWindows : Obligations.StartRefusesBadWindows := by
  intro s v rest h hb hv hp
  rw [step_regWrite h (by decide) (by decide)]
  calc writeCtrl v { s with host := rest }
    _ = startJob (modeOfBit (v.getLsbD 1)) (v.getLsbD 2) { s with host := rest } := writeCtrl_start v _ hb hv
    _ = _ := startJob_misplaced _ _ hp
    _ = _ := congrArg Host.Outcome.next (endJob_quiet .configError _ rfl)

/-- Settles O39: with no event waiting the step is the engine's, and with no job the engine keeps the state. -/
theorem idleCoreKeepsState : Obligations.IdleCoreKeepsState := by
  intro s hhost hb
  rw [step_of_no_host hhost, engineStep_idle hb]

end Sys2Proof
end

section
/-! PROOFS. The compressor's writing phases whether the output has room or not (R138, R160, R170, R171): the bytes of a phase as
one list put behind the output, the s-bits of the record before patched where it is due, and the end of the job where the
window is full (R252, R254, R257). O51. -/

open Sys2Proof Sys2Proof.Machine Sys2Proof.Statements

namespace Sys2Proof.Machine

/-! ### A run of literals as one list of bytes -/

/-- After a rule's first part, what comes next matters only in the states that part can come to. -/
theorem Flow.Ends.andThen_congr {P Q : State → Prop} {f : Flow} {g g' : State → Flow} (hf : f.Ends P Q)
    (h : ∀ t, P t → g t = g' t) : f.andThen g = f.andThen g' := by
  cases f with
  | ok t => exact h t hf
  | raise e t => rfl
  | fault r => rfl

/-- A run of input bytes put behind a grown output is the list of the bytes as they were (R61, R162). -/
theorem OutputGrew.putInput_eq {k start n : Nat} {s t : State} (h : OutputGrew k s t) (hs : OutputReady s)
    (hin : start + n ≤ s.inLen.toNat) : putInput start n t = putAll (inBytes s start n) t := by
  rw [← h.inBytes_eq hs hin]
  exact Machine.putInput_eq start n t (h.ready hs).placed (by rw [h.frame]; exact hin)

/-- Bytes put and a run of input bytes behind them are one list of bytes, with room or without (R162, R170). -/
theorem putAll_andThen_putInput (bs : List Byte) {start n : Nat} {s : State} (hs : OutputReady s)
    (hin : start + n ≤ s.inLen.toNat) :
    (putAll bs s).andThen (putInput start n) = putAll (bs ++ inBytes s start n) s := by
  rw [putAll_append]
  exact (putAll_ends bs hs).andThen_congr fun t ht => ht.putInput_eq hs hin

/-- Memory with the s-bits of the record before holding `p`; 0 stands for no patch (R163). -/
def memPatched (p : Nat) (s : State) : List Host.Cell := if p = 0 then s.mem else (sPatched p s).mem

theorem memPatched_of_ne {p : Nat} (hp : p ≠ 0) (s : State) : s.setMem (memPatched p s) = sPatched p s := by
  rw [memPatched, if_neg hp]
  rfl

/-- Pending literals, with room or without: their bytes as one list, behind a patch where there are 1 to 3 (R162, R163). -/
theorem emitLiterals_eq {start n : Nat} {s : State} (hs : OutputReady s) (hin : start + n ≤ s.inLen.toNat)
    (hpatch : n ≤ 3 → 2 ≤ s.cOp.toNat) :
    emitLiterals start n s = putAll (runBytes s start n) (s.setMem (memPatched (if n ≤ 3 then n else 0) s)) := by
  unfold emitLiterals runBytes
  by_cases h0 : n = 0
  · subst h0
    rfl
  · rw [if_neg h0]
    by_cases hn : n ≤ 3
    · rw [if_pos hn, if_pos hn, if_pos hn, sPatch_ok (hpatch hn) hs.cOp_le, Flow.andThen_ok, memPatched_of_ne h0]
      exact (outputGrew_sPatched hs (hpatch hn) n).putInput_eq hs hin
    · rw [if_neg hn, if_neg hn, if_neg hn]
      exact putAll_andThen_putInput (literalTag n) hs hin

/-- The final run, with room or without: a LIT_INIT at the output's start, else as pending literals (R170). -/
theorem finalRun_eq {n : Nat} {s : State} (hs : OutputReady s) (hne : s.cOp.toNat ≠ 1) (hn : 0 < n)
    (hle : n ≤ s.inLen.toNat) :
    (finalRunHeader n s).andThen (putInput (s.inLen.toNat - n) n) =
      putAll (finalRunBytes s n) (s.setMem (memPatched (if s.cOp.toNat ≠ 0 ∧ n ≤ 3 then n else 0) s)) := by
  have hin : s.inLen.toNat - n + n ≤ s.inLen.toNat := (Nat.sub_add_cancel hle).le
  have hn0 : n ≠ 0 := Nat.ne_of_gt hn
  by_cases hinit : s.cOp.toNat = 0 ∧ n ≤ Config.firstLitMax
  · have hheader := finalRunHeader_eq (n := n) (.inl hinit.1)
    rw [finalRunRecord, if_pos hinit] at hheader
    rw [hheader, putAll_andThen_putInput _ hs hin, finalRunBytes, if_neg hn0, if_pos hinit, if_neg fun h => h.1 hinit.1]
    rfl
  · have hpatch : n ≤ 3 → s.cOp.toNat ≠ 0 := fun h3 h0 => hinit ⟨h0, h3.trans (by decide)⟩
    have hcount : (s.cOp.toNat ≠ 0 ∧ n ≤ 3) = (n ≤ 3) := propext ⟨And.right, fun h3 => ⟨hpatch h3, h3⟩⟩
    have hheader : (finalRunHeader n s).andThen (putInput (s.inLen.toNat - n) n) = emitLiterals (s.inLen.toNat - n) n s := by
      rw [finalRunHeader, if_neg hinit, emitLiterals, if_neg hn0]
    rw [hheader, emitLiterals_eq hs hin fun h3 => (Nat.two_le_iff _).2 ⟨hpatch h3, hne⟩, finalRunBytes, if_neg hn0,
      if_neg hinit]
    simp only [hcount]

/-! ### A full window -/

/-- Memory with as many of `bytes` behind the output as the window has room for (R160, R257). -/
def memFilled (bytes : List Byte) (s : State) : List Host.Cell :=
  (afterPut (bytes.take (s.outCap.toNat - s.cOp.toNat)) s).mem

/-- An undisturbed compress job with `c_op` inside its window: without room it ends with BufferOverflow (R252). -/
structure CanOverflow (s : State) : Prop where
  cOp_le : s.cOp.toNat ≤ s.outCap.toNat
  calm : s.hazard = false
  mode : s.ctrlMode = .comp

theorem CompInv.canOverflow {s : State} (hs : CompInv s) (hrun : running .comp s) (hz : s.hazard = false) :
    CanOverflow s := by
  obtain ⟨-, -, hmode, -⟩ := hrun
  exact ⟨hs.cOp_le, hz, hmode⟩

/-- As many of the bytes as there is room for. -/
theorem length_take_of_full {bytes : List Byte} {room used : Nat} (hfull : room < used + bytes.length) :
    (bytes.take (room - used)).length = room - used :=
  List.length_take_of_le (by omega)

/-- Bytes without room leave `c_op` at OUT_CAP (R160). -/
theorem afterPut_take_of_full {bytes : List Byte} {s : State} (hs : CanOverflow s)
    (hfull : s.outCap.toNat < s.cOp.toNat + bytes.length) :
    afterPut (bytes.take (s.outCap.toNat - s.cOp.toNat)) s = { s with mem := memFilled bytes s, cOp := s.outCap } := by
  rw [memFilled, afterPut, length_take_of_full hfull, Nat.add_sub_cancel' hs.cOp_le, cursor_of_toNat]

/-- At OUT_CAP the job ends with BufferOverflow (R252, R27, R28). -/
theorem endJob_overflowed (m : List Host.Cell) {s : State} (hs : CanOverflow s) :
    endJob .bufferOverflow { s with mem := m, cOp := s.outCap } = overflowed m s := by
  have hfull : CanOverflow { s with mem := m, cOp := s.outCap } := { hs with cOp_le := Nat.le_refl _ }
  rw [endJob_quiet _ _ hfull.calm, writeCursors_comp (by decide) (by decide) hfull.mode]
  rfl

/-- Bytes without room fill the window, and the job ends with BufferOverflow (R160, R252). -/
theorem putAll_overflowed {bytes : List Byte} {s : State} (hs : CanOverflow s)
    (hfull : s.outCap.toNat < s.cOp.toNat + bytes.length) (g : State → Flow) :
    ((putAll bytes s).andThen g).answer = .next (overflowed (memFilled bytes s) s) := by
  rw [putAll_full hs.cOp_le hfull, afterPut_take_of_full hs hfull, Flow.andThen_raise, Flow.answer_raise,
    endJob_overflowed _ hs]

/-- Where the bytes stand after a patch and as many of `bytes` as fit. -/
theorem windowFilled_memFilled {p : Nat} {bytes : List Byte} {s t : State} (hs : OutputReady s)
    (h2 : p ≠ 0 → 2 ≤ s.cOp.toNat) (hfull : s.outCap.toNat < s.cOp.toNat + bytes.length)
    (hmem : t.mem = memFilled bytes (s.setMem (memPatched p s))) (hbase : t.outBase = s.outBase) :
    windowFilled p bytes s t := by
  have hlen := length_take_of_full hfull
  have hend : s.cOp.toNat + (bytes.take (s.outCap.toNat - s.cOp.toNat)).length = s.outCap.toNat := by
    rw [hlen, Nat.add_sub_cancel' hs.cOp_le]
  simp only [windowFilled, memoryKept, outBytes, outByte, hmem, hbase]
  by_cases hp : p = 0
  · subst hp
    have hput := outBytes_afterPut hs hend.le
    have hkept := memoryKept_afterPut (bytes.take (s.outCap.toNat - s.cOp.toNat)) s
    rw [hlen] at hput
    rw [hend] at hkept
    exact ⟨hput, fun _ => hkept, fun h => absurd rfl h⟩
  · obtain ⟨hpatched, hlast, hput, hkept⟩ := patchedAndPut hs (h2 hp) p hend.le
    rw [hlen] at hput
    rw [hend] at hkept
    rw [memPatched_of_ne hp]
    exact ⟨hput, fun h => absurd h hp, fun _ => ⟨h2 hp, hpatched, hlast, hkept⟩⟩

/-- Bytes that fit, then others that do not, fill the window as one list. -/
theorem memFilled_afterPut {run : List Byte} (rest : List Byte) {s : State}
    (hfit : s.cOp.toNat + run.length ≤ s.outCap.toNat) :
    memFilled rest (afterPut run s) = memFilled (run ++ rest) s := by
  have hcap := s.outCap.isLt
  have hc : s.cOp.toNat + run.length < 2 ^ 32 := by omega
  have htake : (run ++ rest).take (s.outCap.toNat - s.cOp.toNat) =
      run ++ rest.take (s.outCap.toNat - (s.cOp.toNat + run.length)) := by
    rw [List.take_append, List.take_of_length_le (by omega), Nat.sub_add_eq]
  rw [memFilled, memFilled, htake, afterPut_append _ _ _ hc, afterPut_cOp hc, afterPut_outCap]

/-- Bytes that fill the window alone leave no room for others. -/
theorem memFilled_append_of_full {run : List Byte} (rest : List Byte) {s : State}
    (hfull : s.outCap.toNat < s.cOp.toNat + run.length) : memFilled (run ++ rest) s = memFilled run s := by
  rw [memFilled, memFilled, List.take_append_of_le_length (by omega)]

/-! ### C_MATCH -/

/-- The input index of the first pending literal (R138). -/
def pendingStart (s : State) : Nat := s.cIi.toNat - s.cT.toNat

/-- The count of pending literals (R138). -/
def pendingCount (s : State) : Nat := s.cIp.toNat - pendingStart s

/-- The bytes of the pending literals (R162). -/
def pendingBytes (s : State) : List Byte := runBytes s (pendingStart s) (pendingCount s)

/-- The bytes of the match's record (R164). -/
def foundBytes (s : State) : List Byte := matchBytes (extend s) (s.cIp.toNat - s.cCand.toNat)

/-- Memory as C_MATCH puts its bytes: patched where 1 to 3 literals are pending (R163). -/
def pendingMem (s : State) : List Host.Cell := memPatched (if pendingCount s ≤ 3 then pendingCount s else 0) s

/-- The pending literals of C_MATCH as one list of bytes (R138, R162). -/
theorem emitLiterals_pending {s : State} (hs : CompInv s) (hp : s.cPhase = .matched) :
    emitLiterals (pendingStart s) (pendingCount s) (runFlushed s) =
      putAll (pendingBytes s) ((runFlushed s).setMem (pendingMem s)) :=
  emitLiterals_eq { hs.ready with } (hs.pendingRun hp).1 (hs.pendingRun hp).2

/-- C_MATCH, with room or without: the run's bytes, then the match's (R138, R162, R164). -/
theorem phaseMatch_put {s : State} (hs : CompInv s) (hp : s.cPhase = .matched) :
    phaseMatch s =
      (putAll (pendingBytes s) ((runFlushed s).setMem (pendingMem s))).andThen fun t =>
        (putAll (foundBytes s) (matchFound (extend s) (s.cIp.toNat - s.cCand.toNat) t)).andThen fun u =>
          .ok (u.setCPhase .probe) := by
  obtain ⟨hseg, -, hcand, hlt, -, -⟩ := (phaseInv_matched hp).1 hs.phase
  obtain ⟨hin, hpatch⟩ := hs.pendingRun hp
  have hends := emitLiterals_ends (s := runFlushed s) { hs.ready with } hin hpatch
  rw [phaseMatch_eq hseg.ok hcand hlt (hseg.t_pos.trans hseg.pos_ii) hseg.ii_ip, ← emitLiterals_pending hs hp]
  refine hends.andThen_congr fun t ht => ?_
  have hdist : t.cIp.toNat - t.cCand.toNat = s.cIp.toNat - s.cCand.toNat := by
    rw [ht.frame]
    rfl
  rw [extend_of_grew hs hp ht, hdist]
  rfl

/-- C_MATCH at its failing check: before the extension where the literals do not fit, else after it (R138, R257). -/
def matchFailed (s : State) : State :=
  if s.outCap.toNat < s.cOp.toNat + (pendingBytes s).length then runFlushed s else matchTaken s.mem s

theorem matchFailed_kept (s : State) : (matchFailed s).outBase = s.outBase ∧ (matchFailed s).outCap = s.outCap ∧
    (matchFailed s).cPos = s.cPos := by
  unfold matchFailed
  split <;> exact ⟨rfl, rfl, rfl⟩

/-- C_MATCH without room for its bytes ends the job at its failing check (R138, R257). -/
theorem phaseMatch_full {s : State} (hs : CompInv s) (hcan : CanOverflow s) (hp : s.cPhase = .matched)
    (hfull : s.outCap.toNat < s.cOp.toNat + (pendingBytes s ++ foundBytes s).length) :
    (phaseMatch s).answer = .next
      (overflowed (memFilled (pendingBytes s ++ foundBytes s) (s.setMem (pendingMem s))) (matchFailed s)) := by
  have hflushed : CanOverflow ((runFlushed s).setMem (pendingMem s)) := { hcan with }
  rw [phaseMatch_put hs hp, matchFailed]
  split
  · rw [putAll_overflowed hflushed ‹_›, memFilled_append_of_full _ ‹_›]
    rfl
  · have hfit : s.cOp.toNat + (pendingBytes s).length ≤ s.outCap.toNat := Nat.le_of_not_lt ‹_›
    have hcap := s.outCap.isLt
    have hop : (afterPut (pendingBytes s) (matchTaken (pendingMem s) s)).cOp.toNat =
        s.cOp.toNat + (pendingBytes s).length := afterPut_cOp (by rw [matchTaken_cOp]; omega)
    have hafter : CanOverflow (afterPut (pendingBytes s) (matchTaken (pendingMem s) s)) :=
      { hcan with cOp_le := hop.trans_le hfit }
    rw [List.length_append, ← Nat.add_assoc, ← hop] at hfull
    rw [putAll_ok (s := (runFlushed s).setMem (pendingMem s)) hfit, Flow.andThen_ok, matchFound_afterPut,
      putAll_overflowed hafter hfull, memFilled_afterPut (s := matchTaken (pendingMem s) s) _ hfit]
    rfl

/-! ### C_FLUSH and C_END -/

/-- Memory as C_FLUSH puts its run of `n` literals: patched where 1 to 3 come behind a record (R163, R170). -/
def finalMem (s : State) (n : Nat) : List Host.Cell := memPatched (if s.cOp.toNat ≠ 0 ∧ n ≤ 3 then n else 0) s

/-- C_FLUSH, with room or without: the final run's bytes (R170). -/
theorem phaseFlush_put {s : State} (hs : CompInv s) (hp : s.cPhase = .flush) {n : Nat} (hn : n = s.cT.toNat + s.cRem.toNat) :
    phaseFlush s =
      (putAll (finalRunBytes s n) ((restTaken s).setMem (finalMem s n))).andThen fun u => .ok (u.setCPhase .finish) := by
  subst hn
  obtain ⟨ht, -⟩ := (phaseInv_between (.inr hp)).1 hs.phase
  have htotal := hs.total
  have hle : s.cT.toNat + s.cRem.toNat ≤ s.inLen.toNat := by omega
  rw [phaseFlush_eq hle]
  refine congrArg (Flow.andThen · _) ?_
  by_cases h0 : s.cT.toNat + s.cRem.toNat = 0
  · rw [h0, finalMem, ite_self]
    rfl
  · rw [if_pos (Nat.pos_of_ne_zero h0)]
    exact finalRun_eq (s := restTaken s) { hs.ready with } hs.cOp_ne (Nat.pos_of_ne_zero h0) hle

/-- C_FLUSH without room (R170, R257). -/
theorem phaseFlush_full {s : State} (hs : CompInv s) (hcan : CanOverflow s) (hp : s.cPhase = .flush) {n : Nat}
    (hn : n = s.cT.toNat + s.cRem.toNat) (hfull : s.outCap.toNat < s.cOp.toNat + (finalRunBytes s n).length) :
    (phaseFlush s).answer = .next
      (overflowed (memFilled (finalRunBytes s n) (s.setMem (finalMem s n))) { s with cT := cursor n }) := by
  have hready : CanOverflow ((restTaken s).setMem (finalMem s n)) := { hcan with }
  rw [phaseFlush_put hs hp hn, putAll_overflowed hready hfull, hn]
  rfl

/-- C_END without room (R171, R257). -/
theorem phaseEnd_full {s : State} (hcan : CanOverflow s) (hfull : s.outCap.toNat < s.cOp.toNat + 3) :
    (phaseEnd s).answer = .next (overflowed (memFilled Config.endMarker s) s) :=
  putAll_overflowed (bytes := Config.endMarker) hcan hfull _

/-! ### How a compress job ends -/

/-- In `t` the compress job of `s` has ended, OK or with its output window full (R254). -/
def EndedOkOrFull (s t : State) : Prop :=
  t.statusDone = true ∧
    (t.statusErr = .ok ∨ (t.statusErr = .bufferOverflow ∧ t.outLen = s.outCap ∧ t.inPos = s.cPos))

theorem endedOkOrFull_overflowed (m : List Host.Cell) {s u : State} (hcap : u.outCap = s.outCap) (hpos : u.cPos = s.cPos) :
    EndedOkOrFull s (overflowed m u) := ⟨rfl, .inr ⟨rfl, hcap, hpos⟩⟩

theorem phaseSeg_statusBusy {s t : State} (h : (phaseSeg s).answer = .next t) : t.statusBusy = s.statusBusy := by
  unfold phaseSeg at h
  split at h
  · cases h
    rfl
  · simp only at h
    split at h <;> cases h <;> rfl

theorem phaseProbe_statusBusy {s t : State} (h : (phaseProbe s).answer = .next t) : t.statusBusy = s.statusBusy := by
  unfold phaseProbe probeAt at h
  split at h
  · split at h
    · cases h
      rfl
    · simp only at h
      split at h <;> cases h
      rfl
  · cases h

section Phases

variable {s t : State} (hcan : CanOverflow s)
include hcan

theorem phaseEnd_endedOkOrFull (h : (phaseEnd s).answer = .next t) : EndedOkOrFull s t := by
  rcases Nat.lt_or_ge s.outCap.toNat (s.cOp.toNat + 3) with hfull | hfit
  · rw [phaseEnd_full hcan hfull] at h
    cases h
    exact endedOkOrFull_overflowed _ rfl rfl
  · rw [phaseEnd_ok hfit, Flow.answer_ok, endJob_quiet .ok (markerWritten s) hcan.calm] at h
    cases h
    exact ⟨rfl, .inl rfl⟩

variable (hs : CompInv s)
include hs

theorem phaseMatch_busyOrFull (hp : s.cPhase = .matched) (h : (phaseMatch s).answer = .next t) :
    t.statusBusy = s.statusBusy ∨ EndedOkOrFull s t := by
  rcases Nat.lt_or_ge s.outCap.toNat (s.cOp.toNat + (pendingBytes s ++ foundBytes s).length) with hfull | hfit
  · rw [phaseMatch_full hs hcan hp hfull] at h
    cases h
    obtain ⟨-, hcap, hpos⟩ := matchFailed_kept s
    exact .inr (endedOkOrFull_overflowed _ hcap hpos)
  · have hrun : s.cOp.toNat + (pendingBytes s).length ≤ s.outCap.toNat :=
      (Nat.add_le_add_left (by rw [List.length_append]; exact Nat.le_add_right _ _) _).trans hfit
    rw [phaseMatch_ok hs hp ((emitLiterals_pending hs hp).trans (putAll_ok hrun)) hfit] at h
    cases h
    exact .inl rfl

theorem phaseFlush_busyOrFull (hp : s.cPhase = .flush) (h : (phaseFlush s).answer = .next t) :
    t.statusBusy = s.statusBusy ∨ EndedOkOrFull s t := by
  rcases Nat.lt_or_ge s.outCap.toNat (s.cOp.toNat + (finalRunBytes s (s.cT.toNat + s.cRem.toNat)).length) with hfull | hfit
  · rw [phaseFlush_full hs hcan hp rfl hfull] at h
    cases h
    exact .inr (endedOkOrFull_overflowed _ rfl rfl)
  · rw [phaseFlush_put hs hp rfl, putAll_ok (s := (restTaken s).setMem (finalMem s _)) hfit] at h
    cases h
    exact .inl rfl

/-- A compress job's step goes on, or ends the job OK or with its output window full (R254). -/
theorem compressorRule_busyOrFull (h : (compressorRule s).answer = .next t) :
    t.statusBusy = s.statusBusy ∨ EndedOkOrFull s t := by
  unfold compressorRule at h
  split at h
  · exact .inl (phaseSeg_statusBusy h)
  · cases h
    exact .inl rfl
  · exact .inl (phaseProbe_statusBusy h)
  · exact phaseMatch_busyOrFull hcan hs ‹_› h
  · exact phaseFlush_busyOrFull hcan hs ‹_› h
  · exact .inr (phaseEnd_endedOkOrFull hcan h)
  · cases h

end Phases

end Sys2Proof.Machine

namespace Sys2Proof

/-- Settles O51: how a step of the compressor ends (`compressorRule_busyOrFull`), and each writing phase without room
(`phaseMatch_full`, `phaseFlush_full`, `phaseEnd_full`) with where its bytes stand (`windowFilled_memFilled`). -/
theorem compressorFailsOnlyWhenFull : Obligations.CompressorFailsOnlyWhenFull := by
  constructor
  · intro s t hrun hinv hz hstep hidle
    have hs := compInv_of_running hrun hinv
    rw [step_of_running_comp hrun] at hstep
    refine (compressorRule_busyOrFull (hs.canOverflow hrun hz) hs hstep).resolve_left fun hbusy => ?_
    obtain ⟨-, hb, -, -⟩ := hrun
    exact Bool.false_ne_true ((hidle.symm.trans hbusy).trans hb)
  · intro s hrun hinv hz
    have hs := compInv_of_running hrun hinv
    have hcan := hs.canOverflow hrun hz
    rw [step_of_running_comp hrun]
    refine ⟨?_, ?_, fun hphase hfull => ?_⟩
    · intro hphase start n len dist run hfull
      have h2 : (if n ≤ 3 then n else 0) ≠ 0 → 2 ≤ s.cOp.toNat := fun h =>
        (hs.pendingRun hphase).2 (by_contra fun hn => h (if_neg hn))
      rw [compressorRule_matched hphase]
      exact ⟨_, phaseMatch_full hs hcan hphase hfull, rfl,
        windowFilled_memFilled hs.ready h2 hfull rfl (matchFailed_kept s).1⟩
    · intro hphase n hfull
      have h2 : (if s.cOp.toNat ≠ 0 ∧ n ≤ 3 then n else 0) ≠ 0 → 2 ≤ s.cOp.toNat := fun h =>
        (Nat.two_le_iff _).2 ⟨fun h0 => h (if_neg fun hn => hn.1 h0), hs.cOp_ne⟩
      rw [compressorRule_flush hphase]
      exact ⟨_, phaseFlush_full hs hcan hphase rfl hfull, rfl, windowFilled_memFilled hs.ready h2 hfull rfl rfl⟩
    · rw [compressorRule_finish hphase]
      exact ⟨_, phaseEnd_full hcan hfull, rfl, windowFilled_memFilled hs.ready (absurd rfl) hfull rfl rfl⟩

end Sys2Proof
end

section
/-! PROOFS. The end of a disturbed job, the jobs of other instances and the reset signal (70_reset_and_hazards.md: R280, R290,
R291, R39). O29, O40 and O60. -/

open Sys2Proof Sys2Proof.Machine Sys2Proof.Statements

namespace Sys2Proof.Machine

/-- After the reset signal every host register reads 0 (R39). -/
theorem readRegister_resetCore (offset : Nat) (s : State) : readRegister offset (resetCore s) = 0#32 := by
  unfold readRegister
  split <;> rfl

/-- The reset signal writes at most the output window of a disturbed job (R280; log entry 5). -/
theorem resetCore_mem (s : State) :
    (s.hazard = false → (resetCore s).mem = s.mem) ∧ memoryKept s (resetCore s) 0 s.outCap.toNat := by
  simp only [memoryKept, resetCore]
  split
  case isTrue hdisturbed =>
    refine ⟨fun hcalm => ?_, fun x hx => memRead_freeBytes_outside _ _ _ _ _ hx⟩
    simp [hcalm] at hdisturbed
  case isFalse => exact ⟨fun _ => rfl, fun _ _ => rfl⟩

/-- Windows share a byte where an address lies in one of each (R291). -/
theorem sharesByte_iff (s : State) (w : Windows) :
    sharesByte s w = true ↔ ∃ a, (inInputWindow s a = true ∨ inOutputWindow s a = true) ∧
      (inRange w.inBase.toNat w.inLen.toNat a = true ∨ inRange w.outBase.toNat w.outCap.toNat a = true) := by
  simp only [sharesByte, Bool.or_eq_true, rangesMeet_iff, inInputWindow, inOutputWindow, or_and_right, and_or_left, exists_or,
    or_assoc]
  exact or_congr_right or_left_comm

end Sys2Proof.Machine

namespace Sys2Proof

/-- Settles O29: the end is `endJob_disturbed`, and a disturbed end writes at most the output window. -/
theorem disturbedJobEndStaysInItsWindow : Obligations.DisturbedJobEndStaysInItsWindow := by
  intro e s hz t
  have ht : t = freeResult { writeCursors e s with
      statusErr := e, statusBusy := false, statusDone := true, cPhase := .idle, dPhase := .idle } := endJob_disturbed e s hz
  refine ⟨?_, (wroteWindowOnly_endJob e s).kept⟩
  rw [ht, writeCursors_eq]
  rfl

/-- Settles O60: where windows meet (`sharesByte_iff`), another's job as it begins or ends, and START (`startBeginsJob`). -/
theorem overlappingJobsAreDisturbed : Obligations.OverlappingJobsAreDisturbed := by
  refine ⟨sharesByte_iff, fun s w rest h => ?_, fun s w rest h => step_of_host h, fun s v rest h hb hv hp hd => ?_⟩
  · rw [step_of_host h]
    exact ⟨_, rfl, rfl, by simp only [otherStarts, Bool.or_eq_true, Bool.and_eq_true]; rfl⟩
  · obtain ⟨hcomp, hdec⟩ := startBeginsJob s v rest h hb hv hp hd
    cases hmode : v.getLsbD 1
    · exact ⟨_, hcomp hmode, rfl, overlapsOther_iff s⟩
    · exact ⟨_, hdec hmode, rfl, overlapsOther_iff s⟩

/-- Settles O40: the signal gives the reset values, and memory is as `resetCore_mem` says. -/
theorem resetSignalAbandonsJob : Obligations.ResetSignalAbandonsJob := by
  refine ⟨⟨fun offset => ?_, rfl, rfl, rfl⟩, fun s rest h => ?_⟩
  · exact readRegister_resetCore offset State.reset
  · obtain ⟨hcalm, hkept⟩ := resetCore_mem { s with host := rest }
    refine ⟨resetCore { s with host := rest }, step_of_host h, fun offset => readRegister_resetCore offset _, rfl, rfl, rfl, ?_,
      hcalm, hkept⟩
    unfold resetCore
    split <;> rfl

end Sys2Proof
end

section
/-! PROOFS. The number of steps of a compress job (R264, R297), and with that of a decompress job that every job ends. O58. -/

open Sys2Proof Sys2Proof.Machine Sys2Proof.Statements

namespace Sys2Proof.Machine

/-! ### A phase brings a compress job nearer its end -/

/-- Twice the input bytes after the segment and the probe positions left in it. -/
def twiceInputAhead (s : State) : Nat := 2 * (s.cRem.toNat - s.cLl.toNat) + 2 * (s.cIpend.toNat - s.cIp.toNat)

/-- The bound on the steps that a compress job still takes: a probe below `c_ipend` and the phase behind it are two steps that
move `c_ip` up, and a segment has fewer probe positions than bytes (R132 to R139). -/
def compStepsLeft (s : State) : Nat :=
  match s.cPhase with
  | .idle => 0
  | .finish => 1
  | .flush => 2
  | .seg => 2 * s.cRem.toNat + 3
  | .advance => twiceInputAhead s + 3
  | .matched => twiceInputAhead s + 3
  | .probe => twiceInputAhead s + 4

/-- From `s` to `t` the job went on, and came nearer its end. -/
structure Nearer (s t : State) : Prop where
  busy : t.statusBusy = s.statusBusy
  mode : t.ctrlMode = s.ctrlMode
  fewer : compStepsLeft t < compStepsLeft s

/-- A rule that meets no fault goes on, or raises an error that ends the job (R252). -/
theorem Flow.Ends.endedOr {P Q : State → Prop} {t : State} {f : Flow} (hf : f.Ends P Q) (h : f.answer = .next t) :
    t.statusBusy = false ∨ P t := by
  obtain ⟨t', ht', hgoesOn | ⟨e, u, -, rfl⟩⟩ := hf.answer <;> cases ht'.symm.trans h
  · exact .inr hgoesOn
  · exact .inl (endJob_statusBusy e u)

section Phases

variable {s t : State}

/-- C_SEG passes to the last phases, or sets up a segment of the bytes left (R132 to R134). -/
theorem phaseSeg_nearer (hp : s.cPhase = .seg) (h : (phaseSeg s).answer = .next t) : Nearer s t := by
  have hleft : compStepsLeft s = 2 * s.cRem.toNat + 3 := by rw [compStepsLeft, hp]
  have hflush : ∀ u : State, compStepsLeft (u.setCPhase .flush) < compStepsLeft s := fun u => by
    rw [hleft]
    exact Nat.lt_of_lt_of_le (by decide : 2 < 3) (Nat.le_add_left _ _)
  rcases Nat.lt_or_ge 20 s.cRem.toNat with hlt | hle
  · rw [phaseSeg_of_lt_rem hlt] at h
    split at h
    · cases h
      exact ⟨rfl, rfl, hflush _⟩
    · cases h
      refine ⟨rfl, rfl, ?_⟩
      have hll := lengthChosen_cLl s
      simp only [Config.segMax] at hll
      rw [hleft]
      simp only [compStepsLeft, twiceInputAhead, segmentSetUp, hll, cursor_toNat]
      simp only [lengthChosen]
      omega
  · rw [phaseSeg_of_rem_le hle] at h
    cases h
    exact ⟨rfl, rfl, hflush s⟩

/-- C_ADVANCE moves the probe position up (R137). -/
theorem phaseAdvance_nearer (hp : s.cPhase = .advance) (hlt : s.cIp.toNat < s.cIpend.toNat) :
    (phaseAdvance s).Ends (Nearer s) fun _ => True := by
  have hend := s.cIpend.isLt
  refine ⟨rfl, rfl, ?_⟩
  rw [compStepsLeft, compStepsLeft, hp]
  simp only [twiceInputAhead, cursor_toNat, Config.backoffShift, Nat.reducePow]
  omega

/-- C_PROBE ends the segment, or stays where it is below `c_ipend` (R136, R139). -/
theorem phaseProbe_nearer (hp : s.cPhase = .probe) (h : (phaseProbe s).answer = .next t) : Nearer s t := by
  have hleft : compStepsLeft s = twiceInputAhead s + 4 := by rw [compStepsLeft, hp]
  unfold phaseProbe probeAt at h
  split at h
  · split at h
    · cases h
      refine ⟨rfl, rfl, ?_⟩
      rw [hleft]
      simp only [compStepsLeft, segmentEnd, twiceInputAhead, cursor_toNat]
      omega
    · simp only at h
      split at h
      · cases h
        refine ⟨rfl, rfl, ?_⟩
        rw [hleft]
        by_cases heq : le32 s (s.cPos.toNat + (sparseGet s.ht (hashIndex (le32 s s.cIp.toNat))).toNat) = le32 s s.cIp.toNat
        · rw [if_pos heq]
          exact Nat.lt_succ_self _
        · rw [if_neg heq]
          exact Nat.lt_succ_self _
      · cases h
  · cases h

variable (hs : CompInv s)
include hs

/-- C_MATCH moves the probe position up by the match (R138, R140). -/
theorem phaseMatch_nearer (hp : s.cPhase = .matched) : (phaseMatch s).Ends (Nearer s) fun _ => True := by
  obtain ⟨hseg, -, hcand, hlt, -, -⟩ := (phaseInv_matched hp).1 hs.phase
  obtain ⟨hin, hpatch⟩ := hs.pendingRun hp
  have hready : OutputReady (runFlushed s) := { hs.ready with }
  rw [phaseMatch_eq hseg.ok hcand hlt (hseg.t_pos.trans hseg.pos_ii) hseg.ii_ip]
  refine ((emitLiterals_ends hready hin hpatch).mono (fun _ => id) fun _ _ => trivial).andThen fun u hu => ?_
  have hge := extend_ge u
  generalize extend u = n at hge ⊢
  generalize u.cIp.toNat - u.cCand.toNat = dist
  have hfound : OutputReady (matchFound n dist u) := { hu.ready hready with }
  refine ((emitMatch_ends n dist hfound).mono (fun _ => id) fun _ _ => trivial).andThen fun v hv => ?_
  rw [hv.frame, hu.frame]
  refine ⟨rfl, rfl, ?_⟩
  have hend := s.cIpend.isLt
  rw [compStepsLeft, compStepsLeft, hp]
  simp only [twiceInputAhead, State.setCPhase, matchFound, runFlushed, cursor_toNat]
  omega

/-- C_FLUSH passes to C_END (R170). -/
theorem phaseFlush_nearer (hp : s.cPhase = .flush) : (phaseFlush s).Ends (Nearer s) fun _ => True := by
  obtain ⟨ht, -⟩ := (phaseInv_between (.inr hp)).1 hs.phase
  have htotal := hs.total
  have hready : OutputReady (restTaken s) := { hs.ready with }
  have hfinish : ∀ u, OutputGrew 0 (restTaken s) u → Nearer s (u.setCPhase .finish) := by
    intro u hu
    rw [hu.frame]
    refine ⟨rfl, rfl, ?_⟩
    rw [compStepsLeft, compStepsLeft, hp]
    exact Nat.lt_succ_self 1
  rw [phaseFlush_eq (by omega)]
  refine Flow.Ends.andThen ?_ hfinish
  split
  · have hin : s.inLen.toNat - (s.cT.toNat + s.cRem.toNat) + (s.cT.toNat + s.cRem.toNat) ≤ (restTaken s).inLen.toNat := by
      simp only [restTaken]
      omega
    exact (finalRun_ends hready hs.cOp_ne ‹_› hin).mono (fun _ h => h.1) fun _ _ => trivial
  · exact .refl hready

/-- C_END ends the job (R171). -/
theorem phaseEnd_ended (h : (phaseEnd s).answer = .next t) : t.statusBusy = false := by
  have hends : (phaseEnd s).Ends (fun u => u.statusBusy = false) fun _ => True :=
    ((putAll_ends Config.endMarker hs.ready).mono (fun _ => id) fun _ _ => trivial).andThen fun u _ => endJob_statusBusy .ok _
  exact or_self_iff.1 (hends.endedOr h)

/-- Every step of a compress job ends it or brings it nearer its end (R130). -/
theorem compressorRule_endedOr_nearer (h : (compressorRule s).answer = .next t) : t.statusBusy = false ∨ Nearer s t := by
  unfold compressorRule at h
  split at h
  · exact .inr (phaseSeg_nearer ‹_› h)
  · obtain ⟨-, hlt, -⟩ := (phaseInv_advance ‹_›).1 hs.phase
    exact (phaseAdvance_nearer ‹_› hlt).endedOr h
  · exact .inr (phaseProbe_nearer ‹_› h)
  · exact (phaseMatch_nearer hs ‹_›).endedOr h
  · exact (phaseFlush_nearer hs ‹_›).endedOr h
  · exact .inl (phaseEnd_ended hs h)
  · cases h

end Phases

/-! ### The length of a compress job -/

/-- The engine's step leaves no event waiting where none was (log entry 4). -/
theorem engineStep_no_host {s t : State} (hhost : s.host = []) (h : engineStep s = .next t) : t.host = [] := by
  have hcommutes := engineStep_host s []
  rw [← hhost, h] at hcommutes
  exact (congrArg State.host (Host.Outcome.next.inj hcommutes)).trans hhost

/-- A compress job's step ends it, or leaves a compress job with a smaller bound. -/
theorem step_ends_or_compStepsLeft_lt {s : State} (hrun : running .comp s) (hinv : s.inv = true) :
    ∃ t, step s = .next t ∧
      (t.statusBusy = false ∨ (running .comp t ∧ t.inv = true ∧ compStepsLeft t < compStepsLeft s)) := by
  have hs := compInv_of_running hrun hinv
  have hrule := step_of_running_comp hrun
  obtain ⟨hhost, hb, hmode, -⟩ := hrun
  obtain ⟨t, ht, hinvt⟩ := engineStep_inv hinv
  rw [step_of_no_host hhost] at hrule ⊢
  refine ⟨t, ht, (compressorRule_endedOr_nearer hs (hrule.symm.trans ht)).imp_right fun ⟨hbusy, hmodet, hfewer⟩ => ?_⟩
  have hbt := hbusy.trans hb
  exact ⟨⟨engineStep_no_host hhost ht, hbt, hmodet.trans hmode, (inv_busy hinvt hbt).1⟩, hinvt, hfewer⟩

/-- A compress job ends, since its bound cannot fall for ever (R297). -/
theorem ends_of_running_comp {s : State} (hrun : running .comp s) (hinv : s.inv = true) :
    ∃ k t, Host.Core.run core k s = .next t ∧ t.statusBusy = false := by
  obtain ⟨t, ht, hended | ⟨hrunt, hinvt, hlt⟩⟩ := step_ends_or_compStepsLeft_lt hrun hinv
  · exact ⟨1, t, by simp only [Host.Core.run, core, ht], hended⟩
  · obtain ⟨k, v, hv, hend⟩ := ends_of_running_comp hrunt hinvt
    exact ⟨k + 1, v, by simpa only [Host.Core.run, core, ht] using hv, hend⟩
termination_by compStepsLeft s

end Sys2Proof.Machine

namespace Sys2Proof

/-- Settles O58: an idle core is at its end, and each engine ends its job within a bound that every step lowers. -/
theorem everyJobEnds : Obligations.EveryJobEnds := by
  intro s hinv hhost
  cases hb : s.statusBusy with
  | false => exact ⟨0, s, rfl, hb⟩
  | true =>
    have hp := (inv_busy hinv hb).1
    cases hmode : s.ctrlMode with
    | comp => exact ends_of_running_comp ⟨hhost, hb, hmode, hp⟩ hinv
    | dec =>
      obtain ⟨k, t, -, hrun, hend⟩ := ends_within_stepsLeft ⟨hhost, hb, hmode, hp⟩ hinv
      exact ⟨k, t, hrun, hend⟩

end Sys2Proof
end

section
/-! PROOFS. Two cores that look the same from outside, and whose running job, if there is one, has the same in the registers it
reads before it writes them, go on looking the same (R282, R143, R39): the engines, then the events of the outside. O59. -/

open Sys2Proof Sys2Proof.Machine Sys2Proof.Statements

namespace Sys2Proof.Machine

/-! ### States that look the same and go on doing so -/

/-- The decompressor's registers are the same (R36). -/
structure DecoderAgrees (s t : State) : Prop where
  phase : t.dPhase = s.dPhase
  ip : t.dIp = s.dIp
  op : t.dOp = s.dOp
  state : t.dState = s.dState

/-- What a segment's set-up writes is the same (R134, R143). -/
structure SegmentAgrees (s t : State) : Prop where
  ll : t.cLl = s.cLl
  ip : t.cIp = s.cIp
  ii : t.cIi = s.cIi
  ipend : t.cIpend = s.cIpend
  ht : t.ht = s.ht

/-- The phases inside a segment (R130). -/
abbrev inSegment (p : CPhase) : Prop := p = .advance ∨ p = .probe ∨ p = .matched

/-- The compressor's registers are the same, but for those that its phase and the phases after it write before they read them:
outside a segment what the next set-up writes, before a probe has hit the candidate, and always `c_mlen` and `c_moff` (R31). -/
structure CompressorAgrees (s t : State) : Prop where
  phase : t.cPhase = s.cPhase
  pos : t.cPos = s.cPos
  rem : t.cRem = s.cRem
  carried : t.cT = s.cT
  op : t.cOp = s.cOp
  segment : inSegment s.cPhase → SegmentAgrees s t
  cand : s.cPhase = .matched → t.cCand = s.cCand

/-- `s` and `t` look the same from outside, and a running job finds the same in the registers it reads. -/
structure Alike (s t : State) : Prop where
  outside : outsideView t = outsideView s
  dec : s.statusBusy = true → s.ctrlMode = .dec → DecoderAgrees s t
  comp : s.statusBusy = true → s.ctrlMode = .comp → CompressorAgrees s t

/-- Two answers are the same, or lead to states that are alike. -/
inductive AnswersAlike : Result → Result → Prop where
  | next {s t : State} (h : Alike s t) : AnswersAlike (.next s) (.next t)
  | fault (f : Fault) : AnswersAlike (.fault f) (.fault f)
  | refused (r : Refusal) : AnswersAlike (.refused r) (.refused r)

/-- With no job only the outside counts. -/
theorem Alike.of_idle {s t : State} (hb : s.statusBusy = false) (h : outsideView t = outsideView s) : Alike s t := by
  have hidle : ¬s.statusBusy = true := fun hbusy => Bool.false_ne_true (hb.symm.trans hbusy)
  exact ⟨h, fun hbusy => absurd hbusy hidle, fun hbusy => absurd hbusy hidle⟩

/-! ### One state under the registers of two others

Alike states are one state `u` with the registers that do not count taken from either of them, `x`: what is done to `u` is done
to both. -/

/-- `u` with the decompressor's registers of `x`. -/
def withDecoder (x u : State) : State :=
  { u with dPhase := x.dPhase, dIp := x.dIp, dOp := x.dOp, dState := x.dState }

/-- `u` with the compressor's registers and the hash table of `x`. -/
def withCompressor (x u : State) : State :=
  { u with
    cPhase := x.cPhase, cPos := x.cPos, cRem := x.cRem, cLl := x.cLl, cT := x.cT, cIp := x.cIp, cIi := x.cIi
    cIpend := x.cIpend, cOp := x.cOp, cCand := x.cCand, cMlen := x.cMlen, cMoff := x.cMoff, ht := x.ht }

/-- `u` with both engines' registers of `x`. -/
def withEngines (x u : State) : State := withDecoder x (withCompressor x u)

/-- `u` as a decompress job, with the compressor's registers of `x`. -/
def staleDec (x u : State) : State := { withCompressor x u with ctrlMode := .dec, statusBusy := true }

/-- `u` as a compress job in C_MATCH, with what does not count there of `x`. -/
def staleMatch (x u : State) : State :=
  { withDecoder x u with ctrlMode := .comp, statusBusy := true, cMlen := x.cMlen, cMoff := x.cMoff }

/-- `u` as a compress job in C_ADVANCE or C_PROBE, with what does not count there of `x`. -/
def staleProbe (x u : State) : State := { staleMatch x u with cCand := x.cCand }

/-- `u` as a compress job outside a segment, with what does not count there of `x`. -/
def staleBetween (x u : State) : State :=
  { staleProbe x u with cLl := x.cLl, cIp := x.cIp, cIi := x.cIi, cIpend := x.cIpend, ht := x.ht }

theorem eq_withEngines {s t : State} (h : outsideView t = outsideView s) : t = withEngines t s := by
  cases s
  cases t
  simp only [outsideView, State.mk.injEq] at h
  simp [withEngines, withDecoder, withCompressor, h]

theorem staleDec_self {s : State} (hb : s.statusBusy = true) (hm : s.ctrlMode = .dec) : staleDec s s = s := by
  rw [staleDec, ← hb, ← hm]
  rfl

theorem staleMatch_self {s : State} (hb : s.statusBusy = true) (hm : s.ctrlMode = .comp) : staleMatch s s = s := by
  rw [staleMatch, ← hb, ← hm]
  rfl

theorem staleProbe_self {s : State} (hb : s.statusBusy = true) (hm : s.ctrlMode = .comp) : staleProbe s s = s := by
  rw [staleProbe, staleMatch_self hb hm]

theorem staleBetween_self {s : State} (hb : s.statusBusy = true) (hm : s.ctrlMode = .comp) : staleBetween s s = s := by
  rw [staleBetween, staleProbe_self hb hm]

theorem Alike.statusBusy {s t : State} (h : Alike s t) : t.statusBusy = s.statusBusy := by
  rw [eq_withEngines h.outside]
  rfl

theorem Alike.ctrlMode {s t : State} (h : Alike s t) : t.ctrlMode = s.ctrlMode := by
  rw [eq_withEngines h.outside]
  rfl

section Alike

variable {s t : State} (h : Alike s t) (hb : s.statusBusy = true)
include h hb

theorem Alike.eq_staleDec (hm : s.ctrlMode = .dec) : t = staleDec t s := by
  obtain ⟨hphase, hip, hop, hstate⟩ := h.dec hb hm
  calc t
    _ = withEngines t s := eq_withEngines h.outside
    _ = staleDec t s := by simp only [withEngines, withDecoder, staleDec, withCompressor, hphase, hip, hop, hstate, hb, hm]

theorem Alike.eq_staleBetween (hm : s.ctrlMode = .comp) : t = staleBetween t s := by
  obtain ⟨hphase, hpos, hrem, ht, hop, -, -⟩ := h.comp hb hm
  calc t
    _ = withEngines t s := eq_withEngines h.outside
    _ = staleBetween t s := by
      simp only [withEngines, withCompressor, staleBetween, staleProbe, staleMatch, withDecoder, hphase, hpos, hrem, ht, hop,
        hb, hm]

theorem Alike.eq_staleProbe (hm : s.ctrlMode = .comp) (hp : inSegment s.cPhase) : t = staleProbe t s := by
  obtain ⟨hll, hip, hii, hipend, hht⟩ := (h.comp hb hm).segment hp
  calc t
    _ = staleBetween t s := h.eq_staleBetween hb hm
    _ = staleProbe t s := by simp only [staleBetween, hll, hip, hii, hipend, hht]; rfl

theorem Alike.eq_staleMatch (hm : s.ctrlMode = .comp) (hp : s.cPhase = .matched) : t = staleMatch t s := by
  have hcand := (h.comp hb hm).cand hp
  calc t
    _ = staleProbe t s := h.eq_staleProbe hb hm (.inr (.inr hp))
    _ = staleMatch t s := by simp only [staleProbe, hcand]; rfl

end Alike

section Stale

variable (x y u : State)

theorem alike_staleDec : Alike (staleDec x u) (staleDec y u) := ⟨rfl, fun _ _ => ⟨rfl, rfl, rfl, rfl⟩, nofun⟩

theorem alike_staleMatch : Alike (staleMatch x u) (staleMatch y u) :=
  ⟨rfl, nofun, fun _ _ => ⟨rfl, rfl, rfl, rfl, rfl, fun _ => ⟨rfl, rfl, rfl, rfl, rfl⟩, fun _ => rfl⟩⟩

theorem alike_staleProbe (hp : u.cPhase ≠ .matched) : Alike (staleProbe x u) (staleProbe y u) :=
  ⟨rfl, nofun, fun _ _ => ⟨rfl, rfl, rfl, rfl, rfl, fun _ => ⟨rfl, rfl, rfl, rfl, rfl⟩, fun h => absurd h hp⟩⟩

theorem alike_staleBetween (hp : ¬inSegment u.cPhase) : Alike (staleBetween x u) (staleBetween y u) :=
  ⟨rfl, nofun, fun _ _ => ⟨rfl, rfl, rfl, rfl, rfl, fun h => absurd h hp, fun h => absurd (.inr (.inr h)) hp⟩⟩

/-- What happens outside leaves a running job's registers alike. -/
theorem Alike.withEngines {s t : State} (h : Alike s t)
    (hjob : u.statusBusy = true → s.statusBusy = true ∧ u.ctrlMode = s.ctrlMode) :
    Alike (withEngines s u) (withEngines t u) := by
  refine ⟨rfl, fun hb hm => ?_, fun hb hm => ?_⟩
  · exact { h.dec (hjob hb).1 ((hjob hb).2.symm.trans hm) with }
  · obtain ⟨hphase, hpos, hrem, ht, hop, hseg, hcand⟩ := h.comp (hjob hb).1 ((hjob hb).2.symm.trans hm)
    exact ⟨hphase, hpos, hrem, ht, hop, fun hp => { hseg hp with }, hcand⟩

end Stale

/-- The end of a job writes the result alone, and the result is alike where the cursors of the engine that ran are (R252). -/
theorem alike_endJob (e : ErrCode) {s t : State} (h : outsideView (writeCursors e t) = outsideView (writeCursors e s)) :
    Alike (endJob e s) (endJob e t) := by
  refine .of_idle (endJob_statusBusy e s) ?_
  unfold endJob
  rw [eq_withEngines h]
  generalize writeCursors e s = u
  cases hz : u.hazard
  · simp only [withEngines, withDecoder, withCompressor, hz]
    rfl
  · simp only [withEngines, withDecoder, withCompressor, hz]
    rfl

/-! ### Rules that neither read nor write what `σ` changes -/

/-- A rule's end in the states that `σ` makes of its own. -/
def Flow.map (σ : State → State) : Flow → Flow
  | .ok s => .ok (σ s)
  | .raise e s => .raise e (σ s)
  | .fault r => .fault r

/-- What `σ` changes the rule neither reads nor writes. -/
def Ignores (σ : State → State) (rule : State → Flow) : Prop := ∀ s, rule (σ s) = (rule s).map σ

theorem Ignores.andThen {σ : State → State} {f g : State → Flow} (hf : Ignores σ f) (hg : Ignores σ g) :
    Ignores σ fun s => (f s).andThen g := by
  intro s
  simp only [hf s]
  cases f s with
  | ok t => exact hg t
  | raise e t => rfl
  | fault r => rfl

/-- From `σ u` and `τ u` the rule comes to answers that are alike, whatever `u` is. -/
def EndsAlike (σ τ : State → State) (rule : State → Flow) : Prop := ∀ u, AnswersAlike (rule (σ u)).answer (rule (τ u)).answer

/-- First a part that ignores what tells `σ u` and `τ u` apart, then one that ends alike. -/
theorem EndsAlike.after {σ τ : State → State} (hend : ∀ e u, Alike (endJob e (σ u)) (endJob e (τ u))) {f g : State → Flow}
    (hσ : Ignores σ f) (hτ : Ignores τ f) (hg : EndsAlike σ τ g) : EndsAlike σ τ fun s => (f s).andThen g := by
  intro u
  simp only [hσ u, hτ u]
  cases f u with
  | ok v => exact hg v
  | raise e v => exact .next (hend e v)
  | fault r => exact .fault r

/-- A rule that ends alike does so as a step (R261). -/
theorem EndsAlike.runRule {σ τ : State → State} {rule : State → Flow} (hr : EndsAlike σ τ rule) {u : State}
    (hp : placementOk (τ u) = placementOk (σ u)) : AnswersAlike (runRule rule (σ u)) (runRule rule (τ u)) := by
  unfold Machine.runRule
  rw [hp]
  split
  · exact hr u
  · exact .fault _

/-! ### The decompressor -/

section Decompressor

variable (x : State)

theorem fetchBytes_ignores (k : Nat) : Ignores (staleDec x) (fetchBytes k) := by
  intro u
  rcases Nat.lt_or_ge u.inLen.toNat (u.dIp.toNat + k) with hshort | hin
  · rw [fetchBytes_short hshort]
    exact fetchBytes_short (s := staleDec x u) hshort
  · rw [fetchBytes_ok hin]
    exact fetchBytes_ok (s := staleDec x u) hin

theorem litCopy_ignores (n : Nat) : Ignores (staleDec x) (litCopy n) := by
  intro u
  rcases Nat.lt_or_ge u.outCap.toNat (u.dOp.toNat + n) with hover | hout
  · rw [litCopy_overflow hover]
    exact litCopy_overflow (s := staleDec x u) hover
  · rcases Nat.lt_or_ge u.inLen.toNat (u.dIp.toNat + n) with hshort | hin
    · rw [litCopy_truncated hout hshort]
      exact litCopy_truncated (s := staleDec x u) hout hshort
    · rw [litCopy_ok hout hin]
      exact litCopy_ok (s := staleDec x u) hout hin

theorem matchCopy_ignores (dist len : Nat) : Ignores (staleDec x) (matchCopy dist len) := by
  intro u
  rcases Nat.lt_or_ge u.dOp.toNat dist with hback | hdist
  · rw [matchCopy_lookbehind hback]
    exact matchCopy_lookbehind (s := staleDec x u) hback
  · rcases Nat.lt_or_ge u.outCap.toNat (u.dOp.toNat + len) with hover | hout
    · rw [matchCopy_overflow hdist hover]
      exact matchCopy_overflow (s := staleDec x u) hdist hover
    · rw [matchCopy_ok hdist hout]
      exact matchCopy_ok (s := staleDec x u) hdist hout

variable (y : State)

theorem endJob_staleDec (e : ErrCode) (u : State) : Alike (endJob e (staleDec x u)) (endJob e (staleDec y u)) :=
  alike_endJob e (by cases e <;> rfl)

/-- A part of a record, then the rest of it. -/
theorem EndsAlike.afterDec {f g : State → Flow} (hf : ∀ x, Ignores (staleDec x) f)
    (hg : EndsAlike (staleDec x) (staleDec y) g) : EndsAlike (staleDec x) (staleDec y) fun s => (f s).andThen g :=
  .after (endJob_staleDec x y) (hf x) (hf y) hg

theorem setDState_endsAlike (d : DecState) : EndsAlike (staleDec x) (staleDec y) fun s => .ok (s.setDState d) :=
  fun u => .next (alike_staleDec x y (u.setDState d))

theorem literalRecord_endsAlike (h n : Nat) (d : DecState) :
    EndsAlike (staleDec x) (staleDec y) (literalRecord h n d) :=
  .afterDec x y (fun x => fetchBytes_ignores x h) (.afterDec x y (fun x => litCopy_ignores x n) (setDState_endsAlike x y d))

theorem matchRecord_endsAlike (h len dist k : Nat) : EndsAlike (staleDec x) (staleDec y) (matchRecord h len dist k) := by
  refine .afterDec x y (fun x => fetchBytes_ignores x h) (.afterDec x y (fun x => matchCopy_ignores x dist len) fun u => ?_)
  split
  · exact setDState_endsAlike x y _ u
  · exact EndsAlike.afterDec x y (fun x => litCopy_ignores x k) (setDState_endsAlike x y _) u

theorem endOfStream_endsAlike : EndsAlike (staleDec x) (staleDec y) endOfStream := by
  intro u
  rcases Nat.lt_or_ge u.dIp.toNat u.inLen.toNat with hlt | hge
  · rw [endOfStream_trailing (s := staleDec x u) hlt, endOfStream_trailing (s := staleDec y u) hlt]
    exact .next (endJob_staleDec x y _ u)
  · by_cases ho : u.dOp.toNat = u.outCap.toNat
    · rw [endOfStream_ok (s := staleDec x u) hge ho, endOfStream_ok (s := staleDec y u) hge ho]
      exact .next (endJob_staleDec x y .ok { u with outLen := u.dOp, inPos := u.dIp, dPhase := .halt })
    · rw [endOfStream_mismatch (s := staleDec x u) hge ho, endOfStream_mismatch (s := staleDec y u) hge ho]
      exact .next (endJob_staleDec x y _ u)

/-- A record neither reads nor writes the compressor's registers. -/
theorem exec_alike (i : Instr) (u : State) : AnswersAlike (exec i (staleDec x u)) (exec i (staleDec y u)) := by
  cases i with
  | litInit n =>
    have hrule : EndsAlike (staleDec x) (staleDec y) fun s =>
        (literalRecord 1 n (stateAfterLitInit n) s).andThen fun v => .ok (v.setDPhase .fetch) := by
      simp only [literalRecord, Flow.andThen_assoc]
      exact .afterDec x y (fun x => fetchBytes_ignores x 1) (.afterDec x y (fun x => litCopy_ignores x n)
        fun v => .next (alike_staleDec x y ((v.setDState _).setDPhase .fetch)))
    exact hrule.runRule rfl
  | litShort | litLong => exact (literalRecord_endsAlike x y _ _ _).runRule rfl
  | eof l3 c k =>
    exact (EndsAlike.afterDec x y (fun x => fetchBytes_ignores x _) (endOfStream_endsAlike x y)).runRule rfl
  | m1a | m1b | m2 | m3 | m3Long | m4 | m4Long => exact (matchRecord_endsAlike x y _ _ _ _).runRule rfl

theorem runRecord_alike (c : DecodeContext) (u : State) :
    AnswersAlike (runRecord c (staleDec x u)) (runRecord c (staleDec y u)) := by
  have hfetch : ∀ x, fetchRecord c (staleDec x u) = fetchRecord c u := fun _ => rfl
  simp only [runRecord, hfetch]
  split
  · exact exec_alike x y _ u
  · exact .next (endJob_staleDec x y .truncatedInput (u.setDIp (max u.dIp.toNat u.inLen.toNat)))

theorem decompressorStep_alike (u : State) :
    AnswersAlike (decompressorStep (staleDec x u)) (decompressorStep (staleDec y u)) := by
  have hplaced : ∀ x, placementOk (staleDec x u) = placementOk u := fun _ => rfl
  have hphase : ∀ x, (staleDec x u).dPhase = u.dPhase := fun _ => rfl
  have hstart : ∀ x, startsLitInit (staleDec x u) = startsLitInit u := fun _ => rfl
  simp only [decompressorStep, hplaced, hphase, hstart]
  split
  · split
    · split
      · exact runRecord_alike x y _ u
      · exact .next (alike_staleDec x y (u.setDPhase .fetch))
    · exact runRecord_alike x y _ u
    · exact .fault _
    · exact .fault _
  · exact .fault _

end Decompressor

/-! ### The compressor's output -/

/-- `σ` changes nothing that the output operations read, and what they write it leaves alone (R160, R163). -/
structure OffOutput (σ : State → State) : Prop where
  reads : ∀ u, (σ u).mem = u.mem ∧ (σ u).inBase = u.inBase ∧ (σ u).outBase = u.outBase ∧ (σ u).outCap = u.outCap ∧
    (σ u).cOp = u.cOp
  setMem : ∀ u m, (σ u).setMem m = σ (u.setMem m)
  setCOp : ∀ u v, (σ u).setCOp v = σ (u.setCOp v)

section Output

variable {σ : State → State} (h : OffOutput σ)
include h

theorem OffOutput.put (v : Byte) : Ignores σ (put v) := by
  intro u
  obtain ⟨hm, -, hbase, hcap, ho⟩ := h.reads u
  unfold Machine.put
  rw [hcap, ho]
  split
  · rfl
  · simp only [outWrite, hm, hbase, h.setMem, h.setCOp, Flow.map]

theorem OffOutput.sPatch (n : Nat) : Ignores σ (sPatch n) := by
  intro u
  obtain ⟨hm, -, hbase, hcap, ho⟩ := h.reads u
  unfold Machine.sPatch
  rw [hcap, ho]
  split
  · simp only [outWrite, outByte, hm, hbase, h.setMem, Flow.map]
  · rfl

theorem OffOutput.inByte_eq (u : State) (i : Nat) : inByte (σ u) i = inByte u i := by
  obtain ⟨hm, hbase, -⟩ := h.reads u
  rw [inByte, inByte, hm, hbase]

theorem OffOutput.putAll : ∀ bs, Ignores σ (putAll bs)
  | [] => fun _ => rfl
  | v :: bs => (h.put v).andThen (OffOutput.putAll bs)

theorem OffOutput.putInput (start n : Nat) : Ignores σ (putInput start n) := by
  induction n generalizing start with
  | zero => exact fun _ => rfl
  | succ n ih =>
    intro u
    rw [Machine.putInput, h.inByte_eq u start]
    exact (h.put (inByte u start)).andThen (ih (start + 1)) u

theorem OffOutput.emitLiterals (start n : Nat) : Ignores σ (emitLiterals start n) := by
  intro u
  unfold Machine.emitLiterals
  split
  · rfl
  · split
    · exact (h.sPatch n).andThen (h.putInput start n) u
    · exact (h.putAll (literalTag n)).andThen (h.putInput start n) u

theorem OffOutput.finalRunHeader (n : Nat) : Ignores σ (finalRunHeader n) := by
  intro u
  obtain ⟨-, -, -, -, ho⟩ := h.reads u
  unfold Machine.finalRunHeader
  rw [ho]
  split
  · exact h.put _ u
  · split
    · exact h.sPatch n u
    · exact h.putAll _ u

end Output

section Compressor

variable (x : State)

theorem offOutput_staleMatch : OffOutput (staleMatch x) :=
  ⟨fun _ => ⟨rfl, rfl, rfl, rfl, rfl⟩, fun _ _ => rfl, fun _ _ => rfl⟩

theorem offOutput_staleBetween : OffOutput (staleBetween x) :=
  ⟨fun _ => ⟨rfl, rfl, rfl, rfl, rfl⟩, fun _ _ => rfl, fun _ _ => rfl⟩

variable (y : State)

theorem endJob_staleMatch (e : ErrCode) (u : State) : Alike (endJob e (staleMatch x u)) (endJob e (staleMatch y u)) :=
  alike_endJob e (by cases e <;> rfl)

theorem endJob_staleBetween (e : ErrCode) (u : State) :
    Alike (endJob e (staleBetween x u)) (endJob e (staleBetween y u)) :=
  alike_endJob e (by cases e <;> rfl)

/-! ### The compressor's phases -/

/-- C_SEG reads nothing of an earlier segment (R132 to R134). -/
theorem phaseSeg_alike (u : State) :
    AnswersAlike (phaseSeg (staleBetween x u)).answer (phaseSeg (staleBetween y u)).answer := by
  rcases Nat.lt_or_ge 20 u.cRem.toNat with hlt | hle
  · by_cases hshort : (u.cT.toNat + min u.cRem.toNat Config.segMax) / 32 = 0
    · have hseg : ∀ x, phaseSeg (staleBetween x u) =
          .ok (staleBetween { x with cLl := (lengthChosen u).cLl } (u.setCPhase .flush)) :=
        fun x => (phaseSeg_of_lt_rem (s := staleBetween x u) hlt).trans (if_pos hshort)
      rw [hseg x, hseg y]
      exact .next (alike_staleBetween _ _ _ (by simp))
    · have hseg : ∀ x, phaseSeg (staleBetween x u) = .ok (staleProbe x (segmentSetUp (lengthChosen u))) :=
        fun x => (phaseSeg_of_lt_rem (s := staleBetween x u) hlt).trans (if_neg hshort)
      rw [hseg x, hseg y]
      exact .next (alike_staleProbe _ _ _ nofun)
  · rw [phaseSeg_of_rem_le (s := staleBetween x u) hle, phaseSeg_of_rem_le (s := staleBetween y u) hle]
    exact .next (alike_staleBetween x y (u.setCPhase .flush) (by simp))

/-- C_ADVANCE reads no candidate (R137). -/
theorem phaseAdvance_alike (u : State) :
    AnswersAlike (phaseAdvance (staleProbe x u)).answer (phaseAdvance (staleProbe y u)).answer :=
  .next (alike_staleProbe x y
    { u with cIp := cursor (u.cIp.toNat + 1 + (u.cIp.toNat - u.cIi.toNat) / 2 ^ Config.backoffShift), cPhase := .probe } nofun)

/-- A probe writes the candidate before it goes on with it (R136). -/
theorem probeAt_alike (u : State) : AnswersAlike (probeAt (staleProbe x u)).answer (probeAt (staleProbe y u)).answer := by
  have hprobe : ∀ x, probeAt (staleProbe x u) = (probeAt u).map (staleMatch x) := by
    intro x
    by_cases hcand : u.cPos.toNat + (sparseGet u.ht (hashIndex (le32 u u.cIp.toNat))).toNat < u.cIp.toNat
    · have hu : probeAt u = _ := if_pos hcand
      rw [hu]
      exact if_pos hcand
    · have hu : probeAt u = _ := if_neg hcand
      rw [hu]
      exact if_neg hcand
  rw [hprobe x, hprobe y]
  cases probeAt u with
  | ok v => exact .next (alike_staleMatch x y v)
  | raise e v => exact .next (endJob_staleMatch x y e v)
  | fault r => exact .fault r

theorem phaseProbe_alike (u : State) :
    AnswersAlike (phaseProbe (staleProbe x u)).answer (phaseProbe (staleProbe y u)).answer := by
  by_cases hseg : segmentOk u = true
  · rcases Nat.lt_or_ge u.cIp.toNat u.cIpend.toNat with hlt | hge
    · rw [phaseProbe_below_end (s := staleProbe x u) hseg hlt, phaseProbe_below_end (s := staleProbe y u) hseg hlt]
      exact probeAt_alike x y u
    · rw [phaseProbe_at_end (s := staleProbe x u) hseg hge, phaseProbe_at_end (s := staleProbe y u) hseg hge]
      exact .next (alike_staleProbe x y (segmentEnd u) nofun)
  · have hfault : ∀ x, phaseProbe (staleProbe x u) = .fault .readOutsideInput := fun _ => if_neg hseg
    rw [hfault x, hfault y]
    exact .fault _

/-- C_MATCH behind its pending literals (R138). -/
def matchRest (s : State) : Flow :=
  (emitMatch (extend s) (s.cIp.toNat - s.cCand.toNat) (matchFound (extend s) (s.cIp.toNat - s.cCand.toNat) s)).andThen fun u =>
    .ok (u.setCPhase .probe)

/-- What C_MATCH checks (R67, R141; log entry 12). -/
def matchPlaced (s : State) : Bool :=
  segmentOk s && decide (s.cCand.toNat < s.cIp.toNat) && decide (s.cIp.toNat < s.cIpend.toNat) &&
    decide (s.cT.toNat ≤ s.cIi.toNat) && decide (s.cIi.toNat ≤ s.cIp.toNat)

theorem phaseMatch_eq_ite (s : State) :
    phaseMatch s =
      if matchPlaced s then (emitLiterals (pendingStart s) (pendingCount s) (runFlushed s)).andThen matchRest
      else .fault .readOutsideInput := rfl

theorem extend_staleMatch (u : State) : extend (staleMatch x u) = extend u := by
  have hchunk : ∀ m, chunkXor (staleMatch x u) m = chunkXor u m := fun _ => rfl
  have hend : (staleMatch x u).cIp = u.cIp ∧ (staleMatch x u).cIpend = u.cIpend := ⟨rfl, rfl⟩
  have hloop : ∀ f m, extendLoop (staleMatch x u) f m = extendLoop u f m := by
    intro f
    induction f with
    | zero => exact fun _ => rfl
    | succ f ih => exact fun m => by simp only [extendLoop, hchunk, hend, ih]
  simp only [extend, hchunk, hend, hloop]

/-- `x` with the match's length and distance, which C_MATCH writes and nothing reads (R138). -/
def withMatchNoted (n dist : Nat) (x : State) : State := { x with cMlen := cursor n, cMoff := cursor dist }

theorem matchRest_endsAlike : EndsAlike (staleMatch x) (staleMatch y) matchRest := by
  intro u
  have hrest : ∀ x, matchRest (staleMatch x u) =
      (emitMatch (extend u) (u.cIp.toNat - u.cCand.toNat)
        (staleMatch (withMatchNoted (extend u) (u.cIp.toNat - u.cCand.toNat) x)
          (matchFound (extend u) (u.cIp.toNat - u.cCand.toNat) u))).andThen fun v => .ok (v.setCPhase .probe) := by
    intro x
    rw [matchRest, extend_staleMatch]
    rfl
  have hprobe : ∀ x y, EndsAlike (staleMatch x) (staleMatch y) fun v => .ok (v.setCPhase .probe) :=
    fun x y v => .next (alike_staleMatch x y (v.setCPhase .probe))
  rw [hrest x, hrest y]
  exact EndsAlike.after (endJob_staleMatch _ _) ((offOutput_staleMatch _).putAll _) ((offOutput_staleMatch _).putAll _)
    (hprobe _ _) (matchFound (extend u) (u.cIp.toNat - u.cCand.toNat) u)

theorem phaseMatch_alike (u : State) :
    AnswersAlike (phaseMatch (staleMatch x u)).answer (phaseMatch (staleMatch y u)).answer := by
  by_cases hplaced : matchPlaced u = true
  · have hmatch : ∀ x, phaseMatch (staleMatch x u) =
        (emitLiterals (pendingStart u) (pendingCount u) (staleMatch x (runFlushed u))).andThen matchRest :=
      fun _ => if_pos hplaced
    rw [hmatch x, hmatch y]
    exact EndsAlike.after (endJob_staleMatch x y) ((offOutput_staleMatch x).emitLiterals _ _)
      ((offOutput_staleMatch y).emitLiterals _ _) (matchRest_endsAlike x y) (runFlushed u)
  · have hfault : ∀ x, phaseMatch (staleMatch x u) = .fault .readOutsideInput := fun _ => if_neg hplaced
    rw [hfault x, hfault y]
    exact .fault _

/-- C_FLUSH reads nothing of a segment (R170). -/
theorem phaseFlush_alike (u : State) :
    AnswersAlike (phaseFlush (staleBetween x u)).answer (phaseFlush (staleBetween y u)).answer := by
  have hfinish : EndsAlike (staleBetween x) (staleBetween y) fun v => .ok (v.setCPhase .finish) :=
    fun v => .next (alike_staleBetween x y (v.setCPhase .finish) (by simp))
  rcases Nat.lt_or_ge u.inLen.toNat (u.cT.toNat + u.cRem.toNat) with hlt | hle
  · have hfault : ∀ x, phaseFlush (staleBetween x u) = .fault .readOutsideInput := fun _ => if_pos hlt
    rw [hfault x, hfault y]
    exact .fault _
  · by_cases hn : 0 < u.cT.toNat + u.cRem.toNat
    · have hflush : ∀ x, phaseFlush (staleBetween x u) =
          ((finalRunHeader (u.cT.toNat + u.cRem.toNat) (staleBetween x (restTaken u))).andThen
            (putInput (u.inLen.toNat - (u.cT.toNat + u.cRem.toNat)) (u.cT.toNat + u.cRem.toNat))).andThen fun v =>
              .ok (v.setCPhase .finish) :=
        fun x => (phaseFlush_eq (s := staleBetween x u) hle).trans (congrArg (Flow.andThen · _) (if_pos hn))
      have hrun : ∀ x, Ignores (staleBetween x) fun v => (finalRunHeader (u.cT.toNat + u.cRem.toNat) v).andThen
          (putInput (u.inLen.toNat - (u.cT.toNat + u.cRem.toNat)) (u.cT.toNat + u.cRem.toNat)) := fun x =>
        ((offOutput_staleBetween x).finalRunHeader _).andThen ((offOutput_staleBetween x).putInput _ _)
      rw [hflush x, hflush y]
      exact EndsAlike.after (endJob_staleBetween x y) (hrun x) (hrun y) hfinish (restTaken u)
    · have hflush : ∀ x, phaseFlush (staleBetween x u) = .ok (staleBetween x ((restTaken u).setCPhase .finish)) :=
        fun x => (phaseFlush_eq (s := staleBetween x u) hle).trans (congrArg (Flow.andThen · _) (if_neg hn))
      rw [hflush x, hflush y]
      exact hfinish (restTaken u)

/-- C_END reads nothing of a segment (R171). -/
theorem phaseEnd_alike (u : State) :
    AnswersAlike (phaseEnd (staleBetween x u)).answer (phaseEnd (staleBetween y u)).answer :=
  EndsAlike.after (endJob_staleBetween x y) ((offOutput_staleBetween x).putAll _) ((offOutput_staleBetween y).putAll _)
    (g := fun v => .ok (endJob .ok { v with outLen := v.cOp, inPos := v.inLen }))
    (fun v => .next (endJob_staleBetween x y .ok { v with outLen := v.cOp, inPos := v.inLen })) u

end Compressor

/-! ### The engine's turn -/

/-- Each phase reads of its registers those that `CompressorAgrees` names (R130). -/
theorem compressorRule_alike {s t : State} (h : Alike s t) (hb : s.statusBusy = true) (hm : s.ctrlMode = .comp) :
    AnswersAlike (compressorRule s).answer (compressorRule t).answer := by
  have hphase : t.cPhase = s.cPhase := (h.comp hb hm).phase
  cases hp : s.cPhase with
  | idle =>
    rw [compressorRule, compressorRule, hphase, hp]
    exact .fault _
  | seg =>
    have hrule := phaseSeg_alike s t s
    rw [← h.eq_staleBetween hb hm, staleBetween_self hb hm] at hrule
    rwa [compressorRule_seg hp, compressorRule_seg (hphase.trans hp)]
  | advance =>
    have hrule := phaseAdvance_alike s t s
    rw [← h.eq_staleProbe hb hm (.inl hp), staleProbe_self hb hm] at hrule
    rwa [compressorRule_advance hp, compressorRule_advance (hphase.trans hp)]
  | probe =>
    have hrule := phaseProbe_alike s t s
    rw [← h.eq_staleProbe hb hm (.inr (.inl hp)), staleProbe_self hb hm] at hrule
    rwa [compressorRule_probe hp, compressorRule_probe (hphase.trans hp)]
  | matched =>
    have hrule := phaseMatch_alike s t s
    rw [← h.eq_staleMatch hb hm hp, staleMatch_self hb hm] at hrule
    rwa [compressorRule_matched hp, compressorRule_matched (hphase.trans hp)]
  | flush =>
    have hrule := phaseFlush_alike s t s
    rw [← h.eq_staleBetween hb hm, staleBetween_self hb hm] at hrule
    rwa [compressorRule_flush hp, compressorRule_flush (hphase.trans hp)]
  | finish =>
    have hrule := phaseEnd_alike s t s
    rw [← h.eq_staleBetween hb hm, staleBetween_self hb hm] at hrule
    rwa [compressorRule_finish hp, compressorRule_finish (hphase.trans hp)]

theorem engineStep_alike {s t : State} (h : Alike s t) : AnswersAlike (engineStep s) (engineStep t) := by
  have hbt := h.statusBusy
  have hmt := h.ctrlMode
  cases hb : s.statusBusy with
  | false =>
    rw [engineStep_idle hb, engineStep_idle (hbt.trans hb)]
    exact .next h
  | true =>
    cases hm : s.ctrlMode with
    | dec =>
      have hstep := decompressorStep_alike s t s
      rw [← h.eq_staleDec hb hm, staleDec_self hb hm] at hstep
      simpa only [engineStep, hbt, hmt, hb, hm, if_true] using hstep
    | comp =>
      have hplaced : placementOk t = placementOk s := by
        rw [h.eq_staleBetween hb hm]
        rfl
      simp only [engineStep, hbt, hmt, hb, hm, if_true, compressorStep, runRule, hplaced]
      split
      · exact compressorRule_alike h hb hm
      · exact .fault _

/-! ### The events of the outside -/

theorem registerAccess_alike (width offset : Nat) {r r' : Result} (h : AnswersAlike r r') :
    AnswersAlike (registerAccess width offset r) (registerAccess width offset r') := by
  unfold registerAccess
  split
  · exact .refused _
  · split
    · exact h
    · exact .refused _

/-- START writes every register that the job reads before it writes it (R131, R190). -/
theorem startJob_alike (mode : Mode) (ie : Bool) (s x : State) :
    AnswersAlike (startJob mode ie s) (startJob mode ie (withEngines x s)) := by
  cases hp : placementOk s with
  | false =>
    rw [startJob_misplaced mode ie hp, startJob_misplaced (s := withEngines x s) mode ie hp]
    exact .next (alike_endJob .configError rfl)
  | true =>
    cases hd : windowOnDevice s with
    | false =>
      rw [startJob_placed mode ie hp hd, startJob_placed (s := withEngines x s) mode ie hp hd]
      cases mode with
      | comp => exact .next (alike_staleBetween s x (jobBegun .comp ie s) (by simp [jobBegun, startCompress]))
      | dec => exact .next (alike_staleDec s x (jobBegun .dec ie s))
    | true =>
      have hs : startJob mode ie s = .refused .windowOnDevice := (if_pos hp).trans (if_pos hd)
      have ht : startJob mode ie (withEngines x s) = .refused .windowOnDevice := (if_pos hp).trans (if_pos hd)
      rw [hs, ht]
      exact .refused _

/-- A write of a register other than CTRL with no job is one of the outside's fields (R22 to R29). -/
theorem writeRegister_idle {offset : Nat} (v : Word) {s : State} (h0 : offset ≠ 0) (hb : s.statusBusy = false) :
    ∃ u, u.statusBusy = false ∧ ∀ x, writeRegister offset v (withEngines x s) = .next (withEngines x u) := by
  have hidle : ¬s.statusBusy = true := fun h => Bool.false_ne_true (hb.symm.trans h)
  unfold writeRegister
  split
  case h_1 => exact absurd rfl h0
  case h_2 =>
    exact ⟨{ s with statusDone := s.statusDone && !v.getLsbD 1 }, hb, fun x =>
      congrArg Host.Outcome.next (writeStatus_idle v (withEngines x s) hb)⟩
  case h_3 => exact ⟨{ s with inBase := v }, hb, fun _ => congrArg Host.Outcome.next (if_neg hidle)⟩
  case h_4 => exact ⟨{ s with inLen := v }, hb, fun _ => congrArg Host.Outcome.next (if_neg hidle)⟩
  case h_5 => exact ⟨{ s with outBase := v }, hb, fun _ => congrArg Host.Outcome.next (if_neg hidle)⟩
  case h_6 => exact ⟨{ s with outCap := v }, hb, fun _ => congrArg Host.Outcome.next (if_neg hidle)⟩
  case h_7 => exact ⟨s, hb, fun _ => rfl⟩

theorem hostMemRead_withEngines (addr : Word) (s x : State) :
    hostMemRead addr (withEngines x s) = withEngines x (hostMemRead addr s) := by
  by_cases hfree : (s.statusBusy && inOutputWindow s addr.toNat) = true
  · have hs : hostMemRead addr s = _ := if_pos hfree
    rw [hs]
    exact if_pos hfree
  · have hs : hostMemRead addr s = _ := if_neg hfree
    rw [hs]
    exact if_neg hfree

/-- The reset signal gives every engine register its reset value (R280, R39; log entry 2). -/
theorem resetCore_withEngines (s x : State) : resetCore (withEngines x s) = resetCore s := by
  unfold resetCore
  cases hz : s.statusBusy && s.hazard
  · simp only [withEngines, withDecoder, withCompressor, hz, Bool.false_eq_true, if_false]
  · simp only [withEngines, withDecoder, withCompressor, hz, if_true, freeOutput]

theorem memoryAccess_alike (addr : Word) {s x : State} {r r' : Result} (h : AnswersAlike r r') :
    AnswersAlike (memoryAccess addr s r) (memoryAccess addr (withEngines x s) r') := by
  cases hd : s.devices.any fun d => inRange d.base d.size addr.toNat with
  | false =>
    have hs : memoryAccess addr s r = r := if_neg (by simp [hd])
    have ht : memoryAccess addr (withEngines x s) r' = r' := if_neg (fun h => Bool.false_ne_true (hd.symm.trans h))
    rw [hs, ht]
    exact h
  | true =>
    have hs : memoryAccess addr s r = .refused .deviceAccess := if_pos hd
    have ht : memoryAccess addr (withEngines x s) r' = .refused .deviceAccess := if_pos hd
    rw [hs, ht]
    exact .refused _

section Events

variable {s x : State} (h : Alike s (withEngines x s))
include h

theorem writeRegister_alike (offset : Nat) (v : Word) :
    AnswersAlike (writeRegister offset v s) (writeRegister offset v (withEngines x s)) := by
  cases hb : s.statusBusy with
  | true =>
    rw [writeRegister_busy offset v s hb, writeRegister_busy offset v (withEngines x s) hb]
    exact .next (h.withEngines { s with ctrlIe := if offset = 0 then v.getLsbD 2 else s.ctrlIe } fun _ => ⟨hb, rfl⟩)
  | false =>
    by_cases h0 : offset = 0
    · subst h0
      show AnswersAlike (writeCtrl v s) (writeCtrl v (withEngines x s))
      cases hv : v.getLsbD 0 with
      | false =>
        rw [writeCtrl_noStart v s hb hv, writeCtrl_noStart v (withEngines x s) hb hv]
        exact .next (.of_idle hb rfl)
      | true =>
        rw [writeCtrl_start v s hb hv, writeCtrl_start v (withEngines x s) hb hv]
        exact startJob_alike _ _ s x
    · obtain ⟨u, hu, hwrite⟩ := writeRegister_idle v h0 hb
      have hs : writeRegister offset v s = _ := hwrite s
      rw [hs, hwrite x]
      exact .next (.of_idle hu rfl)

theorem hostStep_alike (a : HostAction) : AnswersAlike (hostStep a s) (hostStep a (withEngines x s)) := by
  cases a with
  | engineTurn => exact engineStep_alike h
  | regRead width offset =>
    exact registerAccess_alike width offset
      (.next (h.withEngines { s with hostData := readRegister offset s } fun hb => ⟨hb, rfl⟩))
  | regWrite width offset v => exact registerAccess_alike width offset (writeRegister_alike h offset v)
  | memRead addr =>
    refine memoryAccess_alike addr (.next ?_)
    rw [hostMemRead_withEngines, hostMemRead_frame addr s]
    exact h.withEngines
      { s with hostData := (hostMemRead addr s).hostData, freeCount := (hostMemRead addr s).freeCount } fun hb => ⟨hb, rfl⟩
  | memWrite addr v =>
    exact memoryAccess_alike addr (.next (h.withEngines (hostMemWrite addr v s) fun hb => ⟨hb, rfl⟩))
  | otherStart w => exact .next (h.withEngines (otherStarts w s) fun hb => ⟨hb, rfl⟩)
  | otherEnd w => exact .next (h.withEngines (otherEnds w s) fun hb => ⟨hb, rfl⟩)
  | resetSignal =>
    simp only [hostStep, resetCore_withEngines]
    exact .next (.of_idle rfl rfl)

end Events

/-! ### Runs -/

/-- A step of states that are alike is alike (R264, R296). -/
theorem step_alike {s t : State} (h : Alike s t) : AnswersAlike (step s) (step t) := by
  obtain ⟨x, rfl⟩ : ∃ x, t = withEngines x s := ⟨t, eq_withEngines h.outside⟩
  cases hhost : s.host with
  | nil =>
    rw [step_of_no_host hhost, step_of_no_host (s := withEngines x s) hhost]
    exact engineStep_alike h
  | cons a rest =>
    rw [step_of_host hhost, step_of_host (s := withEngines x s) hhost]
    exact hostStep_alike (s := { s with host := rest }) (h.withEngines { s with host := rest } fun hb => ⟨hb, rfl⟩) a

/-- Runs of states that are alike show the same. -/
theorem outsideAnswer_run_of_alike {s t : State} (k : Nat) (h : Alike s t) :
    outsideAnswer (Host.Core.run core k s) = outsideAnswer (Host.Core.run core k t) := by
  induction k generalizing s t with
  | zero => exact congrArg Host.Outcome.next h.outside.symm
  | succ k ih =>
    have hstep : AnswersAlike (core.step s) (core.step t) := step_alike h
    simp only [Host.Core.run]
    generalize core.step s = r, core.step t = r' at hstep
    cases hstep with
    | next h => exact ih h
    | fault f => rfl
    | refused r => rfl

end Sys2Proof.Machine

namespace Sys2Proof

/-- Settles O59: idle states that look the same are alike (`Alike.of_idle`), and every step keeps states alike. -/
theorem jobsDoNotSeeEarlierJobs : Obligations.JobsDoNotSeeEarlierJobs :=
  fun _ _ k hs _ h => outsideAnswer_run_of_alike k (.of_idle hs h.symm)

end Sys2Proof
end
